-- ==== Sys2Proof/Word.lean ====
section
/-! DEFINITION. The word types of the block (spec 00 R6, R7, R10; 30 R90, R96): what each width stands for.
Bit 0 is the least significant bit of every word; words are unsigned unless a rule says otherwise (R7). A sample `s`, standing for
`s / 2^15`, is an exact `Int`, in `-32768 .. 32768` wherever the spec produces one (00 R10): samples live only inside a buffer
step, so no width is forced on them. -/

namespace Sys2Proof

/-- A byte, for words serialised outside the block (20 R73). -/
abbrev Byte := BitVec 8

/-- A 64-bit command word (30 R90). -/
abbrev CommandWord := BitVec 64

/-- A 32-bit phase word `P`, standing for `P / 2^32` cycles (00 R6). -/
abbrev PhaseWord := BitVec 32

/-- A 32-bit tuning word `F`, standing for `F / 2^32` cycles per sample (00 R6). -/
abbrev TuningWord := BitVec 32

/-- A 16-bit volume word `V`, standing for `V / 2^15`; legal up to `0x8000` (00 R10). -/
abbrev VolumeWord := BitVec 16

/-- A 16-bit modulation-index word `I`, standing for `I / 2^8` (00 R10). -/
abbrev IndexWord := BitVec 16

/-- A 3-bit shape code (30 R96). -/
abbrev ShapeCode := BitVec 3

/-- A row or column number as the command word and the modulator reference carry it (30 R90, 10 R27). -/
abbrev Coord := BitVec 8

/-- A 20-bit word address of the read space (20 R67). -/
abbrev ReadAddr := BitVec 20

/-- A 32-bit word of the read space (20 R67). -/
abbrev ReadWord := BitVec 32

/-- A 32-bit word of the sample stream, IEEE 754 binary32 (20 R60, 44 R206). -/
abbrev OutWord := BitVec 32

/-- A place in the grid, `(row, column)` (10 R21). -/
abbrev Loc := Nat × Nat

end Sys2Proof
end

