-- ==== Sys2Proof/Syntax.lean ====
section
/-! DEFINITION. The 18 commands of the block (spec 30 R94), one constructor per row of the opcode table, and the four
operand formats (30 R92). Row and column operands are the 8-bit fields of the word: whether they lie in the grid
depends on the parameters and is checked when the command is applied (30 R97). -/

namespace Sys2Proof

/-- A command with its operands, after decoding. -/
inductive Instr where
  /-- `NOP` (45 R222). -/
  | nop
  /-- `SETFREQ imm` (45 R223). -/
  | setFreq (imm : TuningWord)
  /-- `SETVOL imm` (45 R224). -/
  | setVol (imm : VolumeWord)
  /-- `SETSHAPE imm` (45 R225). -/
  | setShape (imm : ShapeCode)
  /-- `SETMODIDX imm` (45 R226). -/
  | setModIdx (imm : IndexWord)
  /-- `SETMASTER imm` (45 R227). -/
  | setMaster (imm : VolumeWord)
  /-- `SETMODE imm` (45 R228): 0 grid mode, 1 additive mode. -/
  | setMode (imm : BitVec 1)
  /-- `ACTIVATE r, c` (43 R170). -/
  | activate (r c : Coord)
  /-- `DEACTIVATE r, c` (43 R173). -/
  | deactivate (r c : Coord)
  /-- `LINK r, c, mr, mc` (43 R175). -/
  | link (r c mr mc : Coord)
  /-- `UNLINK r, c` (43 R176). -/
  | unlink (r c : Coord)
  /-- `OPFREQ r, c, imm` (45 R232). -/
  | opFreq (r c : Coord) (imm : TuningWord)
  /-- `OPVOL r, c, imm` (45 R233). -/
  | opVol (r c : Coord) (imm : VolumeWord)
  /-- `OPSHAPE r, c, imm` (45 R234). -/
  | opShape (r c : Coord) (imm : ShapeCode)
  /-- `OPMODIDX r, c, imm` (45 R235). -/
  | opModIdx (r c : Coord) (imm : IndexWord)
  /-- `START` (45 R238). -/
  | start
  /-- `STOP` (45 R239). -/
  | stop
  /-- `CLRERR imm` (45 R240): bit 0 clears `ERR_ILLEGAL`, bit 1 `ERR_RANGE`, bit 2 `ERR_CYCLE`. -/
  | clrErr (imm : BitVec 3)
  deriving DecidableEq, Repr

/-- The four operand formats (30 R92). -/
inductive Format where
  /-- No operand: `ROW`, `COL` and `IMM` must be 0. -/
  | Z
  /-- An immediate: `ROW` and `COL` must be 0. -/
  | I
  /-- A cell: `IMM` must be 0. -/
  | C
  /-- A cell and an immediate. -/
  | CI
  deriving DecidableEq, Repr

/-- The format of each command (30 R92, R94). -/
def Instr.format : Instr → Format
  | .nop => .Z
  | .setFreq _ => .I
  | .setVol _ => .I
  | .setShape _ => .I
  | .setModIdx _ => .I
  | .setMaster _ => .I
  | .setMode _ => .I
  | .activate _ _ => .C
  | .deactivate _ _ => .C
  | .link _ _ _ _ => .CI
  | .unlink _ _ => .C
  | .opFreq _ _ _ => .CI
  | .opVol _ _ _ => .CI
  | .opShape _ _ _ => .CI
  | .opModIdx _ _ _ => .CI
  | .start => .Z
  | .stop => .Z
  | .clrErr _ => .I

/-- The mnemonic of each command (30 R94). -/
def Instr.mnemonic : Instr → String
  | .nop => "NOP"
  | .setFreq _ => "SETFREQ"
  | .setVol _ => "SETVOL"
  | .setShape _ => "SETSHAPE"
  | .setModIdx _ => "SETMODIDX"
  | .setMaster _ => "SETMASTER"
  | .setMode _ => "SETMODE"
  | .activate _ _ => "ACTIVATE"
  | .deactivate _ _ => "DEACTIVATE"
  | .link _ _ _ _ => "LINK"
  | .unlink _ _ => "UNLINK"
  | .opFreq _ _ _ => "OPFREQ"
  | .opVol _ _ _ => "OPVOL"
  | .opShape _ _ _ => "OPSHAPE"
  | .opModIdx _ _ _ => "OPMODIDX"
  | .start => "START"
  | .stop => "STOP"
  | .clrErr _ => "CLRERR"

end Sys2Proof
end

