-- ==== Sys2Proof/WellFormed.lean ====
section
/-! DEFINITION. Which commands some command word carries. Every operand but the three volumes has exactly the width of
its legal range; a volume is legal up to `0x8000` (spec 00 R10, 30 R94). -/

namespace Sys2Proof

/-- A volume word is legal: `0 .. 0x8000` (00 R10). -/
def VolumeWord.legal (v : VolumeWord) : Bool := decide (v.toNat ≤ 0x8000)

/-- The immediate of a command lies in the legal range of 30 R94. -/
def Instr.wellFormed : Instr → Bool
  | .nop => true
  | .setFreq _ => true
  | .setVol v => VolumeWord.legal v
  | .setShape _ => true
  | .setModIdx _ => true
  | .setMaster v => VolumeWord.legal v
  | .setMode _ => true
  | .activate _ _ => true
  | .deactivate _ _ => true
  | .link _ _ _ _ => true
  | .unlink _ _ => true
  | .opFreq _ _ _ => true
  | .opVol _ _ v => VolumeWord.legal v
  | .opShape _ _ _ => true
  | .opModIdx _ _ _ => true
  | .start => true
  | .stop => true
  | .clrErr _ => true

end Sys2Proof
end

