-- ==== Sys2Proof/Decode.lean ====
section
/-! DEFINITION. From a 64-bit command word to a command or a named reason why the word is illegal (spec 30 R90 to R99, 45 R221
checks 1 and 2), and back. Decoding is total; `OPC` alone selects the mnemonic (30 R99). -/

namespace Sys2Proof

/-! ## The five fields (30 R90, R91) -/

/-- `OPC = w[63:56]`. -/
def opcOf (w : CommandWord) : BitVec 8 := w.extractLsb' 56 8

/-- `ROW = w[55:48]`. -/
def rowOf (w : CommandWord) : Coord := w.extractLsb' 48 8

/-- `COL = w[47:40]`. -/
def colOf (w : CommandWord) : Coord := w.extractLsb' 40 8

/-- `RSV = w[39:32]`. -/
def rsvOf (w : CommandWord) : BitVec 8 := w.extractLsb' 32 8

/-- `IMM = w[31:0]`. -/
def immOf (w : CommandWord) : BitVec 32 := w.extractLsb' 0 32

/-- A word from its five fields, most significant first (30 R90). -/
def packFields (opc : BitVec 8) (row col : Coord) (rsv : BitVec 8) (imm : BitVec 32) : CommandWord :=
  opc ++ row ++ col ++ rsv ++ imm

/-! ## Decoding -/

/-- Why a command word is illegal (30 R97); every case raises `ERR_ILLEGAL` (60 R260). -/
inductive Illegal where
  /-- `OPC` is none of the 18 opcodes (30 R95). -/
  | undefinedOpcode
  /-- `RSV` is not 0. -/
  | reservedNonzero
  /-- `ROW` or `COL` is not 0 in a command that names no cell. -/
  | cellFieldNonzero
  /-- `IMM` is outside the command's legal range. -/
  | immediateRange
  /-- Fewer than eight bytes are there: only where words are read from bytes (20 R73). -/
  | truncated
  deriving DecidableEq, Repr

/-- What a word decodes to. -/
inductive Decoded where
  | ok (i : Instr)
  | illegal (why : Illegal)
  deriving DecidableEq, Repr

/-- Formats C and CI, and the last checks of Z and I: `RSV` is 0 and the whole 32-bit `IMM` is at most
`maxImm` (45 R221 check 2, 30 R91). -/
def checkRsvImm (w : CommandWord) (maxImm : Nat) (i : Instr) : Decoded :=
  if rsvOf w ≠ 0#8 then .illegal .reservedNonzero
  else if (immOf w).toNat ≤ maxImm then .ok i
  else .illegal .immediateRange

/-- Formats Z and I: `ROW` and `COL` must be 0 as well (30 R92). -/
def checkNoCell (w : CommandWord) (maxImm : Nat) (i : Instr) : Decoded :=
  if rowOf w ≠ 0#8 ∨ colOf w ≠ 0#8 then .illegal .cellFieldNonzero
  else checkRsvImm w maxImm i

/-- The command a word is, by the opcode map and the legal immediates of 30 R94. `LINK`'s immediate is the
modulating cell, `MROW = IMM[15:8]`, `MCOL = IMM[7:0]` (30 R93). -/
def decode (w : CommandWord) : Decoded :=
  match (opcOf w).toNat with
  | 0x00 => checkNoCell w 0 .nop
  | 0x01 => checkNoCell w 0xFFFFFFFF (.setFreq (immOf w))
  | 0x02 => checkNoCell w 0x8000 (.setVol ((immOf w).extractLsb' 0 16))
  | 0x03 => checkNoCell w 7 (.setShape ((immOf w).extractLsb' 0 3))
  | 0x04 => checkNoCell w 0xFFFF (.setModIdx ((immOf w).extractLsb' 0 16))
  | 0x05 => checkNoCell w 0x8000 (.setMaster ((immOf w).extractLsb' 0 16))
  | 0x06 => checkNoCell w 1 (.setMode ((immOf w).extractLsb' 0 1))
  | 0x10 => checkRsvImm w 0 (.activate (rowOf w) (colOf w))
  | 0x11 => checkRsvImm w 0 (.deactivate (rowOf w) (colOf w))
  | 0x12 => checkRsvImm w 0xFFFF
      (.link (rowOf w) (colOf w) ((immOf w).extractLsb' 8 8) ((immOf w).extractLsb' 0 8))
  | 0x13 => checkRsvImm w 0 (.unlink (rowOf w) (colOf w))
  | 0x20 => checkRsvImm w 0xFFFFFFFF (.opFreq (rowOf w) (colOf w) (immOf w))
  | 0x21 => checkRsvImm w 0x8000 (.opVol (rowOf w) (colOf w) ((immOf w).extractLsb' 0 16))
  | 0x22 => checkRsvImm w 7 (.opShape (rowOf w) (colOf w) ((immOf w).extractLsb' 0 3))
  | 0x23 => checkRsvImm w 0xFFFF (.opModIdx (rowOf w) (colOf w) ((immOf w).extractLsb' 0 16))
  | 0x30 => checkNoCell w 0 .start
  | 0x31 => checkNoCell w 0 .stop
  | 0x3F => checkNoCell w 7 (.clrErr ((immOf w).extractLsb' 0 3))
  | _ => .illegal .undefinedOpcode

/-! ## Encoding -/

/-- Formats Z and I (30 R92). -/
def packImm (opc : BitVec 8) (imm : BitVec 32) : CommandWord := packFields opc 0#8 0#8 0#8 imm

/-- Formats C and CI (30 R92). -/
def packCell (opc : BitVec 8) (r c : Coord) (imm : BitVec 32) : CommandWord := packFields opc r c 0#8 imm

/-- The word of a command, from the opcode map of 30 R94 (30 R110 gives examples). -/
def encode : Instr → CommandWord
  | .nop => packImm 0x00#8 0#32
  | .setFreq imm => packImm 0x01#8 imm
  | .setVol imm => packImm 0x02#8 (imm.setWidth 32)
  | .setShape imm => packImm 0x03#8 (imm.setWidth 32)
  | .setModIdx imm => packImm 0x04#8 (imm.setWidth 32)
  | .setMaster imm => packImm 0x05#8 (imm.setWidth 32)
  | .setMode imm => packImm 0x06#8 (imm.setWidth 32)
  | .activate r c => packCell 0x10#8 r c 0#32
  | .deactivate r c => packCell 0x11#8 r c 0#32
  | .link r c mr mc => packCell 0x12#8 r c ((mr ++ mc).setWidth 32)
  | .unlink r c => packCell 0x13#8 r c 0#32
  | .opFreq r c imm => packCell 0x20#8 r c imm
  | .opVol r c imm => packCell 0x21#8 r c (imm.setWidth 32)
  | .opShape r c imm => packCell 0x22#8 r c (imm.setWidth 32)
  | .opModIdx r c imm => packCell 0x23#8 r c (imm.setWidth 32)
  | .start => packImm 0x30#8 0#32
  | .stop => packImm 0x31#8 0#32
  | .clrErr imm => packImm 0x3F#8 (imm.setWidth 32)

/-! ## Bytes (20 R73: outside the block, least significant byte first) -/

/-- The bytes of a command word in the order of a command file. -/
def commandBytes (w : CommandWord) : List Byte :=
  [w.extractLsb' 0 8, w.extractLsb' 8 8, w.extractLsb' 16 8, w.extractLsb' 24 8,
   w.extractLsb' 32 8, w.extractLsb' 40 8, w.extractLsb' 48 8, w.extractLsb' 56 8]

/-- The bytes of a sample word in the order of a sample file. -/
def sampleBytes (w : OutWord) : List Byte :=
  [w.extractLsb' 0 8, w.extractLsb' 8 8, w.extractLsb' 16 8, w.extractLsb' 24 8]

/-- The first command word of a list of bytes and the bytes behind it; `none` with fewer than eight. -/
def wordOfBytes : List Byte → Option (CommandWord × List Byte)
  | b0 :: b1 :: b2 :: b3 :: b4 :: b5 :: b6 :: b7 :: rest =>
      some (b7 ++ b6 ++ b5 ++ b4 ++ b3 ++ b2 ++ b1 ++ b0, rest)
  | _ => none

/-- Decode the first command of a list of bytes; all commands are eight bytes long (30 R98). -/
def decodeBytes (bytes : List Byte) : Decoded :=
  match wordOfBytes bytes with
  | some (w, _) => decode w
  | none => .illegal .truncated

/-! ## The host's view of the opcode table -/

/-- The bytes of an instruction whose bits are `w`, of which the table gives `nbits`: the word as a command
file holds it (20 R73), with every bit from `nbits` up 0. -/
def tableBytes (nbits w : Nat) : List Byte := commandBytes (BitVec.ofNat 64 (w % 2 ^ nbits))

/-- The instruction the decoder reads from a word numbered as the opcode table numbers it (bit 0 the least
significant bit of the 64-bit command word); `none` where the word is illegal. -/
def decodeTableWord (nbits w : Nat) : Option Instr :=
  match decodeBytes (tableBytes nbits w) with
  | .ok i => some i
  | .illegal _ => none

end Sys2Proof
end

