-- ==== Sys2Proof/Config.lean ====
section
/-! DEFINITION. The implementation parameters (spec 00 R5), which every rule takes as arguments.
The spec leaves no value free (70 R299), so there is no uninterpreted constant here. -/

namespace Sys2Proof

/-- `CHANNELS`, 1 or 2 channels per output frame (00 R5, 20 R65). -/
inductive Channels where
  | mono
  | stereo
  deriving DecidableEq, Repr

/-- The number of words a frame carries (20 R65). -/
def Channels.count : Channels → Nat
  | .mono => 1
  | .stereo => 2

/-- The parameters of 00 R5 that reach the block. `R`, the sample rate, is not among them: "the block
holds no copy of it"; it is an argument of the host's conversions (`tuningOfHz`, `assembleLineAt`).
DESIGN CHOICE (log 1): they are carried as a field of the state that no step writes. -/
structure Params where
  /-- `ROWS`, grid rows = independent voices. -/
  rows     : Nat
  /-- `COLS`, grid columns = depth of a modulation chain. -/
  cols     : Nat
  /-- `N`, buffer length in samples. -/
  bufLen   : Nat
  /-- `CHANNELS`. -/
  channels : Channels
  /-- `QDEPTH`, command queue capacity in commands. -/
  qdepth   : Nat
  deriving DecidableEq, Repr

/-- The default column of 00 R5. -/
def Params.default : Params :=
  { rows := 8, cols := 4, bufLen := 1024, channels := .mono, qdepth := 16 }

/-- The legal values of 00 R5; `N` is any `N ≥ 1`, as the rule allows a model. -/
def Params.Legal (p : Params) : Prop :=
  1 ≤ p.rows ∧ p.rows ≤ 256 ∧ 1 ≤ p.cols ∧ p.cols ≤ 256 ∧ 1 ≤ p.bufLen ∧ 1 ≤ p.qdepth

/-- The number of cells of the grid, `ROWS · COLS` (10 R21). -/
def Params.cells (p : Params) : Nat := p.rows * p.cols

/-- The default of the parameter `R`, the platform's sample rate in Hz (00 R5), and the rate with which 30 R111 reads the
suffix `Hz`. -/
def hostSampleRate : Nat := 44100

end Sys2Proof
end

