-- ==== Sys2Proof/Machine/State.lean ====
section
/-! DEFINITION. The state of the block (spec 10 R20 to R36) as plain data, the reasons a step can stop, and the state after
reset (10 R44, 70 R290). -/

namespace Sys2Proof.Machine

/-- The storage of one operator, nine fields (10 R21 to R27). -/
structure Cell where
  /-- `ACTIVE` (10 R22). -/
  active : Bool
  /-- `FREQ`, a tuning word (10 R23). -/
  freq   : TuningWord
  /-- `VOL`, a volume word (10 R24). -/
  vol    : VolumeWord
  /-- `SHAPE`, a shape code (10 R25). -/
  shape  : ShapeCode
  /-- `PHASE`, a phase word (10 R26). -/
  phase  : PhaseWord
  /-- `MODIDX`, a modulation-index word (10 R27). -/
  modidx : IndexWord
  /-- `MODV`: 0 is `None`, 1 is `OperatorRef` (10 R27). -/
  modv   : Bool
  /-- `MODROW`, the modulator's row (10 R27). -/
  modrow : Coord
  /-- `MODCOL`, the modulator's column (10 R27). -/
  modcol : Coord
  deriving DecidableEq, Repr

/-- `ZEROCELL`, every field 0 (10 R37). -/
def Cell.zero : Cell :=
  { active := false, freq := 0, vol := 0, shape := 0, phase := 0,
    modidx := 0, modv := false, modrow := 0, modcol := 0 }

/-- The grid of operator cells (10 R21): the cells that are not `ZEROCELL`, each under its `(row, column)`, in
rising order of place (canonical form: `Grid.wf`; log 10). A place that is not listed holds `ZEROCELL`. -/
structure Grid where
  entries : List (Loc × Cell)
  deriving DecidableEq, Repr

/-- Whose step comes next (00 R11): the model's own way to hold the free interleaving of 44 R210 as plain data
(DESIGN CHOICE, log 2). -/
inductive Turn where
  /-- The host offers a command word, `HostPush(w)` (20 R62). -/
  | hostPush (w : CommandWord)
  /-- The host reads a word, `HostRead(a)` (20 R69). -/
  | hostRead (a : ReadAddr)
  /-- The engine takes whichever of its two steps is enabled (44 R208, R209). -/
  | engine
  /-- `rst` is 1 at a rising edge (70 R290). -/
  | reset
  deriving DecidableEq, Repr

/-- The three error flags (10 R31). -/
inductive ErrKind where
  /-- `ERR_ILLEGAL` (60 R260). -/
  | illegal
  /-- `ERR_RANGE` (60 R261). -/
  | range
  /-- `ERR_CYCLE` (60 R263). -/
  | cycle
  deriving DecidableEq, Repr

/-- The complete state of the block (10 R20), the output trace among it, and three fields of the model's own
(`params`, `schedule`, `reads`; log 1, 2, 5). -/
structure State where
  /-- The implementation parameters (00 R5); no step writes them. -/
  params     : Params
  /-- `cell[r][c]` (10 R21). -/
  grid       : Grid
  /-- `CTL_FREQ` (10 R29). -/
  ctlFreq    : TuningWord
  /-- `CTL_VOL` (10 R29). -/
  ctlVol     : VolumeWord
  /-- `CTL_SHAPE` (10 R29). -/
  ctlShape   : ShapeCode
  /-- `CTL_MODIDX` (10 R29). -/
  ctlModidx  : IndexWord
  /-- `CTL_MASTER` (10 R29). -/
  ctlMaster  : VolumeWord
  /-- `MODE.ADD` (10 R29). -/
  modeAdd    : Bool
  /-- `RUN` (10 R30). -/
  run        : Bool
  /-- `ERR_ILLEGAL` (10 R31). -/
  errIllegal : Bool
  /-- `ERR_RANGE` (10 R31). -/
  errRange   : Bool
  /-- `ERR_CYCLE` (10 R31). -/
  errCycle   : Bool
  /-- `ERRCMD` (10 R32). -/
  errcmd     : CommandWord
  /-- `BUFCNT` (10 R33). -/
  bufcnt     : BitVec 32
  /-- `CMDQ`, head first (10 R34). -/
  cmdq       : List CommandWord
  /-- `OUT`, the emitted buffers, oldest first (10 R36). -/
  out        : List (List OutWord)
  /-- Whose step comes next; when empty, the engine's (log 2). -/
  schedule   : List Turn
  /-- The address and value of every `HostRead` so far, oldest first: with `OUT`, the observation of 00 R19 (log 5). -/
  reads      : List (ReadAddr × ReadWord)
  deriving DecidableEq, Repr

/-- The block never stops: "Nothing in the block traps, hangs or produces an undefined value" (00 R14). No rule
raises a fault, so there is no constructor. -/
inductive Fault where
  deriving DecidableEq, Repr

/-- Reasons to give a command no meaning. -/
inductive Refusal where
  /-- Raised by an arm of `exec` for a command the model does not model yet (safe); no arm raises it. -/
  | notModelled (mnemonic : String)
  deriving DecidableEq, Repr

/-- What a step or a command answers. -/
abbrev Result := Host.Outcome State Fault Refusal

/-- The reset state for given parameters: every piece of state zero or empty (10 R44). -/
def State.resetWith (p : Params) : State :=
  { params := p, grid := ⟨[]⟩, ctlFreq := 0, ctlVol := 0, ctlShape := 0, ctlModidx := 0, ctlMaster := 0,
    modeAdd := false, run := false, errIllegal := false, errRange := false, errCycle := false,
    errcmd := 0, bufcnt := 0, cmdq := [], out := [], schedule := [], reads := [] }

/-- The block right after reset, at the default parameters of 00 R5 (log 1). -/
def State.reset : State := State.resetWith Params.default

end Sys2Proof.Machine
end

