-- ==== Sys2Proof/Machine/Ops.lean ====
section
/-! DEFINITION. The named operations over the state: reading and writing a cell of the grid (spec 10 R21), the two ends of the
command queue (10 R34), raising an error flag (60 R262, the block's whole "entry sequence") and clearing flags (45 R240).
The pseudocode forms are those of 00 R9. -/

namespace Sys2Proof.Machine

/-! ## The grid -/

/-- The cell listed at a place, `ZEROCELL` where none is. -/
def lookupCell (l : Loc) : List (Loc × Cell) → Cell
  | [] => Cell.zero
  | (k, x) :: rest => if k = l then x else lookupCell l rest

/-- Places in rising order: by row, then by column. -/
def Loc.before (a b : Loc) : Bool := decide (a.1 < b.1) || (decide (a.1 = b.1) && decide (a.2 < b.2))

/-- List a cell in front of the first later place. -/
def insertCell (l : Loc) (x : Cell) : List (Loc × Cell) → List (Loc × Cell)
  | [] => [(l, x)]
  | (k, y) :: rest => if Loc.before l k then (l, x) :: (k, y) :: rest else (k, y) :: insertCell l x rest

/-- `cell[r][c]`, the read of a cell. -/
def Grid.get (g : Grid) (l : Loc) : Cell := lookupCell l g.entries

/-- `cell[r][c] <- x`: the place's entry goes and, unless `x` is `ZEROCELL`, comes back with `x` in its order. -/
def Grid.set (g : Grid) (l : Loc) (x : Cell) : Grid :=
  let others := g.entries.filter (fun e => decide (e.1 ≠ l))
  if x = Cell.zero then ⟨others⟩ else ⟨insertCell l x others⟩

/-- Write some fields of a cell. -/
def Grid.modify (g : Grid) (l : Loc) (f : Cell → Cell) : Grid := g.set l (f (g.get l))

/-- The places the grid lists. -/
def Grid.places (g : Grid) : List Loc := g.entries.map (·.1)

/-- The canonical form: places strictly rising, no `ZEROCELL` listed. -/
def Grid.wf (g : Grid) : Bool :=
  decide (g.entries.Pairwise (fun a b => Loc.before a.1 b.1 = true)) && g.entries.all (fun e => decide (e.2 ≠ Cell.zero))

/-- Apply `f` to every cell of the grid; for an `f` that keeps `ZEROCELL` the unlisted places need no visit. -/
def Grid.mapCells (g : Grid) (f : Cell → Cell) : Grid := g.places.foldl (fun h l => h.set l (f (g.get l))) g

/-- `cell[r][c]` of a state. -/
def State.cell (s : State) (r c : Nat) : Cell := s.grid.get (r, c)

/-- Write some fields of one cell, and nothing else. -/
def State.modifyCell (s : State) (r c : Nat) (f : Cell → Cell) : State := { s with grid := s.grid.modify (r, c) f }

/-! ## The modulation source of a cell (10 R27) -/

/-- `ModulationSource = None | OperatorRef(handle)`. -/
def Cell.modulator (x : Cell) : Option Loc := if x.modv then some (x.modrow.toNat, x.modcol.toNat) else none

/-- `MODV <- 0 ; MODROW <- 0 ; MODCOL <- 0`, the index kept (43 R173, R176). -/
def Cell.clearRef (x : Cell) : Cell := { x with modv := false, modrow := 0, modcol := 0 }

/-- `MODV <- 1 ; MODROW <- mr ; MODCOL <- mc ; MODIDX <- idx` (43 R170, R175). -/
def Cell.setRef (mr mc : Coord) (idx : IndexWord) (x : Cell) : Cell :=
  { x with modv := true, modrow := mr, modcol := mc, modidx := idx }

/-! ## The command queue (10 R34) -/

/-- `CMDQ` has room, which is what `cmd_ready` says (20 R60, R62). -/
def cmdReady (s : State) : Bool := decide (s.cmdq.length < s.params.qdepth)

/-- Append a word at the tail (20 R62). -/
def pushCommand (w : CommandWord) (s : State) : State := { s with cmdq := s.cmdq ++ [w] }

/-- Remove the word at the head (10 R28a): the word and the state without it. -/
def popCommand (s : State) : Option (CommandWord × State) :=
  match s.cmdq with
  | [] => none
  | w :: q => some (w, { s with cmdq := q })

/-! ## Taking an error and clearing flags -/

/-- `ERR_X <- 1`. -/
def raiseFlag (e : ErrKind) (s : State) : State :=
  match e with
  | .illegal => { s with errIllegal := true }
  | .range => { s with errRange := true }
  | .cycle => { s with errCycle := true }

/-- `flag ERR_X(w)` (60 R262): set the sticky flag, capture the command word, change nothing else. -/
def flagError (e : ErrKind) (w : CommandWord) (s : State) : State := { raiseFlag e s with errcmd := w }

/-- Clear the flags whose mask bit is 1, `ERRCMD` kept (45 R240). There is no return from an error beyond this (60 R269). -/
def clearFlags (mask : BitVec 3) (s : State) : State :=
  { s with
    errIllegal := s.errIllegal && !mask.getLsbD 0
    errRange := s.errRange && !mask.getLsbD 1
    errCycle := s.errCycle && !mask.getLsbD 2 }

/-! ## Sequencing outcomes -/

/-- Go on from a next state; pass a stop on. -/
def andThen (o : Result) (f : State → Result) : Result :=
  match o with
  | .next s => f s
  | .fault r => .fault r
  | .refused r => .refused r

end Sys2Proof.Machine
end

