-- ==== Sys2Proof/Machine/Operands.lean ====
section
/-! DEFINITION. The operands of a command against the state: the grid range (spec 45 R221 check 3), the volume range (check 2),
the tail condition of a row (43 R175, R176), and the fields of a read address (20 R70, R71). -/

namespace Sys2Proof.Machine

/-- `r < ROWS` and `c < COLS`. -/
def inGrid (p : Params) (r c : Coord) : Bool := decide (r.toNat < p.rows) && decide (c.toNat < p.cols)

/-- `cell[r][c]` by the fields of a command word. -/
def State.target (s : State) (r c : Coord) : Cell := s.cell r.toNat c.toNat

/-- The place a pair of coordinates names. -/
def place (r c : Coord) : Loc := (r.toNat, c.toNat)

/-- Carry out a command on a cell, or `flag ERR_RANGE(w)` when a coordinate lies outside the grid (45 R221 check 3,
60 R261). `w` is the command's own word: a command and its word determine each other (30 R99; log 8). -/
def checkRange (i : Instr) (ok : Bool) (effect : State → State) (s : State) : State :=
  if ok then effect s else flagError .range (encode i) s

/-- Carry out a command with a volume operand, or `flag ERR_ILLEGAL(w)` when the volume is above `0x8000` (45 R221
check 2). The decoder lets no such operand through; this is what `exec` does with one all the same (log 9). -/
def checkVolume (i : Instr) (v : VolumeWord) (effect : State → State) (s : State) : State :=
  if VolumeWord.legal v then effect s else flagError .illegal (encode i) s

/-- Write some fields of `cell[r][c]` if it is active; an inactive cell is left as it is, silently (45 R231). -/
def onActive (r c : Coord) (f : Cell → Cell) (s : State) : State :=
  if (s.target r c).active then s.modifyCell r.toNat c.toNat f else s

/-- `cell[r][c]` has an active right neighbour, so it is not the tail of its row (43 R175, R176). -/
def hasActiveRight (s : State) (r c : Coord) : Bool :=
  decide (c.toNat + 1 < s.params.cols) && (s.cell r.toNat (c.toNat + 1)).active

/-! ## Read addresses -/

/-- `rd_addr[19]`: 1 in the cell words (20 R70, R71). -/
def addrIsCell (a : ReadAddr) : Bool := a.getLsbD 19

/-- `rd_addr[18:11]`, the row. -/
def addrRow (a : ReadAddr) : Coord := a.extractLsb' 11 8

/-- `rd_addr[10:3]`, the column. -/
def addrCol (a : ReadAddr) : Coord := a.extractLsb' 3 8

/-- `rd_addr[2:0]`, the word number. -/
def addrWord (a : ReadAddr) : BitVec 3 := a.extractLsb' 0 3

/-- The address of word `k` of `cell[r][c]`: `0x80000 + r · 0x800 + c · 8 + k` (20 R71). -/
def cellAddr (r c : Coord) (k : BitVec 3) : ReadAddr := 1#1 ++ r ++ c ++ k

end Sys2Proof.Machine
end

