-- ==== Sys2Proof/Machine/Control.lean ====
section
/-! DEFINITION. The meanings of `NOP` and of the control-register commands (spec 45 R222 to R229): each writes exactly one control
register and nothing else (45 R229). -/

namespace Sys2Proof.Machine

/-- `NOP`: no effect on any state (45 R222). -/
def execNop (s : State) : Result := .next s

/-- `SETFREQ imm`: `CTL_FREQ <- IMM` (45 R223). -/
def execSetFreq (imm : TuningWord) (s : State) : Result := .next { s with ctlFreq := imm }

/-- `SETVOL imm`: `CTL_VOL <- IMM[15:0]` (45 R224). -/
def execSetVol (imm : VolumeWord) (s : State) : Result :=
  .next (checkVolume (.setVol imm) imm (fun s => { s with ctlVol := imm }) s)

/-- `SETSHAPE imm`: `CTL_SHAPE <- IMM[2:0]` (45 R225). -/
def execSetShape (imm : ShapeCode) (s : State) : Result := .next { s with ctlShape := imm }

/-- `SETMODIDX imm`: `CTL_MODIDX <- IMM[15:0]` (45 R226). -/
def execSetModIdx (imm : IndexWord) (s : State) : Result := .next { s with ctlModidx := imm }

/-- `SETMASTER imm`: `CTL_MASTER <- IMM[15:0]` (45 R227). -/
def execSetMaster (imm : VolumeWord) (s : State) : Result :=
  .next (checkVolume (.setMaster imm) imm (fun s => { s with ctlMaster := imm }) s)

/-- `SETMODE imm`: `MODE.ADD <- IMM[0]` (45 R228). -/
def execSetMode (imm : BitVec 1) (s : State) : Result := .next { s with modeAdd := imm.getLsbD 0 }

end Sys2Proof.Machine
end

