-- ==== Sys2Proof/Machine/Live.lean ====
section
/-! DEFINITION. The meanings of the live-parameter commands (spec 45 R231 to R235): each writes one field of one active cell, and
none touches a phase, another cell or a control register. -/

namespace Sys2Proof.Machine

/-- `OPFREQ r, c, imm`: `cell[r][c].FREQ <- IMM`, if active (45 R232). -/
def execOpFreq (r c : Coord) (imm : TuningWord) (s : State) : Result :=
  .next (checkRange (.opFreq r c imm) (inGrid s.params r c) (onActive r c (fun x => { x with freq := imm })) s)

/-- `OPVOL r, c, imm`: `cell[r][c].VOL <- IMM[15:0]`, if active (45 R233). -/
def execOpVol (r c : Coord) (imm : VolumeWord) (s : State) : Result :=
  .next (checkVolume (.opVol r c imm) imm
    (checkRange (.opVol r c imm) (inGrid s.params r c) (onActive r c (fun x => { x with vol := imm }))) s)

/-- `OPSHAPE r, c, imm`: `cell[r][c].SHAPE <- IMM[2:0]`, if active (45 R234). -/
def execOpShape (r c : Coord) (imm : ShapeCode) (s : State) : Result :=
  .next (checkRange (.opShape r c imm) (inGrid s.params r c) (onActive r c (fun x => { x with shape := imm })) s)

/-- `OPMODIDX r, c, imm`: `cell[r][c].MODIDX <- IMM[15:0]`, if active (45 R235). -/
def execOpModIdx (r c : Coord) (imm : IndexWord) (s : State) : Result :=
  .next (checkRange (.opModIdx r c imm) (inGrid s.params r c) (onActive r c (fun x => { x with modidx := imm })) s)

end Sys2Proof.Machine
end

