-- ==== Sys2Proof/Machine/Matrix.lean ====
section
/-! DEFINITION. The meanings of the grid and graph commands `ACTIVATE`, `DEACTIVATE`, `LINK`, `UNLINK` (spec 43 R170 to R177). -/

namespace Sys2Proof.Machine

/-! ## ACTIVATE (43 R170 to R172) -/

/-- The tuning word a new operator takes: `CTL_FREQ`, or for a root in additive mode `(CTL_FREQ << r) mod 2^32`. -/
def snapshotFreq (s : State) (r c : Coord) : TuningWord :=
  if s.modeAdd && decide (c = 0#8) then s.ctlFreq <<< r.toNat else s.ctlFreq

/-- The volume a new operator takes: `CTL_VOL`, or for a root in additive mode `CTL_MASTER >> r`. -/
def snapshotVol (s : State) (r c : Coord) : VolumeWord :=
  if s.modeAdd && decide (c = 0#8) then s.ctlMaster >>> r.toNat else s.ctlVol

/-- The activated cell, from what the cell held: a fresh one has no modulator and index 0, an active one keeps its own
(43 R171). -/
def activatedCell (s : State) (r c : Coord) (old : Cell) : Cell :=
  { active := true
    freq := snapshotFreq s r c
    vol := snapshotVol s r c
    shape := s.ctlShape
    phase := 0
    modidx := if old.active then old.modidx else 0
    modv := if old.active then old.modv else false
    modrow := if old.active then old.modrow else 0
    modcol := if old.active then old.modcol else 0 }

/-- The predecessor condition of `ACTIVATE`: column 0, or an active left neighbour. -/
def mayActivate (s : State) (r c : Coord) : Bool :=
  decide (c = 0#8) || (s.cell r.toNat (c.toNat - 1)).active

/-- The reference of the predecessor to the new cell, with the index from `CTL_MODIDX`; nothing for a root. -/
def linkPredecessor (r c : Coord) (idx : IndexWord) (s : State) : State :=
  if c = 0#8 then s else s.modifyCell r.toNat (c.toNat - 1) (Cell.setRef r c idx)

/-- The effect of `ACTIVATE` on a cell in the grid (43 R170). -/
def activateCell (r c : Coord) (s : State) : State :=
  if mayActivate s r c then
    linkPredecessor r c s.ctlModidx (s.modifyCell r.toNat c.toNat (activatedCell s r c))
  else s

/-- `ACTIVATE r, c` (43 R170). -/
def execActivate (r c : Coord) (s : State) : Result :=
  .next (checkRange (.activate r c) (inGrid s.params r c) (activateCell r c) s)

/-! ## DEACTIVATE (43 R173, R174) -/

/-- Clear every reference in the grid that names a place (43 R174). -/
def clearRefsTo (l : Loc) (g : Grid) : Grid :=
  g.mapCells (fun x => if x.modulator = some l then x.clearRef else x)

/-- One round of the cascade: an active cell loses every reference to it and becomes `ZEROCELL`. -/
def deactivateCell (l : Loc) (g : Grid) : Grid :=
  if (g.get l).active then (clearRefsTo l g).set l Cell.zero else g

/-- The rounds for columns `c + n - 1` down to `c` of a row. -/
def cascade (r c : Nat) : Nat → Grid → Grid
  | 0, g => g
  | n + 1, g => cascade r c n (deactivateCell (r, c + n) g)

/-- The effect of `DEACTIVATE` on a cell in the grid (43 R173). -/
def deactivateFrom (r c : Coord) (s : State) : State :=
  if (s.target r c).active then
    { s with grid := cascade r.toNat c.toNat (s.params.cols - c.toNat) s.grid }
  else s

/-- `DEACTIVATE r, c` (43 R173). -/
def execDeactivate (r c : Coord) (s : State) : Result :=
  .next (checkRange (.deactivate r c) (inGrid s.params r c) (deactivateFrom r c) s)

/-! ## LINK and UNLINK (43 R175 to R177) -/

/-- `Reaches`: following modulator references from `l`, at most `n` looks, arrives at `target` (43 R177). -/
def reaches (g : Grid) (target : Loc) : Nat → Loc → Bool
  | 0, _ => false
  | n + 1, l =>
    if l = target then true
    else match (g.get l).modulator with
      | none => false
      | some l' => reaches g target n l'

/-- The effect of `LINK` on cells in the grid, `w` its word (43 R175). -/
def linkCells (w : CommandWord) (r c mr mc : Coord) (s : State) : State :=
  if !(s.target r c).active || !(s.target mr mc).active then s
  else if hasActiveRight s r c then s
  else if reaches s.grid (place r c) s.params.cells (place mr mc) then flagError .cycle w s
  else s.modifyCell r.toNat c.toNat (Cell.setRef mr mc s.ctlModidx)

/-- `LINK r, c, mr, mc` (43 R175). -/
def execLink (r c mr mc : Coord) (s : State) : Result :=
  .next (checkRange (.link r c mr mc) (inGrid s.params r c && inGrid s.params mr mc)
    (linkCells (encode (.link r c mr mc)) r c mr mc) s)

/-- The effect of `UNLINK` on a cell in the grid (43 R176). -/
def unlinkCell (r c : Coord) (s : State) : State :=
  if !(s.target r c).active then s
  else if hasActiveRight s r c then s
  else s.modifyCell r.toNat c.toNat Cell.clearRef

/-- `UNLINK r, c` (43 R176). -/
def execUnlink (r c : Coord) (s : State) : Result :=
  .next (checkRange (.unlink r c) (inGrid s.params r c) (unlinkCell r c) s)

end Sys2Proof.Machine
end

