-- ==== Sys2Proof/Machine/RunControl.lean ====
section
/-! DEFINITION. The meanings of `START`, `STOP` and `CLRERR` (spec 45 R238 to R240), and the lifecycle names of 45 R241. -/

namespace Sys2Proof.Machine

/-- `START`: `RUN <- 1`, nothing else (45 R238). -/
def execStart (s : State) : Result := .next { s with run := true }

/-- `STOP`: `RUN <- 0`, nothing else (45 R239). -/
def execStop (s : State) : Result := .next { s with run := false }

/-- `CLRERR imm`: clear the flags whose mask bit is 1 (45 R240). -/
def execClrErr (imm : BitVec 3) (s : State) : Result := .next (clearFlags imm s)

/-- The four lifecycle states of the software worker, seen from the block (45 R241). -/
inductive Lifecycle where
  /-- `RUN = 0` and no `START` queued. -/
  | stopped
  /-- `RUN = 0` and a `START` queued. -/
  | starting
  /-- `RUN = 1` and no `STOP` queued. -/
  | running
  /-- `RUN = 1` and a `STOP` queued. -/
  | stoppingRequested
  deriving DecidableEq, Repr

/-- The lifecycle state, from `RUN` and the queue's content: the block stores only `RUN` (45 R241). -/
def lifecycle (s : State) : Lifecycle :=
  if s.run then
    if s.cmdq.any (fun w => decide (decode w = .ok .stop)) then .stoppingRequested else .running
  else
    if s.cmdq.any (fun w => decide (decode w = .ok .start)) then .starting else .stopped

end Sys2Proof.Machine
end

