-- ==== Sys2Proof/Machine/Dispatch.lean ====
section
/-! DEFINITION. One arm per command, each a direct call of its meaning (spec 30 R94, the column "semantics"). -/

namespace Sys2Proof.Machine

def exec (i : Instr) (s : State) : Host.Outcome State Fault Refusal :=
  match i with
  | .nop => Sys2Proof.Machine.execNop s
  | .setFreq imm => Sys2Proof.Machine.execSetFreq imm s
  | .setVol imm => Sys2Proof.Machine.execSetVol imm s
  | .setShape imm => Sys2Proof.Machine.execSetShape imm s
  | .setModIdx imm => Sys2Proof.Machine.execSetModIdx imm s
  | .setMaster imm => Sys2Proof.Machine.execSetMaster imm s
  | .setMode imm => Sys2Proof.Machine.execSetMode imm s
  | .activate r c => Sys2Proof.Machine.execActivate r c s
  | .deactivate r c => Sys2Proof.Machine.execDeactivate r c s
  | .link r c mr mc => Sys2Proof.Machine.execLink r c mr mc s
  | .unlink r c => Sys2Proof.Machine.execUnlink r c s
  | .opFreq r c imm => Sys2Proof.Machine.execOpFreq r c imm s
  | .opVol r c imm => Sys2Proof.Machine.execOpVol r c imm s
  | .opShape r c imm => Sys2Proof.Machine.execOpShape r c imm s
  | .opModIdx r c imm => Sys2Proof.Machine.execOpModIdx r c imm s
  | .start => Sys2Proof.Machine.execStart s
  | .stop => Sys2Proof.Machine.execStop s
  | .clrErr imm => Sys2Proof.Machine.execClrErr imm s

end Sys2Proof.Machine
end

