-- ==== Sys2Proof/Machine/Phase.lean ====
section
/-! DEFINITION. The phase accumulator (spec 41 R142, R143): addition of 32-bit words modulo `2^32`, nothing else. -/

namespace Sys2Proof.Machine

/-- `Base(r, c)[i] = (PHASE + i · FREQ) mod 2^32` (41 R142). -/
def basePhase (x : Cell) (i : Nat) : PhaseWord := x.phase + BitVec.ofNat 32 i * x.freq

/-- `(PHASE + N · FREQ) mod 2^32`, the accumulator after a buffer (41 R143). -/
def nextPhase (p : Params) (x : Cell) : PhaseWord := x.phase + BitVec.ofNat 32 p.bufLen * x.freq

end Sys2Proof.Machine
end

