-- ==== Sys2Proof/Machine/Wave.lean ====
section
/-! DEFINITION. The waveform function `Wave(shape, theta)` (spec 40 R120 to R129): a total, pure function of a shape code and a
phase word. Samples are exact integers; every quotient is a floor (00 R8), which `Int` division by a positive number is. -/

namespace Sys2Proof.Machine

/-! ## The sine table `QSIN` (40 R122), as listed there -/

/-- `QSIN[0]` to `QSIN[31]`. -/
def qsin0 : List Nat :=
  [0, 201, 402, 603, 804, 1005, 1206, 1407,
   1608, 1809, 2009, 2210, 2411, 2611, 2811, 3012,
   3212, 3412, 3612, 3812, 4011, 4211, 4410, 4609,
   4808, 5007, 5205, 5404, 5602, 5800, 5998, 6195]

/-- `QSIN[32]` to `QSIN[63]`. -/
def qsin32 : List Nat :=
  [6393, 6590, 6787, 6983, 7180, 7376, 7571, 7767,
   7962, 8157, 8351, 8546, 8740, 8933, 9127, 9319,
   9512, 9704, 9896, 10088, 10279, 10469, 10660, 10850,
   11039, 11228, 11417, 11605, 11793, 11980, 12167, 12354]

/-- `QSIN[64]` to `QSIN[95]`. -/
def qsin64 : List Nat :=
  [12540, 12725, 12910, 13095, 13279, 13463, 13646, 13828,
   14010, 14192, 14373, 14553, 14733, 14912, 15091, 15269,
   15447, 15624, 15800, 15976, 16151, 16326, 16500, 16673,
   16846, 17018, 17190, 17361, 17531, 17700, 17869, 18037]

/-- `QSIN[96]` to `QSIN[127]`. -/
def qsin96 : List Nat :=
  [18205, 18372, 18538, 18703, 18868, 19032, 19195, 19358,
   19520, 19681, 19841, 20001, 20160, 20318, 20475, 20632,
   20788, 20943, 21097, 21251, 21403, 21555, 21706, 21856,
   22006, 22154, 22302, 22449, 22595, 22740, 22884, 23028]

/-- `QSIN[128]` to `QSIN[159]`. -/
def qsin128 : List Nat :=
  [23170, 23312, 23453, 23593, 23732, 23870, 24008, 24144,
   24279, 24414, 24548, 24680, 24812, 24943, 25073, 25202,
   25330, 25457, 25583, 25708, 25833, 25956, 26078, 26199,
   26320, 26439, 26557, 26674, 26791, 26906, 27020, 27133]

/-- `QSIN[160]` to `QSIN[191]`. -/
def qsin160 : List Nat :=
  [27246, 27357, 27467, 27576, 27684, 27791, 27897, 28002,
   28106, 28209, 28311, 28411, 28511, 28610, 28707, 28803,
   28899, 28993, 29086, 29178, 29269, 29359, 29448, 29535,
   29622, 29707, 29792, 29875, 29957, 30038, 30118, 30196]

/-- `QSIN[192]` to `QSIN[223]`. -/
def qsin192 : List Nat :=
  [30274, 30350, 30425, 30499, 30572, 30644, 30715, 30784,
   30853, 30920, 30986, 31050, 31114, 31177, 31238, 31298,
   31357, 31415, 31471, 31527, 31581, 31634, 31686, 31737,
   31786, 31834, 31881, 31927, 31972, 32015, 32058, 32099]

/-- `QSIN[224]` to `QSIN[255]`. -/
def qsin224 : List Nat :=
  [32138, 32177, 32214, 32251, 32286, 32319, 32352, 32383,
   32413, 32442, 32470, 32496, 32522, 32546, 32568, 32590,
   32610, 32629, 32647, 32664, 32679, 32693, 32706, 32718,
   32729, 32738, 32746, 32753, 32758, 32762, 32766, 32767]

/-- `QSIN`, 257 entries, a quarter of a sine wave with both end points (40 R122). -/
def qsinTable : List Nat :=
  qsin0 ++ (qsin32 ++ (qsin64 ++ (qsin96 ++ (qsin128 ++ (qsin160 ++ (qsin192 ++ (qsin224 ++ [32768])))))))

/-- The table read `QSIN[q]`; only indices `0 .. 256` are ever read (40 R123). -/
def qsin (q : Nat) : Int := (qsinTable.getD q 0 : Nat)

/-- The full-wave sample `S(k)`, `k` in `0 .. 1023`, by quadrant (40 R124). -/
def fullSine (k : Nat) : Int :=
  match k / 256 with
  | 0 => qsin (k % 256)
  | 1 => qsin (256 - k % 256)
  | 2 => -qsin (k % 256)
  | _ => -qsin (256 - k % 256)

/-! ## The shapes -/

/-- Sine: table index `theta[31:22]`, fraction `theta[21:10]`, linear interpolation with a floor (40 R125). DEDUCED
(log 14): the formula is followed where the rule's remark on falling interpolations (`s1 < result`) contradicts it. -/
def sineWave (theta : PhaseWord) : Int :=
  let k := (theta.extractLsb' 22 10).toNat
  let fr := (theta.extractLsb' 10 12).toNat
  let s0 := fullSine k
  let s1 := fullSine ((k + 1) % 1024)
  s0 + ((s1 - s0) * fr) / 4096

/-- Square: high in the first half of the cycle (40 R126). -/
def squareWave (theta : PhaseWord) : Int := if theta.getLsbD 31 then -32768 else 32768

/-- Sawtooth: `theta[31:16] - 32768` (40 R127). -/
def sawtoothWave (theta : PhaseWord) : Int := ((theta.extractLsb' 16 16).toNat : Int) - 32768

/-- Triangle: rising for `u < 65536`, falling from there, `u = theta[31:15]` (40 R128). -/
def triangleWave (theta : PhaseWord) : Int :=
  let u : Int := (theta.extractLsb' 15 17).toNat
  if u < 65536 then u - 32768 else 98304 - u

/-- `Wave(shape, theta)` (40 R120); shapes 0, 5, 6 and 7 are silent (40 R129). -/
def wave (shape : ShapeCode) (theta : PhaseWord) : Int :=
  match shape.toNat with
  | 1 => sineWave theta
  | 2 => squareWave theta
  | 3 => sawtoothWave theta
  | 4 => triangleWave theta
  | _ => 0

end Sys2Proof.Machine
end

