-- ==== Sys2Proof/Machine/Eval.lean ====
section
/-! DEFINITION. Operator evaluation, phase modulation and the memo (spec 42 R150 to R160). The memo is a local of one
`EngineBuffer` step (10 R35): an argument here, never state. -/

namespace Sys2Proof.Machine

/-- The memo: the samples of every operator evaluated so far in the step (10 R35). -/
abbrev Memo := List (Loc × List Int)

/-- The memo's entry for a place. -/
def memoGet (l : Loc) : Memo → Option (List Int)
  | [] => none
  | (k, y) :: rest => if k = l then some y else memoGet l rest

/-- `N` zeros (42 R150). -/
def silence (p : Params) : List Int := List.replicate p.bufLen 0

/-- The modulation offset `((MODIDX · m) << 9) mod 2^32`, exact and signed before the reduction (42 R152). -/
def modOffset (idx : IndexWord) (m : Int) : PhaseWord := BitVec.ofInt 32 ((idx.toNat : Int) * m * 512)

/-- The phase argument of sample `i` for a modulator sample `m` (42 R153). -/
def phaseArg (x : Cell) (i : Nat) (m : Int) : PhaseWord := basePhase x i + modOffset x.modidx m

/-- The volume product `(VOL · w) >> 15`, a floor (42 R156). -/
def applyVolume (v : VolumeWord) (w : Int) : Int := ((v.toNat : Int) * w) / 32768

/-- Sample `i` of an operator for a modulator sample `m` (42 R150). -/
def operatorSample (x : Cell) (i : Nat) (m : Int) : Int := applyVolume x.vol (wave x.shape (phaseArg x i m))

/-- The `N` samples of an operator for the modulator signal `m` (42 R150). -/
def operatorSamples (p : Params) (x : Cell) (m : List Int) : List Int :=
  (List.range p.bufLen).map (fun i => operatorSample x i (m.getD i 0))

/-- The modulator's signal as `ev` gives it, and `N` zeros where the operator has no modulator (42 R150). -/
def modulatorSignal (p : Params) (ev : Loc → Grid × Memo → List Int × (Grid × Memo)) (x : Cell)
    (ctx : Grid × Memo) : List Int × (Grid × Memo) :=
  match x.modulator with
  | some l' => ev l' ctx
  | none => (silence p, ctx)

/-- `Eval(r, c)` with a fuel, over the grid and the memo (42 R150). A place in the memo is not evaluated again (42
R158); a spent fuel or an inactive cell gives `N` zeros and writes nothing (42 R160; log 11). -/
def evalCell (p : Params) : Nat → Loc → Grid × Memo → List Int × (Grid × Memo)
  | 0, _, ctx => (silence p, ctx)
  | fuel + 1, l, ctx =>
    match memoGet l ctx.2 with
    | some y => (y, ctx)
    | none =>
      let x := ctx.1.get l
      if x.active then
        let sub := modulatorSignal p (evalCell p fuel) x ctx
        let y := operatorSamples p x sub.1
        (y, (sub.2.1.modify l (fun z => { z with phase := nextPhase p x }), (l, y) :: sub.2.2))
      else (silence p, ctx)

/-- `Eval` at the fuel of 42 R160, `ROWS · COLS`. -/
def eval (p : Params) (l : Loc) (ctx : Grid × Memo) : List Int × (Grid × Memo) := evalCell p p.cells l ctx

end Sys2Proof.Machine
end

