-- ==== Sys2Proof/Machine/Mixer.lean ====
section
/-! DEFINITION. The mixer, the conversion to binary32 and the emission of one buffer (spec 44 R200 to R207, and the second half of
`EngineBuffer`, 44 R209). -/

namespace Sys2Proof.Machine

/-- The voice set `V`: the rows whose root is active, ascending (44 R201). -/
def voiceSet (s : State) : List Nat := (List.range s.params.rows).filter (fun r => (s.cell r 0).active)

/-- `w_r = Eval(r, 0)` for each listed row in turn, one grid and one memo threaded through (44 R209). -/
def evalVoices (p : Params) : List Nat → Grid × Memo → List (List Int) × (Grid × Memo)
  | [], ctx => ([], ctx)
  | r :: rest, ctx =>
    let e := eval p (r, 0) ctx
    let tail := evalVoices p rest e.2
    (e.1 :: tail.1, tail.2)

/-- The gain `G`: `CTL_MASTER` in grid mode, exactly 1 in additive mode (44 R205). -/
def mixGain (s : State) : VolumeWord := if s.modeAdd then 0x8000#16 else s.ctlMaster

/-- `sum[i]` (44 R202). -/
def voiceSum (ws : List (List Int)) (i : Nat) : Int := (ws.map (fun w => w.getD i 0)).sum

/-- `floor(sum · G / (n · 32768))`, and 0 with no division when there is no voice (44 R203, R204). -/
def mixSample (sum : Int) (gain : VolumeWord) (n : Nat) : Int :=
  if n = 0 then 0 else (sum * (gain.toNat : Int)) / ((n : Int) * 32768)

/-- The mixed samples `out[0 .. N-1]` (44 R200). -/
def mixBuffer (s : State) (ws : List (List Int)) : List Int :=
  (List.range s.params.bufLen).map (fun i => mixSample (voiceSum ws i) (mixGain s) ws.length)

/-- `F32(s)`, the binary32 word of `s / 32768` (44 R206). -/
def f32 (x : Int) : OutWord :=
  if x = 0 then 0#32
  else
    let sign : Nat := if x < 0 then 1 else 0
    let a := x.natAbs
    let e := Nat.log2 a
    BitVec.ofNat 32 (sign * 2 ^ 31 + (112 + e) * 2 ^ 23 + (a - 2 ^ e) * 2 ^ (23 - e))

/-- The `CHANNELS` equal words of one frame (20 R65). -/
def frameWords (p : Params) (x : Int) : List OutWord := List.replicate p.channels.count (f32 x)

/-- The emitted buffer, `N · CHANNELS` words (44 R207). -/
def bufferWords (p : Params) (samples : List Int) : List OutWord := samples.flatMap (frameWords p)

/-- The evaluation, mix and emission of one buffer, after the drain (44 R209). -/
def emitBuffer (s : State) : State :=
  let voices := evalVoices s.params (voiceSet s) (s.grid, [])
  { s with
    grid := voices.2.1
    out := s.out ++ [bufferWords s.params (mixBuffer s voices.1)]
    bufcnt := s.bufcnt + 1 }

/-- The beats of a buffer on the sample stream: data and `out_last` (20 R60, R64). -/
def outBeats : List OutWord → List (OutWord × Bool)
  | [] => []
  | [w] => [(w, true)]
  | w :: rest => (w, false) :: outBeats rest

end Sys2Proof.Machine
end

