-- ==== Sys2Proof/Machine/Flags.lean ====
section
/-! DEFINITION. The error flags as the outside sees them: the level `err` (spec 60 R267) and the `STATUS` word (20 R70, 10 R31).
No operation of the datapath records anything about its result: there are no condition codes (10 R31). -/

namespace Sys2Proof.Machine

/-- `ERR_X`. -/
def State.flag (s : State) : ErrKind → Bool
  | .illegal => s.errIllegal
  | .range => s.errRange
  | .cycle => s.errCycle

/-- The `err` output, the OR of the three flags at all times (60 R267). -/
def errLine (s : State) : Bool := s.errIllegal || s.errRange || s.errCycle

/-- `STATUS`: `[0] = RUN`, `[1] = MODE.ADD`, `[4] = ERR_ILLEGAL`, `[5] = ERR_RANGE`, `[6] = ERR_CYCLE` (20 R70). -/
def statusWord (s : State) : ReadWord :=
  0#25 ++ BitVec.ofBool s.errCycle ++ BitVec.ofBool s.errRange ++ BitVec.ofBool s.errIllegal ++ 0#2
    ++ BitVec.ofBool s.modeAdd ++ BitVec.ofBool s.run

end Sys2Proof.Machine
end

