-- ==== Sys2Proof/Machine/ReadPort.lean ====
section
/-! DEFINITION. `RegRead(a)`, the read space (spec 20 R69 to R72): a function of the address and the state only. -/

namespace Sys2Proof.Machine

/-- `GEOM`: `[7:0] = ROWS - 1`, `[15:8] = COLS - 1`, `[16] = CHANNELS - 1` (20 R70). -/
def geomWord (p : Params) : ReadWord :=
  0#15 ++ BitVec.ofNat 1 (p.channels.count - 1) ++ BitVec.ofNat 8 (p.cols - 1) ++ BitVec.ofNat 8 (p.rows - 1)

/-- The global words (20 R70, R72). `N`, `QDEPTH` and the queue length are read modulo `2^32` (log 12). -/
def readGlobal (a : ReadAddr) (s : State) : ReadWord :=
  match a.toNat with
  | 0x00 => 0x57464731#32
  | 0x01 => geomWord s.params
  | 0x02 => BitVec.ofNat 32 s.params.bufLen
  | 0x03 => BitVec.ofNat 32 s.params.qdepth
  | 0x04 => statusWord s
  | 0x05 => BitVec.ofNat 32 s.cmdq.length
  | 0x06 => s.bufcnt
  | 0x07 => s.errcmd.extractLsb' 0 32
  | 0x08 => s.errcmd.extractLsb' 32 32
  | 0x10 => s.ctlFreq
  | 0x11 => s.ctlVol.setWidth 32
  | 0x12 => s.ctlShape.setWidth 32
  | 0x13 => s.ctlModidx.setWidth 32
  | 0x14 => s.ctlMaster.setWidth 32
  | 0x15 => (BitVec.ofBool s.modeAdd).setWidth 32
  | _ => 0#32

/-- `CFG`: `[0] = ACTIVE`, `[3:1] = SHAPE`, `[4] = MODV`, `[15:8] = MODCOL`, `[23:16] = MODROW` (20 R71). -/
def cfgWord (x : Cell) : ReadWord :=
  0#8 ++ x.modrow ++ x.modcol ++ 0#3 ++ BitVec.ofBool x.modv ++ x.shape ++ BitVec.ofBool x.active

/-- Word `k` of a cell (20 R71). -/
def readCellWord (x : Cell) (k : BitVec 3) : ReadWord :=
  match k.toNat with
  | 0 => cfgWord x
  | 1 => x.freq
  | 2 => x.vol.setWidth 32
  | 3 => x.modidx.setWidth 32
  | 4 => x.phase
  | _ => 0#32

/-- `RegRead(a)`; an address with no content reads 0 (20 R69, R72). -/
def regRead (a : ReadAddr) (s : State) : ReadWord :=
  if addrIsCell a then
    if inGrid s.params (addrRow a) (addrCol a) then readCellWord (s.target (addrRow a) (addrCol a)) (addrWord a)
    else 0#32
  else readGlobal a s

end Sys2Proof.Machine
end

