-- ==== Sys2Proof/Machine/Engine.lean ====
section
/-! DEFINITION. The steps of the agents: applying one command word (spec 45 R220), `EngineApply` and `EngineBuffer` (44 R208, R209),
`HostPush` (20 R62), `HostRead` (20 R69), reset (70 R290), and the turn that takes one of them. -/

namespace Sys2Proof.Machine

/-- Apply a command word: decode it, flag an illegal one, carry out a legal one (45 R220, R221). -/
def applyWord (w : CommandWord) (s : State) : Result :=
  match decode w with
  | .ok i => exec i s
  | .illegal _ => .next (flagError .illegal w s)

/-- Take the head of `CMDQ` and apply it. With an empty queue nothing happens. -/
def applyHead (s : State) : Result :=
  match popCommand s with
  | none => .next s
  | some (w, s') => applyWord w s'

/-- The step `EngineApply`: one command while stopped (44 R208). -/
def engineApply (s : State) : Result := applyHead s

/-- The drain of `EngineBuffer`: apply `k` commands, or fewer when one of them stops the block (44 R209). -/
def drain : Nat → State → Result
  | 0, s => .next s
  | k + 1, s => andThen (applyHead s) (fun s' => if s'.run then drain k s' else .next s')

/-- The step `EngineBuffer`: drain the commands present at the boundary, then compute and emit one buffer unless a `STOP`
was applied (44 R209). -/
def engineBuffer (s : State) : Result :=
  andThen (drain s.cmdq.length s) (fun s' => if s'.run then .next (emitBuffer s') else .next s')

/-- The engine's turn: whichever of its steps is enabled; with neither enabled (stopped, empty queue) it does
nothing (70 R291; log 3). -/
def engineStep (s : State) : Result := if s.run then engineBuffer s else engineApply s

/-- The step `HostPush(w)`, enabled while the queue has room (20 R62). -/
def hostPush (w : CommandWord) (s : State) : State := pushCommand w s

/-- The step `HostRead(a)`: the word read is recorded for the observer, nothing else changes (20 R69). -/
def hostRead (a : ReadAddr) (s : State) : State := { s with reads := s.reads ++ [(a, regRead a s)] }

/-- Reset: every piece of state takes its reset value; the observer's records start anew (70 R290, R292; log 7). -/
def hostReset (s : State) : State := { State.resetWith s.params with schedule := s.schedule }

/-- One turn. The schedule's head moves if its step is enabled; a push into a full queue waits on the port and the engine
moves (20 R63; log 4). With an empty schedule the engine moves (log 2). -/
def takeTurn (s : State) : Result :=
  match s.schedule with
  | [] => engineStep s
  | .hostPush w :: rest => if cmdReady s then .next (hostPush w { s with schedule := rest }) else engineStep s
  | .hostRead a :: rest => .next (hostRead a { s with schedule := rest })
  | .engine :: rest => engineStep { s with schedule := rest }
  | .reset :: rest => .next (hostReset { s with schedule := rest })

/-- The command word of an instruction whose bits are `w`, of which the table gives `nbits`. -/
def tableWord (nbits w : Nat) : CommandWord := BitVec.ofNat 64 (w % 2 ^ nbits)

/-- Put a command word where the next command is taken from, the head of `CMDQ`, and give the engine the next turn
(log 6). -/
def placeCommand (w : CommandWord) (s : State) : State :=
  { s with cmdq := w :: s.cmdq.tail, schedule := .engine :: s.schedule }

end Sys2Proof.Machine
end

