-- ==== Sys2Proof/Machine/Step.lean ====
section
/-! DEFINITION. One step of the block: one turn of one agent (spec 00 R11, 44 R210). -/

namespace Sys2Proof.Machine

/-- One atomic step (00 R11). -/
def step (s : State) : Host.Outcome State Fault Refusal := takeTurn s

/-- The state whose very next step takes and runs the given command: from reset, where the block is stopped, that step is the
`EngineApply` of exactly it (44 R208; log 6). -/
def State.withFetchWord (s : State) (nbits w : Nat) : State := placeCommand (tableWord nbits w) s

end Sys2Proof.Machine
end

