-- ==== Sys2Proof/Machine/Assembler.lean ====
section
/-! DEFINITION. The host's side of a command: the conversions of hertz, volumes and indices to words (spec 00 R6, 30 R111), the
pseudo-commands (30 R112 to R114) and the one-line textual syntax (30 R110). All of it is done outside the block and ends in
command words. The sample rate `R` is an argument throughout (00 R5; log 1). What the rules leave open of the text is the model's
choice (DESIGN CHOICE, log 13), point by point at the definition that settles it. -/

namespace Sys2Proof.Machine

/-! ## Conversions -/

/-- `num / den` rounded to nearest, ties to even (00 R6, 30 R111). -/
def roundHalfEven (num den : Nat) : Nat :=
  let q := num / den
  let r := num % den
  if 2 * r < den then q
  else if den < 2 * r then q + 1
  else if q % 2 = 0 then q
  else q + 1

/-- The tuning word of `num / den` Hz at the sample rate `R = rate`, `round(f · 2^32 / R)` (00 R5, R6). -/
def tuningOfHz (rate num den : Nat) : Nat := roundHalfEven (num * 2 ^ 32) (den * rate)

/-- The volume word of `num / den`, `round(v · 32768)` (30 R111). -/
def volumeOfReal (num den : Nat) : Nat := roundHalfEven (num * 32768) den

/-- The modulation-index word of `num / den`, `round(x · 256)` (30 R111). -/
def indexOfReal (num den : Nat) : Nat := roundHalfEven (num * 256) den

/-! ## Pseudo-commands -/

/-- `NOTEON f` (30 R112). -/
def noteOn (f : TuningWord) : List Instr := [.setFreq f, .activate 0 0, .start]

/-- `NOTEOFF` (30 R113). -/
def noteOff : List Instr := [.deactivate 0 0, .stop]

/-- `VOICE r, f, v, s` (30 R114). -/
def voice (r : Coord) (f : TuningWord) (v : VolumeWord) (s : ShapeCode) : List Instr :=
  [.setFreq f, .setVol v, .setShape s, .activate r 0]

/-- `MODULATOR r, c, f, v, s, x` (30 R114, for `c ≥ 1`). -/
def modulator (r c : Coord) (f : TuningWord) (v : VolumeWord) (s : ShapeCode) (x : IndexWord) : List Instr :=
  [.setFreq f, .setVol v, .setShape s, .setModIdx x, .activate r c]

/-! ## Reading numbers -/

/-- The value of a digit, in bases up to 16. -/
def digitValue (ch : Char) : Option Nat :=
  let n := ch.toNat
  if 48 ≤ n ∧ n ≤ 57 then some (n - 48)
  else if 65 ≤ n ∧ n ≤ 70 then some (n - 55)
  else if 97 ≤ n ∧ n ≤ 102 then some (n - 87)
  else none

/-- Digits of a base, continuing from `acc`. -/
def digitsFrom (base : Nat) : List Char → Nat → Option Nat
  | [], acc => some acc
  | ch :: rest, acc =>
    match digitValue ch with
    | none => none
    | some d => if d < base then digitsFrom base rest (acc * base + d) else none

/-- One or more digits of a base. -/
def digits (base : Nat) : List Char → Option Nat
  | [] => none
  | cs => digitsFrom base cs 0

/-- A number, decimal or `0x` hexadecimal (30 R110). DESIGN CHOICE (log 13): hexadecimal digits are read in either case, the prefix is a
small `x`, leading zeros are allowed, and a number with a blank or anything else inside is none. -/
def readNumber : List Char → Option Nat
  | '0' :: 'x' :: rest => digits 16 rest
  | cs => digits 10 cs

/-- Split at the first occurrence of a character, if there is one. -/
def splitAtChar (ch : Char) : List Char → Option (List Char × List Char)
  | [] => none
  | x :: rest => if x = ch then some ([], rest) else (splitAtChar ch rest).map (fun p => (x :: p.1, p.2))

/-- A decimal fraction with a point, as numerator and denominator (30 R111). DESIGN CHOICE (log 13): digits stand on both sides of
the point. -/
def readFraction (cs : List Char) : Option (Nat × Nat) :=
  match splitAtChar '.' cs with
  | none => none
  | some (whole, part) =>
    match digits 10 whole, digits 10 part with
    | some a, some b => some (a * 10 ^ part.length + b, 10 ^ part.length)
    | _, _ => none

/-- A symbolic operand and its number (30 R111). -/
def readName (names : List (String × Nat)) (cs : List Char) : Option Nat :=
  match names with
  | [] => none
  | (name, n) :: rest => if name.toList = cs then some n else readName rest cs

/-- The shape names (30 R111). -/
def shapeNames : List (String × Nat) :=
  [("SILENCE", 0), ("SINE", 1), ("SQUARE", 2), ("SAWTOOTH", 3), ("TRIANGLE", 4)]

/-- The mode names (30 R111). -/
def modeNames : List (String × Nat) := [("GRID", 0), ("ADDITIVE", 1)]

/-! ## Reading operands -/

/-- A number that fits `n` bits and is at most `bound`. DESIGN CHOICE (log 13): a number above the legal range of 30 R94 is no operand of
the text; its word can still be written with `.word`. -/
def fit (n bound : Nat) (v : Option Nat) : Option (BitVec n) :=
  match v with
  | some k => if k ≤ bound then some (BitVec.ofNat n k) else none
  | none => none

/-- A row, column or other 8-bit number. -/
def readCoord (cs : List Char) : Option Coord := fit 8 255 (readNumber cs)

/-- The text before a final `Hz`. -/
def beforeHz (cs : List Char) : Option (List Char) :=
  match cs.reverse with
  | 'z' :: 'H' :: rest => some rest.reverse
  | _ => none

/-- A tuning word, or a frequency with the suffix `Hz` converted at the sample rate `rate` (00 R6, 30 R111). DESIGN CHOICE (log 13): the
frequency is a decimal integer or fraction, `Hz` stands directly behind it, and one whose word would not fit 32 bits is no operand. -/
def readTuning (rate : Nat) (cs : List Char) : Option TuningWord :=
  match beforeHz cs with
  | none => fit 32 0xFFFFFFFF (readNumber cs)
  | some t =>
    match readFraction t with
    | some (num, den) => fit 32 0xFFFFFFFF (some (tuningOfHz rate num den))
    | none => fit 32 0xFFFFFFFF ((digits 10 t).map (fun n => tuningOfHz rate n 1))

/-- A volume word, or a decimal fraction with a point, `0.0` to `1.0` (30 R111). DESIGN CHOICE (log 13): a fraction above `1.0` is no
operand, however it would round. -/
def readVolume (cs : List Char) : Option VolumeWord :=
  match readFraction cs with
  | some (num, den) => if num ≤ den then fit 16 0x8000 (some (volumeOfReal num den)) else none
  | none => fit 16 0x8000 (readNumber cs)

/-- An index word, or a decimal fraction with a point (30 R111). DESIGN CHOICE (log 13): a fraction whose word would not fit 16 bits is
no operand. -/
def readIndex (cs : List Char) : Option IndexWord :=
  match readFraction cs with
  | some (num, den) => fit 16 0xFFFF (some (indexOfReal num den))
  | none => fit 16 0xFFFF (readNumber cs)

/-- A shape code or shape name (30 R111). -/
def readShape (cs : List Char) : Option ShapeCode :=
  match readName shapeNames cs with
  | some n => fit 3 7 (some n)
  | none => fit 3 7 (readNumber cs)

/-- A mode bit or mode name (30 R111). -/
def readMode (cs : List Char) : Option (BitVec 1) :=
  match readName modeNames cs with
  | some n => fit 1 1 (some n)
  | none => fit 1 1 (readNumber cs)

/-! ## A line -/

/-- The text before a comment (30 R110). -/
def beforeComment (cs : List Char) : List Char :=
  match splitAtChar ';' cs with
  | some (code, _) => code
  | none => cs

/-- A blank: a space or a tab (DESIGN CHOICE, log 13). -/
def isBlank (ch : Char) : Bool := decide (ch = ' ') || decide (ch = '\t')

/-- Leave out the blanks at both ends; a blank inside stays (DESIGN CHOICE, log 13: so an operand with one is no number and no name). -/
def trimBlanks (cs : List Char) : List Char := ((cs.dropWhile isBlank).reverse.dropWhile isBlank).reverse

/-- The pieces between commas, empty ones among them; there is always one piece. -/
def splitAtCommas : List Char → List (List Char)
  | [] => [[]]
  | ch :: rest =>
    if ch = ',' then [] :: splitAtCommas rest
    else
      match splitAtCommas rest with
      | [] => [[ch]]
      | one :: others => (ch :: one) :: others

/-- The operands behind a mnemonic, separated by commas (30 R110): no text, or blanks alone, is no operand. DESIGN CHOICE (log 13):
the blanks around an operand are left out, and nothing before, between or behind commas is an operand of no text, which no command
takes. -/
def splitOperands (cs : List Char) : List (List Char) :=
  if trimBlanks cs = [] then [] else (splitAtCommas cs).map trimBlanks

/-- The mnemonic and the operands of a line, its comment left out (30 R110). DESIGN CHOICE (log 13): blanks may stand before the
mnemonic, and the first blank behind it ends it. -/
def readLine (line : List Char) : List Char × List (List Char) :=
  let code := (beforeComment line).dropWhile isBlank
  (code.takeWhile (fun ch => !isBlank ch), splitOperands (code.dropWhile (fun ch => !isBlank ch)))

/-- The commands of a mnemonic of the opcode map or a pseudo-command with its operands (30 R110, R112 to R114), at the sample
rate `rate`. `MODULATOR` is a command for `c ≥ 1` only (R114). DESIGN CHOICE (log 13): mnemonics are written in capitals. -/
def assembleParts (rate : Nat) (m : String) (ops : List (List Char)) : Option (List Instr) :=
  match m, ops with
  | "NOP", [] => some [.nop]
  | "SETFREQ", [f] => do return [.setFreq (← readTuning rate f)]
  | "SETVOL", [v] => do return [.setVol (← readVolume v)]
  | "SETSHAPE", [s] => do return [.setShape (← readShape s)]
  | "SETMODIDX", [x] => do return [.setModIdx (← readIndex x)]
  | "SETMASTER", [v] => do return [.setMaster (← readVolume v)]
  | "SETMODE", [b] => do return [.setMode (← readMode b)]
  | "ACTIVATE", [r, c] => do return [.activate (← readCoord r) (← readCoord c)]
  | "DEACTIVATE", [r, c] => do return [.deactivate (← readCoord r) (← readCoord c)]
  | "LINK", [r, c, mr, mc] => do
      return [.link (← readCoord r) (← readCoord c) (← readCoord mr) (← readCoord mc)]
  | "UNLINK", [r, c] => do return [.unlink (← readCoord r) (← readCoord c)]
  | "OPFREQ", [r, c, f] => do return [.opFreq (← readCoord r) (← readCoord c) (← readTuning rate f)]
  | "OPVOL", [r, c, v] => do return [.opVol (← readCoord r) (← readCoord c) (← readVolume v)]
  | "OPSHAPE", [r, c, s] => do return [.opShape (← readCoord r) (← readCoord c) (← readShape s)]
  | "OPMODIDX", [r, c, x] => do return [.opModIdx (← readCoord r) (← readCoord c) (← readIndex x)]
  | "START", [] => some [.start]
  | "STOP", [] => some [.stop]
  | "CLRERR", [k] => do return [.clrErr (← fit 3 7 (readNumber k))]
  | "NOTEON", [f] => do return noteOn (← readTuning rate f)
  | "NOTEOFF", [] => some noteOff
  | "VOICE", [r, f, v, s] => do
      return voice (← readCoord r) (← readTuning rate f) (← readVolume v) (← readShape s)
  | "MODULATOR", [r, c, f, v, s, x] => do
      let col ← readCoord c
      if col = 0#8 then none
      else return modulator (← readCoord r) col (← readTuning rate f) (← readVolume v) (← readShape s) (← readIndex x)
  | _, _ => none

/-- The command words of one line of text at the sample rate `rate`; `none` where the line is no command. DESIGN CHOICE (log 13): a line
with no code gives no words, and `.word n` gives the word `n` itself, as the listing of 95 P5 writes it. -/
def assembleLineAt (rate : Nat) (line : String) : Option (List CommandWord) :=
  match readLine line.toList with
  | ([], []) => some []
  | (['.', 'w', 'o', 'r', 'd'], [n]) => (fit 64 (2 ^ 64 - 1) (readNumber n)).map (fun w => [w])
  | (m, ops) => (assembleParts rate (String.ofList m) ops).map (fun is => is.map encode)

/-- The command words of one line of text, hertz converted with `R = 44100` (30 R111). -/
def assembleLine (line : String) : Option (List CommandWord) := assembleLineAt hostSampleRate line

end Sys2Proof.Machine
end

