-- ==== Sys2Proof/Machine/Signal.lean ====
section
/-! DEFINITION. The clear reading of `Eval`, without memo and without state, for claims: what an operator puts out as a function of
the grid as it stands when the evaluation begins (spec 42 R161), and what one emitted buffer does to the accumulators (41
R146). The machine does not run these; that it agrees with them is claimed and proved. -/

namespace Sys2Proof.Machine

/-- The signal of an operator: its samples under its modulator's signal, followed `n` references deep (42 R150, R161). -/
def Grid.signal (p : Params) (g : Grid) : Nat → Loc → List Int
  | 0, _ => silence p
  | n + 1, l =>
    let x := g.get l
    if x.active then
      operatorSamples p x ((x.modulator.map (g.signal p n)).getD (silence p))
    else silence p

/-- An active cell's accumulator advances by one buffer's worth; an inactive cell stays (41 R143, R146). -/
def Cell.advance (p : Params) (x : Cell) : Cell := if x.active then { x with phase := nextPhase p x } else x

/-- Every active cell of the grid advanced once (41 R146). -/
def Grid.advanceAll (p : Params) (g : Grid) : Grid := g.mapCells (Cell.advance p)

/-- The signals of the active voices, in ascending order of row (44 R201). -/
def voiceSignals (s : State) : List (List Int) :=
  (voiceSet s).map (fun r => s.grid.signal s.params s.params.cells (r, 0))

end Sys2Proof.Machine
end

