-- ==== Sys2Proof/Safety.lean ====
section
/-! DEFINITION. What every reachable state of the block satisfies: the six invariants of spec 10 R37 to R42 and the well-formedness
of the model's own representation. -/

namespace Sys2Proof.Machine

/-- INV-ZERO: every inactive cell equals `ZEROCELL` (10 R37). -/
def Grid.InvZero (g : Grid) : Prop := ∀ l, (g.get l).active = false → g.get l = Cell.zero

/-- Every cell that holds anything lies in the grid, `0 ≤ r < ROWS`, `0 ≤ c < COLS` (10 R20, R21). -/
def Grid.InBounds (p : Params) (g : Grid) : Prop :=
  ∀ l, g.get l ≠ Cell.zero → l.1 < p.rows ∧ l.2 < p.cols

/-- INV-RANGE, its clauses about cells (10 R38). -/
def Grid.InvRange (p : Params) (g : Grid) : Prop :=
  ∀ l, (g.get l).vol.toNat ≤ 0x8000 ∧
    ((g.get l).modv = false → (g.get l).modrow = 0 ∧ (g.get l).modcol = 0) ∧
    ((g.get l).modv = true → (g.get l).modrow.toNat < p.rows ∧ (g.get l).modcol.toNat < p.cols)

/-- INV-PREFIX: an active cell is in column 0 or has an active left neighbour (10 R39). -/
def Grid.InvPrefix (g : Grid) : Prop :=
  ∀ r c, (g.get (r, c + 1)).active = true → (g.get (r, c)).active = true

/-- INV-CHAIN: an active cell in a column above 0 is its left neighbour's modulator (10 R40). -/
def Grid.InvChain (g : Grid) : Prop :=
  ∀ r c, (g.get (r, c + 1)).active = true → (g.get (r, c)).modulator = some (r, c + 1)

/-- INV-LIVE: a modulator reference joins two active cells (10 R41). -/
def Grid.InvLive (g : Grid) : Prop :=
  ∀ l l', (g.get l).modulator = some l' → (g.get l).active = true ∧ (g.get l').active = true

/-- Follow `k` modulator references from a place. -/
def Grid.walk (g : Grid) : Nat → Loc → Option Loc
  | 0, l => some l
  | k + 1, l => match (g.get l).modulator with
    | some l' => g.walk k l'
    | none => none

/-- INV-ACYCLIC: following one or more references never comes back to where it started (10 R42). -/
def Grid.InvAcyclic (g : Grid) : Prop := ∀ k l, g.walk (k + 1) l ≠ some l

/-- The invariants of the grid, its canonical form among them. -/
structure Grid.Inv (p : Params) (g : Grid) : Prop where
  wf      : g.wf = true
  bounds  : g.InBounds p
  zero    : g.InvZero
  range   : g.InvRange p
  chainPrefix : g.InvPrefix
  chain   : g.InvChain
  live    : g.InvLive
  acyclic : g.InvAcyclic

/-- The invariants of the block as one predicate on states (10 R43). -/
structure Inv (s : State) : Prop where
  legal     : s.params.Legal
  grid      : s.grid.Inv s.params
  ctlVol    : s.ctlVol.toNat ≤ 0x8000
  ctlMaster : s.ctlMaster.toNat ≤ 0x8000
  queue     : s.cmdq.length ≤ s.params.qdepth

/-- A step is safe when it neither faults nor refuses (00 R14, 60 R279). -/
def StepSafe (s : State) : Prop := ∃ t, step s = .next t

end Sys2Proof.Machine
end

