-- ==== Sys2Proof/Certificates/Slice0/Obligations.lean ====
section
/-! DEFINITION. The statements about the model, one `def Obligations.<Name> : Prop` each, in the order of OBLIGATIONS.json, and the
notions they are written in (namespace `Sys2Proof.Claims`). They are taken from the numbered rules of the spec. -/

namespace Sys2Proof.Claims

open Sys2Proof.Machine

/-! ## Words -/

/-- A row of the opcode map, as spec 30 R94 prints it. -/
structure MapRow where
  opc      : Nat
  mnemonic : String
  format   : Format
  maxImm   : Nat
  deriving DecidableEq, Repr

/-- The opcode map of 30 R94, copied from the rule's table. -/
def opcodeMap : List MapRow :=
  [⟨0x00, "NOP", .Z, 0⟩, ⟨0x01, "SETFREQ", .I, 0xFFFFFFFF⟩, ⟨0x02, "SETVOL", .I, 0x8000⟩, ⟨0x03, "SETSHAPE", .I, 7⟩,
   ⟨0x04, "SETMODIDX", .I, 0xFFFF⟩, ⟨0x05, "SETMASTER", .I, 0x8000⟩, ⟨0x06, "SETMODE", .I, 1⟩,
   ⟨0x10, "ACTIVATE", .C, 0⟩, ⟨0x11, "DEACTIVATE", .C, 0⟩, ⟨0x12, "LINK", .CI, 0xFFFF⟩, ⟨0x13, "UNLINK", .C, 0⟩,
   ⟨0x20, "OPFREQ", .CI, 0xFFFFFFFF⟩, ⟨0x21, "OPVOL", .CI, 0x8000⟩, ⟨0x22, "OPSHAPE", .CI, 7⟩, ⟨0x23, "OPMODIDX", .CI, 0xFFFF⟩,
   ⟨0x30, "START", .Z, 0⟩, ⟨0x31, "STOP", .Z, 0⟩, ⟨0x3F, "CLRERR", .I, 7⟩]

/-- `w[55:48]` as a number. -/
def rowField (w : CommandWord) : Nat := w.toNat / 2 ^ 48 % 256

/-- `w[47:40]` as a number. -/
def colField (w : CommandWord) : Nat := w.toNat / 2 ^ 40 % 256

/-- `w[31:0]` as a number. -/
def immField (w : CommandWord) : Nat := w.toNat % 2 ^ 32

/-- The word has the row's opcode and passes the checks of 30 R97 for it. -/
def RowAllows (row : MapRow) (w : CommandWord) : Prop :=
  w.toNat / 2 ^ 56 = row.opc ∧ w.toNat / 2 ^ 32 % 256 = 0 ∧
    (row.format = .Z ∨ row.format = .I → rowField w = 0 ∧ colField w = 0) ∧ immField w ≤ row.maxImm

/-- The row, column and immediate a command carries, 0 where its format has none (30 R92, R93). -/
def operandFields : Instr → Nat × Nat × Nat
  | .nop => (0, 0, 0)
  | .setFreq imm => (0, 0, imm.toNat)
  | .setVol imm => (0, 0, imm.toNat)
  | .setShape imm => (0, 0, imm.toNat)
  | .setModIdx imm => (0, 0, imm.toNat)
  | .setMaster imm => (0, 0, imm.toNat)
  | .setMode imm => (0, 0, imm.toNat)
  | .activate r c => (r.toNat, c.toNat, 0)
  | .deactivate r c => (r.toNat, c.toNat, 0)
  | .link r c mr mc => (r.toNat, c.toNat, mr.toNat * 256 + mc.toNat)
  | .unlink r c => (r.toNat, c.toNat, 0)
  | .opFreq r c imm => (r.toNat, c.toNat, imm.toNat)
  | .opVol r c imm => (r.toNat, c.toNat, imm.toNat)
  | .opShape r c imm => (r.toNat, c.toNat, imm.toNat)
  | .opModIdx r c imm => (r.toNat, c.toNat, imm.toNat)
  | .start => (0, 0, 0)
  | .stop => (0, 0, 0)
  | .clrErr imm => (0, 0, imm.toNat)

/-! ## Steps -/

/-- The step about to be taken is the engine's, and `s₀` is the state it starts from: an empty schedule, a turn of the engine, or a
push that has to wait for room (log 2, 4). -/
def EngineMoves (s s₀ : State) : Prop :=
  (s.schedule = [] ∧ s₀ = s) ∨
  (∃ rest, s.schedule = .engine :: rest ∧ s₀ = { s with schedule := rest }) ∨
  (∃ w rest, s.schedule = .hostPush w :: rest ∧ s.params.qdepth ≤ s.cmdq.length ∧ s₀ = s)

/-- A flag set and the word captured (60 R262), written out. -/
def flagged : ErrKind → CommandWord → State → State
  | .illegal, w, s => { s with errIllegal := true, errcmd := w }
  | .range, w, s => { s with errRange := true, errcmd := w }
  | .cycle, w, s => { s with errCycle := true, errcmd := w }

/-- A row or column outside the grid (60 R261). -/
def Outside (p : Params) (r c : Coord) : Prop := p.rows ≤ r.toNat ∨ p.cols ≤ c.toNat

/-- A row and a column in the grid. -/
def Within (p : Params) (r c : Coord) : Prop := r.toNat < p.rows ∧ c.toNat < p.cols

/-- The command names a row or column outside the grid (60 R261). -/
def NamesOutside (p : Params) : Instr → Prop
  | .nop => False
  | .setFreq _ => False
  | .setVol _ => False
  | .setShape _ => False
  | .setModIdx _ => False
  | .setMaster _ => False
  | .setMode _ => False
  | .activate r c => Outside p r c
  | .deactivate r c => Outside p r c
  | .link r c mr mc => Outside p r c ∨ Outside p mr mc
  | .unlink r c => Outside p r c
  | .opFreq r c _ => Outside p r c
  | .opVol r c _ => Outside p r c
  | .opShape r c _ => Outside p r c
  | .opModIdx r c _ => Outside p r c
  | .start => False
  | .stop => False
  | .clrErr _ => False

/-- The state with the flags, `ERRCMD` and the record of reads blanked: what is left is all that can reach the sound. -/
def withoutErrors (s : State) : State :=
  { s with errIllegal := false, errRange := false, errCycle := false, errcmd := 0, reads := [] }

/-- Every piece of state zero or empty, field by field (10 R44). -/
def AllZero (s : State) : Prop :=
  (∀ l, s.grid.get l = Cell.zero) ∧ s.ctlFreq = 0 ∧ s.ctlVol = 0 ∧ s.ctlShape = 0 ∧ s.ctlModidx = 0 ∧ s.ctlMaster = 0 ∧
    s.modeAdd = false ∧ s.run = false ∧ s.errIllegal = false ∧ s.errRange = false ∧ s.errCycle = false ∧
    s.errcmd = 0 ∧ s.bufcnt = 0 ∧ s.cmdq = [] ∧ s.out = []

/-- The cell reads as active. -/
def ActiveAt (s : State) (r c : Nat) : Prop := (s.grid.get (r, c)).active = true

/-- The cell has an active right neighbour in the grid: it is not the tail of its row (43 R175). -/
def RightActive (s : State) (r c : Coord) : Prop := c.toNat + 1 < s.params.cols ∧ ActiveAt s r.toNat (c.toNat + 1)

/-- The cell is one that `DEACTIVATE r, c` removes: active, in row `r`, in a column from `c` to the last (43 R173). -/
def Removed (s : State) (r c : Nat) (l : Loc) : Prop :=
  l.1 = r ∧ c ≤ l.2 ∧ l.2 < s.params.cols ∧ (s.grid.get l).active = true

/-! ## The buffer -/

/-- A cell's accumulator after `N` samples, by exact arithmetic (41 R143). -/
def advanced (N : Nat) (x : Cell) : Cell := { x with phase := BitVec.ofNat 32 (x.phase.toNat + N * x.freq.toNat) }

/-- Sample `i` of an operator, followed `n` references deep, by exact integer arithmetic with one reduction modulo `2^32` (42 R150 to
R156): a function of the grid alone. -/
def sampleAt (g : Grid) : Nat → Loc → Nat → Int
  | 0, _, _ => 0
  | n + 1, l, i =>
    let x := g.get l
    let m : Int := (x.modulator.map (fun l' => sampleAt g n l' i)).getD 0
    let theta := BitVec.ofInt 32 (x.phase.toNat + i * x.freq.toNat + x.modidx.toNat * m * 512)
    (x.vol.toNat * wave x.shape theta) / 32768

/-- The rows that sound: those whose root is active (44 R201). -/
def soundingRows (s : State) : List Nat := (List.range s.params.rows).filter (fun r => (s.grid.get (r, 0)).active)

/-- Mixed sample `i` (44 R201 to R205). -/
def mixedAt (s : State) (i : Nat) : Int :=
  let rows := soundingRows s
  let gain : Int := if s.modeAdd then 32768 else s.ctlMaster.toNat
  if rows.length = 0 then 0
  else ((rows.map (fun r => sampleAt s.grid s.params.cells (r, 0) i)).sum * gain) / (rows.length * 32768)

/-- The emitted buffer (44 R207). -/
def expectedBuffer (s : State) : List OutWord :=
  (List.range s.params.bufLen).flatMap (fun i => List.replicate s.params.channels.count (f32 (mixedAt s i)))

/-- `k` steps lead from `s` to `t`, each of them to a next state. -/
def StepsTo : Nat → State → State → Prop
  | 0, s, t => t = s
  | k + 1, s, t => ∃ u, step s = .next u ∧ StepsTo k u t

/-- Row `r` and row `r'` exchanged. -/
def swapRow (a b r : Nat) : Nat := if r = a then b else if r = b then a else r

/-- Grid `h` is grid `g` with rows `a` and `b` exchanged, references included (44 R211). -/
def RowsExchanged (a b : Nat) (g h : Grid) : Prop :=
  ∀ r c, ∃ mr : Coord,
    h.get (swapRow a b r, c) = { g.get (r, c) with modrow := mr } ∧
    ((g.get (r, c)).modv = true → mr.toNat = swapRow a b (g.get (r, c)).modrow.toNat) ∧
    ((g.get (r, c)).modv = false → mr = (g.get (r, c)).modrow)

/-- The number a binary32 word with sign `sign`, exponent field `e` and fraction `f` stands for is
`(-1)^sign · (2^23 + f) · 2^(e - 150)`; this says that it is `x / 32768`, cleared of denominators. -/
def Binary32Is (w : OutWord) (x : Int) : Prop :=
  (w.toNat / 2 ^ 31 = 1 ↔ x < 0) ∧ 112 ≤ w.toNat / 2 ^ 23 % 256 ∧ w.toNat / 2 ^ 23 % 256 ≤ 127 ∧
    (2 ^ 23 + w.toNat % 2 ^ 23) * 2 ^ (w.toNat / 2 ^ 23 % 256) = x.natAbs * 2 ^ 135

end Sys2Proof.Claims

open Sys2Proof Sys2Proof.Machine Sys2Proof.Claims

/-! ## Encoding -/

/-- Every legal command survives encoding and decoding, and a word that decodes is the encoding of exactly the command it decodes to
(30 R90 to R94, R99): commands and legal words determine each other. -/
def Obligations.DecodeAndEncodeAgree : Prop :=
  (∀ i : Instr, i.wellFormed = true → decode (encode i) = .ok i) ∧
  ∀ (w : CommandWord) (i : Instr), decode w = .ok i → i.wellFormed = true ∧ encode i = w

/-- 30 R97, the whole rule: which words are illegal, by the table of R94; what applying one does; that `NOP` is a single word; that a
coordinate never makes a word illegal (the condition does not look at the parameters). -/
def Obligations.IllegalWordsAreThoseOfTheMap : Prop :=
  ∀ w : CommandWord,
    ((∃ why, decode w = .illegal why) ↔ ∀ row ∈ opcodeMap, ¬RowAllows row w) ∧
    ((∀ row ∈ opcodeMap, ¬RowAllows row w) → ∀ s q, s.cmdq = w :: q →
      applyHead s = .next { s with cmdq := q, errIllegal := true, errcmd := w }) ∧
    (decode w = .ok .nop ↔ w = 0#64)

/-- The mnemonic, the format and the operands of a decoded word are those of its row of the map and of its fields; an immediate is judged
as the whole 32-bit field (30 R91, R93). -/
def Obligations.DecodedOperandsAreTheFields : Prop :=
  (∀ (w : CommandWord) (i : Instr), decode w = .ok i →
    (∃ row ∈ opcodeMap, RowAllows row w ∧ i.mnemonic = row.mnemonic ∧ i.format = row.format) ∧
    operandFields i = (if i.format = .C ∨ i.format = .CI then rowField w else 0,
      if i.format = .C ∨ i.format = .CI then colField w else 0, immField w) ∧
    (∀ r c mr mc, i = .link r c mr mc → mr.toNat = w.toNat / 2 ^ 8 % 256 ∧ mc.toNat = w.toNat % 256 ∧ w.toNat / 2 ^ 16 % 2 ^ 16 = 0)) ∧
  decode 0x0200000000018000#64 = .illegal .immediateRange

/-- Words written out in the spec decode to the commands they stand for (30 R110, 43 R181, 45 R221). -/
def Obligations.SampleWordsDecode : Prop :=
  decode 0x3000000000000000#64 = .ok .start ∧
  decode 0x01000000028DDFB9#64 = .ok (.setFreq 0x028DDFB9#32) ∧
  decode 0x1000010000000000#64 = .ok (.activate 0#8 1#8) ∧
  decode 0x2100010000004000#64 = .ok (.opVol 0#8 1#8 0x4000#16) ∧
  decode 0x1201000000000001#64 = .ok (.link 1#8 0#8 0#8 1#8) ∧
  decode 0x0200000000008001#64 = .illegal .immediateRange ∧
  decode 0x1009000100000000#64 = .illegal .reservedNonzero ∧
  decode 0x0300010000000001#64 = .illegal .cellFieldNonzero ∧
  decode 0x0700000000000000#64 = .illegal .undefinedOpcode

/-- The host's conversion of `num / den` Hz at the sample rate `R` rounds `f · 2^32 / R` to nearest, ties to even (00 R5, R6); the rule's
values at `R = 44100`. -/
def Obligations.HertzConversionRoundsToNearestEven : Prop :=
  (∀ rate num den : Nat, 0 < rate → 0 < den →
    2 * (tuningOfHz rate num den * (den * rate)) ≤ 2 * (num * 2 ^ 32) + den * rate ∧
    2 * (num * 2 ^ 32) ≤ 2 * (tuningOfHz rate num den * (den * rate)) + den * rate ∧
    (2 * (tuningOfHz rate num den * (den * rate)) = 2 * (num * 2 ^ 32) + den * rate ∨
      2 * (num * 2 ^ 32) = 2 * (tuningOfHz rate num den * (den * rate)) + den * rate → tuningOfHz rate num den % 2 = 0)) ∧
  tuningOfHz 44100 440 1 = 0x028DDFB9 ∧ tuningOfHz 44100 880 1 = 0x051BBF73 ∧ tuningOfHz 44100 5 1 = 0x00076E2E ∧
  tuningOfHz 44100 660 1 = 0x03D4CF96 ∧ tuningOfHz 44100 500 1 = 0x02E709DE ∧ tuningOfHz 44100 1 10 = 0x0000260B

/-! ## Steps -/

/-- `EngineApply` (44 R208): while stopped the engine's step is the meaning of the head command on the state without that head; a word
that is no command is flagged; an empty queue leaves the engine idle (log 3). -/
def Obligations.StoppedEngineRunsTheHeadCommand : Prop :=
  ∀ s s₀ : State, EngineMoves s s₀ → s.run = false →
    (s.cmdq = [] → step s = .next s₀) ∧
    (∀ w q i, s.cmdq = w :: q → decode w = .ok i → step s = exec i { s₀ with cmdq := q }) ∧
    (∀ w q why, s.cmdq = w :: q → decode w = .illegal why →
      step s = .next { s₀ with cmdq := q, errIllegal := true, errcmd := w })

/-- `EngineBuffer` (44 R209), one command at a time: with an empty queue the step emits; with a head command it applies the command and
ends if that stopped the block, and otherwise goes on as the same step would from the state the command left. -/
def Obligations.RunningEngineAppliesThenEmits : Prop :=
  ∀ s s₀ : State, EngineMoves s s₀ → s.run = true →
    (s.cmdq = [] → step s = .next (emitBuffer s₀)) ∧
    (∀ w q, s.cmdq = w :: q → ∃ t,
      applyWord w { s₀ with cmdq := q } = .next t ∧ t.cmdq = q ∧
      (t.run = false → step s = .next t) ∧ (t.run = true → step s = engineStep t))

/-- The command placed by the interface is the very next one to run (log 6). -/
def Obligations.PlacedCommandRunsNext : Prop :=
  ∀ (s : State) (i : Instr), s.run = false → i.wellFormed = true →
    step (s.withFetchWord 64 (encode i).toNat) = exec i { s with cmdq := s.cmdq.tail }

/-- Nothing in the block traps or hangs: every step and every command has a next state (00 R14, 45 R220, 60 R279). -/
def Obligations.EveryStepHasANextState : Prop :=
  (∀ s : State, ∃ t, step s = .next t) ∧ ∀ (i : Instr) (s : State), ∃ t, exec i s = .next t

/-- `HostPush(w)`: with room in the queue the word goes to the tail, unchecked, and nothing else of the block changes (20 R62); a push
into a full queue waits: the word stays at the head of the schedule and the engine's step makes room (20 R63; log 4). -/
def Obligations.PushesAppendOrWait : Prop :=
  ∀ (s : State) (w : CommandWord) (rest : List Turn), s.schedule = .hostPush w :: rest →
    (s.cmdq.length < s.params.qdepth → step s = .next { s with schedule := rest, cmdq := s.cmdq ++ [w] }) ∧
    ∀ t : State, s.params.Legal → s.cmdq.length = s.params.qdepth → step s = .next t →
      cmdReady s = false ∧ t.schedule = s.schedule ∧ t.cmdq.length < s.params.qdepth ∧ cmdReady t = true

/-- A reset turn puts every piece of state to its reset value and keeps the parameters and the environment's schedule (70 R290, log 7);
after it the read space is the four constants and zero elsewhere, the queue has room, `err` is 0, and the engine does nothing until a
command arrives (70 R291; log 3). -/
def Obligations.ResetTurnRestoresTheResetState : Prop :=
  ∀ (s : State) (rest : List Turn), s.params.Legal → s.schedule = .reset :: rest →
    ∃ t, step s = .next t ∧ AllZero t ∧ t.params = s.params ∧ t.schedule = rest ∧ t.reads = [] ∧
      (∀ a : ReadAddr, 4 ≤ a.toNat → regRead a t = 0#32) ∧ (∀ a : ReadAddr, a.toNat < 4 → regRead a t = regRead a s) ∧
      cmdReady t = true ∧ errLine t = false ∧ engineStep t = .next t

/-- 10 R44: the reset state is all zero, at any parameters; and its consequence: a cell activated in it is silent, and a mix with
`CTL_MASTER = 0` in grid mode is all zeros. -/
def Obligations.ResetLeavesEverythingZero : Prop :=
  AllZero State.reset ∧ (∀ p, AllZero (State.resetWith p)) ∧
  (∀ r : Coord, r.toNat < 8 → ∃ t, exec (.activate r 0#8) State.reset = .next t ∧
    (t.grid.get (r.toNat, 0)).active = true ∧ (t.grid.get (r.toNat, 0)).shape = 0 ∧ (t.grid.get (r.toNat, 0)).vol = 0) ∧
  ∀ (s : State) (ws : List (List Int)), s.modeAdd = false → s.ctlMaster = 0 →
    mixBuffer s ws = List.replicate s.params.bufLen 0

/-! ## Errors -/

/-- 60 R261: a command that names a row or column outside the grid sets `ERR_RANGE` and captures its word and nothing else; on the
largest grid none does; the flag is `STATUS[5]` and bit 1 of the `CLRERR` mask. -/
def Obligations.CoordinatesOutsideTheGridAreFlagged : Prop :=
  (∀ (i : Instr) (s : State), i.wellFormed = true → NamesOutside s.params i →
    exec i s = .next { s with errRange := true, errcmd := encode i }) ∧
  (∀ (i : Instr) (p : Params), p.rows = 256 → p.cols = 256 → ¬NamesOutside p i) ∧
  (∀ s : State, (regRead 0x00004#20 s).getLsbD 5 = s.errRange) ∧
  ∀ (m : BitVec 3) (s : State), ∃ t, exec (.clrErr m) s = .next t ∧ t.errRange = (s.errRange && !m.getLsbD 1)

/-- 60 R262, R264: a command that sets a flag which was clear has done exactly that and captured its word: every other field is as it
was, no second flag is set; a word whose application changes `ERRCMD` has done no more than that either. -/
def Obligations.AFlaggedCommandDoesNothingElse : Prop :=
  ∀ (w : CommandWord) (s t : State), applyWord w s = .next t →
    (∀ e, s.flag e = false → t.flag e = true → t = flagged e w s) ∧
    (t.errcmd ≠ s.errcmd → ∃ e, t = flagged e w s)

/-- 60 R269: the flags gate nothing. Two states that differ only in the flags, `ERRCMD` and what was read step to two states that
differ only in these. -/
def Obligations.FlagsGateNothing : Prop :=
  ∀ s s' t t' : State, withoutErrors s = withoutErrors s' → step s = .next t → step s' = .next t' →
    withoutErrors t = withoutErrors t'

/-! ## Control registers, run control -/

/-- 45 R222, the whole rule: `NOP` changes nothing, its only word is 0, and it is consumed like any command. -/
def Obligations.NopDoesNothing : Prop :=
  (∀ s : State, exec .nop s = .next s) ∧ (∀ w : CommandWord, decode w = .ok .nop ↔ w = 0#64) ∧
  ∀ (s : State) (q : List CommandWord), s.cmdq = 0#64 :: q → applyHead s = .next { s with cmdq := q }

/-- 45 R223 to R229, R238, R239 (the commands themselves): each `SET*` command writes its control register, `START` and `STOP` write
`RUN`, and nothing else. A volume operand above `0x8000` that reaches a meaning is flagged, as its word would be (the model's choice,
log 9: no word decodes to one). -/
def Obligations.RegisterCommandsWriteTheirRegister : Prop :=
  ∀ s : State,
    (∀ imm, exec (.setFreq imm) s = .next { s with ctlFreq := imm }) ∧
    (∀ imm : VolumeWord, imm.toNat ≤ 0x8000 → exec (.setVol imm) s = .next { s with ctlVol := imm }) ∧
    (∀ imm, exec (.setShape imm) s = .next { s with ctlShape := imm }) ∧
    (∀ imm, exec (.setModIdx imm) s = .next { s with ctlModidx := imm }) ∧
    (∀ imm : VolumeWord, imm.toNat ≤ 0x8000 → exec (.setMaster imm) s = .next { s with ctlMaster := imm }) ∧
    exec (.setMode 0#1) s = .next { s with modeAdd := false } ∧ exec (.setMode 1#1) s = .next { s with modeAdd := true } ∧
    exec .start s = .next { s with run := true } ∧ exec .stop s = .next { s with run := false } ∧
    ∀ (v : VolumeWord) (r c : Coord), 0x8000 < v.toNat →
      exec (.setVol v) s = .next { s with errIllegal := true, errcmd := encode (.setVol v) } ∧
      exec (.setMaster v) s = .next { s with errIllegal := true, errcmd := encode (.setMaster v) } ∧
      exec (.opVol r c v) s = .next { s with errIllegal := true, errcmd := encode (.opVol r c v) }

/-- 45 R240: `CLRERR` clears exactly the flags whose mask bit is 1, keeps `ERRCMD` and everything else; no other command clears a flag,
and a step that clears one is a reset or had a `CLRERR` in the queue. -/
def Obligations.OnlyClrErrClearsFlags : Prop :=
  (∀ (m : BitVec 3) (s : State), exec (.clrErr m) s = .next { s with
      errIllegal := if m.toNat % 2 = 1 then false else s.errIllegal,
      errRange := if m.toNat / 2 % 2 = 1 then false else s.errRange,
      errCycle := if m.toNat / 4 = 1 then false else s.errCycle }) ∧
  (∀ s : State, exec (.clrErr 0#3) s = .next s) ∧
  (∀ (i : Instr) (s t : State) (e : ErrKind), exec i s = .next t → s.flag e = true → t.flag e = false → ∃ m, i = .clrErr m) ∧
  ∀ (s t : State) (e : ErrKind), step s = .next t → s.flag e = true → t.flag e = false →
    (∃ rest, s.schedule = .reset :: rest) ∨ ∃ w ∈ s.cmdq, ∃ m, decode w = .ok (.clrErr m)

/-- 10 R29, R30: each control register has one writing command, and `RUN` only `START` and `STOP`; no command writes the queue, the
buffer counter or the output (45 R242). -/
def Obligations.EachRegisterHasItsWriters : Prop :=
  ∀ (i : Instr) (s t : State), exec i s = .next t →
    (t.ctlFreq ≠ s.ctlFreq → ∃ x, i = .setFreq x) ∧ (t.ctlVol ≠ s.ctlVol → ∃ x, i = .setVol x) ∧
    (t.ctlShape ≠ s.ctlShape → ∃ x, i = .setShape x) ∧ (t.ctlModidx ≠ s.ctlModidx → ∃ x, i = .setModIdx x) ∧
    (t.ctlMaster ≠ s.ctlMaster → ∃ x, i = .setMaster x) ∧ (t.modeAdd ≠ s.modeAdd → ∃ x, i = .setMode x) ∧
    (t.run ≠ s.run → i = .start ∨ i = .stop) ∧
    t.cmdq = s.cmdq ∧ t.out = s.out ∧ t.bufcnt = s.bufcnt ∧ t.params = s.params ∧ t.schedule = s.schedule ∧ t.reads = s.reads

/-- 20 R85 and 44 R209: a running engine step that ends stopped has emitted nothing, advanced nothing it did not hand over: it applied the
commands up to the first `STOP`, and those behind it stay queued; one that ends running found no `STOP`, emptied the queue and
emitted one buffer. -/
def Obligations.StopInTheDrainEndsTheStep : Prop :=
  ∀ s s₀ t : State, EngineMoves s s₀ → s.run = true → step s = .next t →
    (t.run = false → t.out = s.out ∧ t.bufcnt = s.bufcnt ∧
      ∃ before stop, s.cmdq = before ++ stop :: t.cmdq ∧ decode stop = .ok .stop ∧ ∀ w ∈ before, decode w ≠ .ok .stop) ∧
    (t.run = true → t.cmdq = [] ∧ t.bufcnt = s.bufcnt + 1 ∧ (∃ b, t.out = s.out ++ [b]) ∧ ∀ w ∈ s.cmdq, decode w ≠ .ok .stop)

/-! ## Live parameters -/

/-- 45 R231, R234 (with R232, R233, R235): in the grid, an `OP*` command writes one field of its cell if the cell is active, and changes
nothing at all if it is not. -/
def Obligations.LiveCommandsWriteOneField : Prop :=
  ∀ (s : State) (r c : Coord), Within s.params r c →
    (ActiveAt s r.toNat c.toNat →
      (∀ imm, ∃ t, exec (.opFreq r c imm) s = .next t ∧ t = { s with grid := t.grid } ∧
        ∀ l, t.grid.get l = if l = (r.toNat, c.toNat) then { s.grid.get l with freq := imm } else s.grid.get l) ∧
      (∀ imm : VolumeWord, imm.toNat ≤ 0x8000 → ∃ t, exec (.opVol r c imm) s = .next t ∧ t = { s with grid := t.grid } ∧
        ∀ l, t.grid.get l = if l = (r.toNat, c.toNat) then { s.grid.get l with vol := imm } else s.grid.get l) ∧
      (∀ imm, ∃ t, exec (.opShape r c imm) s = .next t ∧ t = { s with grid := t.grid } ∧
        ∀ l, t.grid.get l = if l = (r.toNat, c.toNat) then { s.grid.get l with shape := imm } else s.grid.get l) ∧
      (∀ imm, ∃ t, exec (.opModIdx r c imm) s = .next t ∧ t = { s with grid := t.grid } ∧
        ∀ l, t.grid.get l = if l = (r.toNat, c.toNat) then { s.grid.get l with modidx := imm } else s.grid.get l)) ∧
    (¬ActiveAt s r.toNat c.toNat →
      (∀ imm, exec (.opFreq r c imm) s = .next s) ∧
      (∀ imm : VolumeWord, imm.toNat ≤ 0x8000 → exec (.opVol r c imm) s = .next s) ∧
      (∀ imm, exec (.opShape r c imm) s = .next s) ∧ (∀ imm, exec (.opModIdx r c imm) s = .next s))

/-! ## The grid -/

/-- 43 R170, place by place: the contiguity check, the snapshot, the fresh cell's empty modulation, the predecessor's reference and
index, and that no other cell and no other state changes. -/
def Obligations.ActivateBuildsTheOperator : Prop :=
  ∀ (s : State) (r c : Coord), Within s.params r c →
    (c ≠ 0#8 → ¬ActiveAt s r.toNat (c.toNat - 1) → exec (.activate r c) s = .next s) ∧
    (c = 0#8 ∨ ActiveAt s r.toNat (c.toNat - 1) → ∃ t, exec (.activate r c) s = .next t ∧ t = { s with grid := t.grid } ∧
      (let old := s.grid.get (r.toNat, c.toNat)
       let new := t.grid.get (r.toNat, c.toNat)
       new.active = true ∧ new.phase = 0 ∧ new.shape = s.ctlShape ∧
       (s.modeAdd = true ∧ c = 0#8 → new.freq.toNat = s.ctlFreq.toNat * 2 ^ r.toNat % 2 ^ 32 ∧
         new.vol.toNat = s.ctlMaster.toNat / 2 ^ r.toNat) ∧
       (¬(s.modeAdd = true ∧ c = 0#8) → new.freq = s.ctlFreq ∧ new.vol = s.ctlVol) ∧
       (old.active = false → new.modidx = 0 ∧ new.modv = false ∧ new.modrow = 0 ∧ new.modcol = 0) ∧
       (old.active = true → new.modidx = old.modidx ∧ new.modv = old.modv ∧ new.modrow = old.modrow ∧ new.modcol = old.modcol)) ∧
      (c ≠ 0#8 → t.grid.get (r.toNat, c.toNat - 1) =
        { s.grid.get (r.toNat, c.toNat - 1) with modv := true, modrow := r, modcol := c, modidx := s.ctlModidx }) ∧
      ∀ l, l ≠ (r.toNat, c.toNat) → ¬(c ≠ 0#8 ∧ l = (r.toNat, c.toNat - 1)) → t.grid.get l = s.grid.get l)

/-- 43 R172: in additive mode a root takes the harmonic of its row; from row 32 on the tuning word is 0 and from row 16 on the volume;
the worked values; a later `SETFREQ`, `SETMASTER` or `SETMODE` changes no harmonic; and in columns above 0 the mode makes no
difference. -/
def Obligations.AdditiveRootsAreHarmonics : Prop :=
  (∀ (s t : State) (r : Coord), s.modeAdd = true → r.toNat < s.params.rows → 0 < s.params.cols →
    exec (.activate r 0#8) s = .next t →
    (t.grid.get (r.toNat, 0)).freq.toNat = s.ctlFreq.toNat * 2 ^ r.toNat % 2 ^ 32 ∧
    (t.grid.get (r.toNat, 0)).vol.toNat = s.ctlMaster.toNat / 2 ^ r.toNat ∧
    (32 ≤ r.toNat → (t.grid.get (r.toNat, 0)).freq = 0) ∧ (16 ≤ r.toNat → (t.grid.get (r.toNat, 0)).vol = 0) ∧
    (s.ctlFreq = 0x08000000#32 → s.ctlMaster = 0x8000#16 →
      (r = 0#8 → (t.grid.get (0, 0)).freq = 0x08000000#32 ∧ (t.grid.get (0, 0)).vol = 0x8000#16) ∧
      (r = 1#8 → (t.grid.get (1, 0)).freq = 0x10000000#32 ∧ (t.grid.get (1, 0)).vol = 0x4000#16) ∧
      (r = 2#8 → (t.grid.get (2, 0)).freq = 0x20000000#32 ∧ (t.grid.get (2, 0)).vol = 0x2000#16) ∧
      (r = 5#8 → (t.grid.get (5, 0)).freq = 0x00000000#32 ∧ (t.grid.get (5, 0)).vol = 0x0400#16))) ∧
  (∀ (i : Instr) (s t : State), ((∃ x, i = .setFreq x) ∨ (∃ x, i = .setMaster x) ∨ ∃ x, i = .setMode x) → exec i s = .next t →
    t.grid = s.grid) ∧
  ∀ (s t t' : State) (r c : Coord), c ≠ 0#8 →
    exec (.activate r c) { s with modeAdd := true } = .next t → exec (.activate r c) { s with modeAdd := false } = .next t' →
    t.grid = t'.grid

/-- 43 R171: re-activating an active cell re-snapshots frequency, volume and shape, restarts its phase, keeps its own modulation fields,
and touches of the rest of the grid only the predecessor's index. -/
def Obligations.ReactivationKeepsTheChain : Prop :=
  ∀ (s t : State) (r c : Coord), Inv s → ActiveAt s r.toNat c.toNat → exec (.activate r c) s = .next t →
    (∃ f v, t.grid.get (r.toNat, c.toNat) =
      { s.grid.get (r.toNat, c.toNat) with freq := f, vol := v, shape := s.ctlShape, phase := 0 } ∧
      (s.modeAdd = false ∨ c ≠ 0#8 → f = s.ctlFreq ∧ v = s.ctlVol)) ∧
    (c ≠ 0#8 → t.grid.get (r.toNat, c.toNat - 1) = { s.grid.get (r.toNat, c.toNat - 1) with modidx := s.ctlModidx }) ∧
    ∀ l, l ≠ (r.toNat, c.toNat) → ¬(c ≠ 0#8 ∧ l = (r.toNat, c.toNat - 1)) → t.grid.get l = s.grid.get l

/-- 43 R173, R174, place by place: an active cell and the active cells to its right become `ZEROCELL`, every reference to one of them is
cleared and its index kept, every other cell and all other state stay; an inactive cell makes it a no-op. -/
def Obligations.DeactivateRemovesTheRestOfTheRow : Prop :=
  ∀ (s : State) (r c : Coord), Within s.params r c →
    (¬ActiveAt s r.toNat c.toNat → exec (.deactivate r c) s = .next s) ∧
    (ActiveAt s r.toNat c.toNat → ∃ t, exec (.deactivate r c) s = .next t ∧ t = { s with grid := t.grid } ∧
      ∀ l, (Removed s r.toNat c.toNat l → t.grid.get l = Cell.zero) ∧
        (¬Removed s r.toNat c.toNat l →
          ((∃ m, (s.grid.get l).modulator = some m ∧ Removed s r.toNat c.toNat m) →
            t.grid.get l = { s.grid.get l with modv := false, modrow := 0, modcol := 0 }) ∧
          ((∀ m, (s.grid.get l).modulator = some m → ¬Removed s r.toNat c.toNat m) → t.grid.get l = s.grid.get l)))

/-- 43 R175 with the cycle condition said through the graph: `LINK` of two active cells whose carrier is a tail is refused with
`ERR_CYCLE` exactly when following modulator references from the modulator arrives at the carrier. -/
def Obligations.LinkSetsTheModulatorOfATail : Prop :=
  ∀ (s : State) (r c mr mc : Coord), Inv s → Within s.params r c → Within s.params mr mc →
    (¬ActiveAt s r.toNat c.toNat ∨ ¬ActiveAt s mr.toNat mc.toNat ∨ RightActive s r c → exec (.link r c mr mc) s = .next s) ∧
    (ActiveAt s r.toNat c.toNat → ActiveAt s mr.toNat mc.toNat → ¬RightActive s r c →
      ((∃ k, s.grid.walk k (mr.toNat, mc.toNat) = some (r.toNat, c.toNat)) →
        exec (.link r c mr mc) s = .next { s with errCycle := true, errcmd := encode (.link r c mr mc) }) ∧
      ((∀ k, s.grid.walk k (mr.toNat, mc.toNat) ≠ some (r.toNat, c.toNat)) →
        ∃ t, exec (.link r c mr mc) s = .next t ∧ t = { s with grid := t.grid } ∧
          ∀ l, t.grid.get l = if l = (r.toNat, c.toNat) then
            { s.grid.get l with modv := true, modrow := mr, modcol := mc, modidx := s.ctlModidx } else s.grid.get l))

/-- 43 R177: the cycle check is exact. Adding the edge closes a cycle if and only if `Reaches` is true. -/
def Obligations.CycleCheckIsExact : Prop :=
  ∀ (s : State) (r c mr mc : Coord) (idx : IndexWord), Inv s → Within s.params r c →
    ((s.grid.modify (place r c) (Cell.setRef mr mc idx)).InvAcyclic ↔
      reaches s.grid (place r c) s.params.cells (place mr mc) = false)

/-- 43 R176: `UNLINK` clears the reference of an active tail and keeps its index; of any other cell, and of a tail that has no modulator,
it is a no-op. -/
def Obligations.UnlinkClearsTheReference : Prop :=
  ∀ (s : State) (r c : Coord), Within s.params r c →
    (¬ActiveAt s r.toNat c.toNat ∨ RightActive s r c → exec (.unlink r c) s = .next s) ∧
    (ActiveAt s r.toNat c.toNat → ¬RightActive s r c → ∃ t, exec (.unlink r c) s = .next t ∧ t = { s with grid := t.grid } ∧
      ∀ l, t.grid.get l = if l = (r.toNat, c.toNat) then { s.grid.get l with modv := false, modrow := 0, modcol := 0 }
        else s.grid.get l) ∧
    (Inv s → (s.grid.get (r.toNat, c.toNat)).modv = false → exec (.unlink r c) s = .next s)

/-- 60 R265: the commands that fail silently, and those that change nothing, leave the whole state as it is. -/
def Obligations.SilentFailuresChangeNothing : Prop :=
  ∀ (s : State) (r c mr mc : Coord), Inv s → Within s.params r c → Within s.params mr mc →
    (c ≠ 0#8 → ¬ActiveAt s r.toNat (c.toNat - 1) → exec (.activate r c) s = .next s) ∧
    (¬ActiveAt s r.toNat c.toNat → exec (.deactivate r c) s = .next s ∧ exec (.link r c mr mc) s = .next s ∧
      exec (.unlink r c) s = .next s ∧ (∀ x, exec (.opFreq r c x) s = .next s) ∧
      (∀ x : VolumeWord, x.toNat ≤ 0x8000 → exec (.opVol r c x) s = .next s) ∧
      (∀ x, exec (.opShape r c x) s = .next s) ∧ ∀ x, exec (.opModIdx r c x) s = .next s) ∧
    (¬ActiveAt s mr.toNat mc.toNat → exec (.link r c mr mc) s = .next s) ∧
    (RightActive s r c → exec (.link r c mr mc) s = .next s ∧ exec (.unlink r c) s = .next s) ∧
    ((s.grid.get (r.toNat, c.toNat)).modv = false → exec (.unlink r c) s = .next s) ∧
    (s.run = true → exec .start s = .next s) ∧ (s.run = false → exec .stop s = .next s) ∧ exec (.clrErr 0#3) s = .next s

/-- 43 R179, 41 R147: of all commands only `ACTIVATE` and `DEACTIVATE` change any cell's activity or phase. -/
def Obligations.OnlyActivationChangesActivityOrPhase : Prop :=
  ∀ (i : Instr) (s t : State), exec i s = .next t → (∀ r c, i ≠ .activate r c) → (∀ r c, i ≠ .deactivate r c) →
    ∀ l, (t.grid.get l).active = (s.grid.get l).active ∧ (t.grid.get l).phase = (s.grid.get l).phase

/-! ## Invariants -/

/-- The reset state has the invariants, at any legal parameters and at the default ones. -/
def Obligations.ResetHasTheInvariants : Prop :=
  Inv State.reset ∧ ∀ p : Params, p.Legal → Inv (State.resetWith p)

/-- 10 R43, the commands: every command keeps the invariants. -/
def Obligations.CommandsKeepTheInvariants : Prop :=
  ∀ (i : Instr) (s t : State), Inv s → exec i s = .next t → Inv t

/-- 10 R43: every step of every agent keeps the invariants. -/
def Obligations.StepKeepsTheInvariants : Prop :=
  ∀ s t : State, Inv s → step s = .next t → Inv t

/-- 00 R12: the parameters are no state of the block: no step changes them; and 10 R33, R36: apart from a reset, `OUT` only grows, and
`BUFCNT` counts its buffers. -/
def Obligations.BufcntCountsTheBuffers : Prop :=
  ∀ s t : State, step s = .next t →
    t.params = s.params ∧
    ((∀ rest, s.schedule ≠ .reset :: rest) →
      (t.out = s.out ∧ t.bufcnt = s.bufcnt) ∨ (s.run = true ∧ t.run = true ∧ ∃ b, t.out = s.out ++ [b] ∧ t.bufcnt = s.bufcnt + 1))

/-! ## Waveforms -/

/-- 40 R124, the exact part: the full-wave table by quadrant, its named values, and its two symmetries. -/
def Obligations.FullWaveTableIsSymmetric : Prop :=
  (∀ j, j < 256 → fullSine j = qsin j ∧ fullSine (256 + j) = qsin (256 - j) ∧ fullSine (512 + j) = -qsin j ∧
    fullSine (768 + j) = -qsin (256 - j)) ∧
  fullSine 0 = 0 ∧ fullSine 256 = 32768 ∧ fullSine 512 = 0 ∧ fullSine 768 = -32768 ∧ fullSine 1023 = -201 ∧
  ∀ k, k < 1024 → fullSine ((1024 - k) % 1024) = -fullSine k ∧ fullSine ((k + 512) % 1024) = -fullSine k

/-- The integer part of 40 R125's formula: the interpolation between neighbouring table entries, its floor, and that the result lies
between them. The formula is followed, not the rule's remark: on a falling pair the floor may reach the next entry, so this says
`s1 ≤ y` where the remark says `s1 < result` (DEDUCED, log 14). -/
def Obligations.SineInterpolatesBetweenNeighbours : Prop :=
  ∀ theta : PhaseWord,
    let k := theta.toNat / 2 ^ 22
    let fr : Int := (theta.toNat / 2 ^ 10 % 4096 : Nat)
    let s0 := fullSine k
    let s1 := fullSine ((k + 1) % 1024)
    let y := wave 1#3 theta
    (y - s0) * 4096 ≤ (s1 - s0) * fr ∧ (s1 - s0) * fr < (y - s0 + 1) * 4096 ∧
    (s0 ≤ s1 → s0 ≤ y ∧ (y < s1 ∨ y = s1 ∧ s0 = s1)) ∧ (s1 < s0 → s1 ≤ y ∧ y ≤ s0) ∧ -201 ≤ s1 - s0 ∧ s1 - s0 ≤ 201

/-- The sentence of 40 R125 that a falling interpolation never reaches the next entry (`s1 < result`). It contradicts the rule's own
formula, which floors: this statement is expected to FAIL (log 14). -/
def Obligations.FallingSineNeverReachesTheNextEntry : Prop :=
  ∀ theta : PhaseWord,
    let s0 := fullSine (theta.toNat / 2 ^ 22)
    let s1 := fullSine ((theta.toNat / 2 ^ 22 + 1) % 1024)
    s1 < s0 → s1 < wave 1#3 theta ∧ wave 1#3 theta ≤ s0

/-- 40 R126: the square follows the top bit of the phase. -/
def Obligations.SquareFollowsTheTopBit : Prop :=
  (∀ theta : PhaseWord, wave 2#3 theta = if theta.toNat < 2 ^ 31 then 32768 else -32768) ∧
  wave 2#3 0#32 = 32768 ∧ wave 2#3 0x7FFFFFFF#32 = 32768 ∧ wave 2#3 0x80000000#32 = -32768

/-- 40 R127, the whole rule: the sawtooth, its range and points, and its distance from the real ramp `2x - 1`, cleared of
denominators (`65536` of them make a cycle of `2^32`). -/
def Obligations.SawtoothIsTheTruncatedRamp : Prop :=
  (∀ theta : PhaseWord,
    wave 3#3 theta = (theta.toNat / 65536 : Nat) - 32768 ∧ -32768 ≤ wave 3#3 theta ∧ wave 3#3 theta ≤ 32767 ∧
    wave 3#3 theta * 65536 ≤ (theta.toNat : Int) - 2 ^ 31 ∧ (theta.toNat : Int) - 2 ^ 31 < (wave 3#3 theta + 1) * 65536 ∧
    (0xFFFF0000 ≤ theta.toNat → wave 3#3 theta = 32767)) ∧
  wave 3#3 0#32 = -32768 ∧ wave 3#3 0x80000000#32 = 0

/-- 40 R128, the whole rule: the triangle, its points, its distance from the real triangle `4x - 1`, `3 - 4x`, and its relation to the
sawtooth at twice the phase. -/
def Obligations.TriangleIsASawtoothOfTwiceThePhase : Prop :=
  (∀ theta : PhaseWord,
    (theta.toNat < 2 ^ 31 →
      wave 4#3 theta = (theta.toNat / 2 ^ 15 : Nat) - 32768 ∧ wave 4#3 theta = wave 3#3 (2#32 * theta) ∧
      wave 4#3 theta * 2 ^ 15 ≤ (theta.toNat : Int) - 2 ^ 30 ∧ (theta.toNat : Int) - 2 ^ 30 < (wave 4#3 theta + 1) * 2 ^ 15) ∧
    (2 ^ 31 ≤ theta.toNat →
      wave 4#3 theta = 98304 - (theta.toNat / 2 ^ 15 : Nat) ∧ wave 4#3 theta = -wave 3#3 (2#32 * theta) ∧
      3 * 2 ^ 30 - (theta.toNat : Int) ≤ wave 4#3 theta * 2 ^ 15 ∧ (wave 4#3 theta - 1) * 2 ^ 15 < 3 * 2 ^ 30 - (theta.toNat : Int)) ∧
    (0xFFFF8000 ≤ theta.toNat → wave 4#3 theta = -32767)) ∧
  wave 4#3 0#32 = -32768 ∧ wave 4#3 0x40000000#32 = 0 ∧ wave 4#3 0x80000000#32 = 32768 ∧ wave 4#3 0xC0000000#32 = 0

/-- 40 R129: the silent shapes are silent at every phase, and neither storing such a code nor evaluating it sets a flag. -/
def Obligations.SilentShapesGiveZero : Prop :=
  ∀ shape : ShapeCode, shape.toNat = 0 ∨ 5 ≤ shape.toNat →
    (∀ theta : PhaseWord, wave shape theta = 0) ∧
    (∀ (s : State) (e : ErrKind), (emitBuffer s).flag e = s.flag e) ∧
    ∀ (s : State) (r c : Coord) (e : ErrKind), Within s.params r c →
      (∃ t, exec (.setShape shape) s = .next t ∧ t.flag e = s.flag e) ∧
      (∃ t, exec (.opShape r c shape) s = .next t ∧ t.flag e = s.flag e) ∧
      ∃ t, exec (.activate r c) { s with ctlShape := shape } = .next t ∧ t.flag e = s.flag e

/-- 40 R130: the range of every shape at every phase, where the end points are reached, the period of one cycle, and the values at phase
zero. -/
def Obligations.WaveStaysInRange : Prop :=
  (∀ (shape : ShapeCode) (theta : PhaseWord), -32768 ≤ wave shape theta ∧ wave shape theta ≤ 32768) ∧
  (∀ theta : PhaseWord, theta.toNat / 2 ^ 10 = 0x100000 → wave 1#3 theta = 32768) ∧
  (∃ theta, wave 2#3 theta = 32768) ∧ (∃ theta, wave 4#3 theta = 32768) ∧ (∀ theta, wave 3#3 theta ≠ 32768) ∧
  (∃ theta, wave 1#3 theta = -32768) ∧ (∃ theta, wave 2#3 theta = -32768) ∧ (∃ theta, wave 3#3 theta = -32768) ∧
  (∃ theta, wave 4#3 theta = -32768) ∧
  (∀ (shape : ShapeCode) (theta : PhaseWord) (n : Int), wave shape (BitVec.ofInt 32 (theta.toNat + n * 2 ^ 32)) = wave shape theta) ∧
  wave 1#3 0#32 = 0 ∧ wave 2#3 0#32 = 32768 ∧ wave 3#3 0#32 = -32768 ∧ wave 4#3 0#32 = -32768

/-- 40 R131: two phase words that agree in the bits a shape uses give the same sample. -/
def Obligations.WaveDependsOnTopBitsOnly : Prop :=
  ∀ a b : PhaseWord,
    (a.toNat / 2 ^ 10 = b.toNat / 2 ^ 10 → wave 1#3 a = wave 1#3 b) ∧
    (a.toNat / 2 ^ 31 = b.toNat / 2 ^ 31 → wave 2#3 a = wave 2#3 b) ∧
    (a.toNat / 2 ^ 16 = b.toNat / 2 ^ 16 → wave 3#3 a = wave 3#3 b) ∧
    (a.toNat / 2 ^ 15 = b.toNat / 2 ^ 15 → wave 4#3 a = wave 4#3 b)

/-! ## Operators -/

/-- 42 R156: the volume product is a floor, stays in the range of a sample, is exact at full volume and at 0; the rule's example. -/
def Obligations.VolumeProductIsAFloor : Prop :=
  (∀ (v : VolumeWord) (w : Int), v.toNat ≤ 0x8000 → -32768 ≤ w → w ≤ 32768 →
    applyVolume v w * 32768 ≤ v.toNat * w ∧ v.toNat * w < (applyVolume v w + 1) * 32768 ∧
    -32768 ≤ applyVolume v w ∧ applyVolume v w ≤ 32768) ∧
  (∀ w : Int, applyVolume 0x8000#16 w = w ∧ applyVolume 0#16 w = 0) ∧
  applyVolume 0x4000#16 (-1) = -1 ∧ applyVolume 0x4000#16 1 = 0

/-- 42 R152: the modulation offset is the exact signed product shifted by 9, reduced modulo one cycle; its bounds and its zeros. -/
def Obligations.ModulationOffsetIsExact : Prop :=
  (∀ (idx : IndexWord) (m : Int), -32768 ≤ m → m ≤ 32768 →
    ((modOffset idx m).toNat : Int) = ((idx.toNat : Int) * m * 2 ^ 9) % 2 ^ 32 ∧ |(idx.toNat : Int) * m| < 2 ^ 31 ∧
    |(idx.toNat : Int) * m * 2 ^ 9| < 2 ^ 40) ∧
  (∀ m : Int, modOffset 0#16 m = 0#32) ∧ ∀ idx : IndexWord, modOffset idx 0 = 0#32

/-- 41 R145, exact continuity across the seam of two buffers: the progression of phase arguments of consecutive buffers is one
arithmetic progression with the tuning word as its difference. -/
def Obligations.SeamContinuesTheProgression : Prop :=
  ∀ (p : Params) (x : Cell), 1 ≤ p.bufLen →
    let x' := { x with phase := nextPhase p x }
    (∀ i, basePhase x (i + 1) = basePhase x i + x.freq) ∧ basePhase x' 0 = basePhase x (p.bufLen - 1) + x.freq ∧
    ∀ k i, (basePhase ((fun z : Cell => { z with phase := nextPhase p z })^[k] x) i).toNat =
      (x.phase.toNat + (k * p.bufLen + i) * x.freq.toNat) % 2 ^ 32

/-- 42 R158: once an operator has been evaluated in a step, every later call for it in the same step, whatever was evaluated in
between, answers the same samples and does nothing. -/
def Obligations.EvaluationHappensOnce : Prop :=
  ∀ (p : Params) (l : Loc) (between : List Loc) (ctx : Grid × Memo), 0 < p.cells →
    memoGet l ctx.2 ≠ none ∨ (ctx.1.get l).active = true →
    let first := eval p l ctx
    let later := between.foldl (fun c k => (eval p k c).2) first.2
    eval p l later = (first.1, later)

/-- 42 R161: what an operator puts out and what its evaluation leaves depend only on the cells reachable from it; no other cell is
touched. -/
def Obligations.EvaluationIsLocal : Prop :=
  ∀ (p : Params) (g h : Grid) (l : Loc), p.Legal → g.Inv p → h.Inv p → (g.get l).active = true →
    (∀ k m, g.walk k l = some m → h.get m = g.get m) →
    (eval p l (h, [])).1 = (eval p l (g, [])).1 ∧
    (∀ k m, g.walk k l = some m → (eval p l (h, [])).2.1.get m = (eval p l (g, [])).2.1.get m) ∧
    ∀ m, (∀ k, g.walk k l ≠ some m) → (eval p l (g, [])).2.1.get m = g.get m

/-! ## Buffers -/

/-- 41 R143, R146: in a step that emits a buffer every active cell's accumulator advances by `N · FREQ` modulo `2^32`, exactly once,
no inactive cell changes, and nothing else of a cell does. -/
def Obligations.EveryActivePhaseAdvancesOnce : Prop :=
  ∀ s s₀ : State, Inv s → EngineMoves s s₀ → s.run = true → s.cmdq = [] →
    ∃ t, step s = .next t ∧
      ∀ l, t.grid.get l = if (s.grid.get l).active = true then advanced s.params.bufLen (s.grid.get l) else s.grid.get l

/-- 44 R200 to R207 over 42 R150 to R156: the buffer a running block emits, word by word, as a function of the grid alone; and that
the step changes only the grid's phases, `OUT` and `BUFCNT`. -/
def Obligations.EmittedBufferIsTheScaledMean : Prop :=
  ∀ s s₀ : State, Inv s → EngineMoves s s₀ → s.run = true → s.cmdq = [] →
    ∃ t, step s = .next t ∧
      t = { s₀ with grid := t.grid, out := s.out ++ [expectedBuffer s], bufcnt := s.bufcnt + 1 }

/-- 44 R204: with no active voice the block emits a buffer of zeros, counts it, keeps running and advances no phase. -/
def Obligations.NoVoiceEmitsSilence : Prop :=
  ∀ s s₀ : State, EngineMoves s s₀ → s.run = true → s.cmdq = [] → (∀ r, r < s.params.rows → ¬ActiveAt s r 0) →
    step s = .next { s₀ with
      out := s.out ++ [List.replicate (s.params.bufLen * s.params.channels.count) 0#32], bufcnt := s.bufcnt + 1 }

/-- 44 R211: the voices may be evaluated in any order, the grid and the mix come out the same; and exchanging the contents of two rows,
references included, leaves the emitted buffer bit-identical. -/
def Obligations.MixIsIndependentOfOrder : Prop :=
  (∀ (s : State) (rows : List Nat), Inv s → rows.Perm (voiceSet s) →
    let a := evalVoices s.params rows (s.grid, [])
    let b := evalVoices s.params (voiceSet s) (s.grid, [])
    a.2.1 = b.2.1 ∧ mixBuffer s a.1 = mixBuffer s b.1) ∧
  ∀ (s : State) (h : Grid) (a b : Nat), Inv s → h.Inv s.params → a < s.params.rows → b < s.params.rows →
    RowsExchanged a b s.grid h → (emitBuffer { s with grid := h }).out = (emitBuffer s).out

/-- 41 R144: over any number of consecutive buffers with no command in between, the phase of an active cell is exactly
`(P0 + k · N · FREQ) mod 2^32`, with no drift. -/
def Obligations.PhaseLawOverBuffers : Prop :=
  ∀ (k : Nat) (s : State) (l : Loc), Inv s → s.run = true → s.cmdq = [] → s.schedule = [] → (s.grid.get l).active = true →
    ∃ t, StepsTo k s t ∧ (t.grid.get l).active = true ∧ (t.grid.get l).freq = (s.grid.get l).freq ∧
      (t.grid.get l).phase.toNat = ((s.grid.get l).phase.toNat + k * s.params.bufLen * (s.grid.get l).freq.toNat) % 2 ^ 32 ∧
      t.out.length = s.out.length + k

/-- 44 R203: the mixer's quotient is one floor; it stays in the range of a sample; at gain 1 it is the floored mean, and exact for one
voice. -/
def Obligations.MixIsTheFlooredMean : Prop :=
  ∀ (sum : Int) (gain : VolumeWord) (n : Nat), 1 ≤ n → gain.toNat ≤ 0x8000 → |sum| ≤ n * 32768 →
    mixSample sum gain n * (n * 32768) ≤ sum * gain.toNat ∧ sum * gain.toNat < (mixSample sum gain n + 1) * (n * 32768) ∧
    |mixSample sum gain n| ≤ 32768 ∧ (n ≤ 256 → |sum * gain.toNat| ≤ 2 ^ 38) ∧ (gain = 0x8000#16 → mixSample sum gain n = sum / n) ∧
    (gain = 0x8000#16 → n = 1 → mixSample sum gain n = sum)

/-- 44 R206: the conversion to binary32 is exact for every sample, never a negative zero, a subnormal, an infinity or a NaN; the
rule's examples. -/
def Obligations.Binary32ConversionIsExact : Prop :=
  (∀ x : Int, x ≠ 0 → -32768 ≤ x → x ≤ 32768 → Binary32Is (f32 x) x) ∧ f32 0 = 0#32 ∧
  f32 32768 = 0x3F800000#32 ∧ f32 (-32768) = 0xBF800000#32 ∧ f32 16384 = 0x3F000000#32 ∧ f32 1 = 0x38000000#32 ∧
  f32 (-1) = 0xB8000000#32 ∧ f32 3 = 0x38C00000#32 ∧ f32 2052 = 0x3D804000#32 ∧ f32 (-8988) = 0xBE8C7000#32 ∧
  f32 32767 = 0x3F7FFE00#32

/-- 20 R64, R65, 44 R207: the frame layout of a buffer, and how it leaves the block: word by word in order, `out_last` on the final
word only. -/
def Obligations.FramesCarryEqualWords : Prop :=
  (∀ (p : Params) (samples : List Int),
    (bufferWords p samples).length = samples.length * p.channels.count ∧
    ∀ i j, i < samples.length → j < p.channels.count →
      (bufferWords p samples)[i * p.channels.count + j]? = (samples[i]?).map f32) ∧
  ∀ (b : List OutWord) (i : Nat), (outBeats b).length = b.length ∧
    ∀ w, b[i]? = some w → (outBeats b)[i]? = some (w, decide (i + 1 = b.length))

/-- 44 R207, R213: every buffer a block with the invariants emits has `N · CHANNELS` words, each the binary32 form of a sample in
`-32768 .. 32768`. -/
def Obligations.EmittedBuffersAreBounded : Prop :=
  ∀ (s t : State) (b : List OutWord), Inv s → step s = .next t → t.out = s.out ++ [b] →
    b.length = s.params.bufLen * s.params.channels.count ∧ ∀ w ∈ b, ∃ x : Int, -32768 ≤ x ∧ x ≤ 32768 ∧ w = f32 x

/-! ## The read space -/

/-- 20 R70: the global words of the read space, as numbers. -/
def Obligations.GlobalReadWords : Prop :=
  ∀ s : State, Inv s → s.params.bufLen < 2 ^ 32 → s.params.qdepth < 2 ^ 32 →
    regRead 0x00000#20 s = 0x57464731#32 ∧
    (regRead 0x00001#20 s).toNat = (s.params.rows - 1) + (s.params.cols - 1) * 256 + (s.params.channels.count - 1) * 65536 ∧
    (regRead 0x00002#20 s).toNat = s.params.bufLen ∧ (regRead 0x00003#20 s).toNat = s.params.qdepth ∧
    (regRead 0x00004#20 s).toNat = s.run.toNat + 2 * s.modeAdd.toNat + 16 * s.errIllegal.toNat + 32 * s.errRange.toNat +
      64 * s.errCycle.toNat ∧
    (regRead 0x00005#20 s).toNat = s.cmdq.length ∧ regRead 0x00006#20 s = s.bufcnt ∧
    (regRead 0x00007#20 s).toNat = s.errcmd.toNat % 2 ^ 32 ∧ (regRead 0x00008#20 s).toNat = s.errcmd.toNat / 2 ^ 32 ∧
    regRead 0x00010#20 s = s.ctlFreq ∧ (regRead 0x00011#20 s).toNat = s.ctlVol.toNat ∧
    (regRead 0x00012#20 s).toNat = s.ctlShape.toNat ∧ (regRead 0x00013#20 s).toNat = s.ctlModidx.toNat ∧
    (regRead 0x00014#20 s).toNat = s.ctlMaster.toNat ∧ (regRead 0x00015#20 s).toNat = s.modeAdd.toNat

/-- 20 R71: the words of a cell at `0x80000 + r · 0x800 + c · 8 + k`, as numbers. -/
def Obligations.CellReadWords : Prop :=
  ∀ (s : State) (r c : Coord), Within s.params r c →
    let x := s.grid.get (r.toNat, c.toNat)
    let word := fun k : Nat => regRead (BitVec.ofNat 20 (0x80000 + r.toNat * 0x800 + c.toNat * 8 + k)) s
    (word 0).toNat = x.active.toNat + 2 * x.shape.toNat + 16 * x.modv.toNat + 256 * x.modcol.toNat + 65536 * x.modrow.toNat ∧
    word 1 = x.freq ∧ (word 2).toNat = x.vol.toNat ∧ (word 3).toNat = x.modidx.toNat ∧ word 4 = x.phase ∧
    word 5 = 0#32 ∧ word 6 = 0#32 ∧ word 7 = 0#32

/-- 20 R69, R72: every other address reads 0; a read records the word (log 5) and changes nothing else, no flag among it. -/
def Obligations.ReadsOutsideTheMapGiveZero : Prop :=
  (∀ (s : State) (a : ReadAddr),
    (0x00009 ≤ a.toNat ∧ a.toNat ≤ 0x0000F) ∨ (0x00016 ≤ a.toNat ∧ a.toNat ≤ 0x7FFFF) ∨
      (0x80000 ≤ a.toNat ∧ (s.params.rows ≤ (a.toNat - 0x80000) / 0x800 ∨ s.params.cols ≤ a.toNat / 8 % 256 ∨ 5 ≤ a.toNat % 8)) →
    regRead a s = 0#32) ∧
  ∀ (s : State) (a : ReadAddr) (rest : List Turn), s.schedule = .hostRead a :: rest →
    step s = .next { s with schedule := rest, reads := s.reads ++ [(a, regRead a s)] }
end

