-- ==== Sys2Proof/Laws/Grid.lean ====
section
/-! SUPPORT. The laws of the grid: what a read gives after a write, that every write keeps the canonical form, and that a
canonical grid is determined by what its places read as. -/

namespace Sys2Proof.Machine

/-! ## Order of places -/

theorem Loc.before_iff (a b : Loc) : Loc.before a b = true ↔ a.1 < b.1 ∨ a.1 = b.1 ∧ a.2 < b.2 := by
  simp [Loc.before]

theorem Loc.before_irrefl (a : Loc) : Loc.before a a = false := by
  simp [Loc.before]

theorem Loc.before_trans {a b c : Loc} (h : Loc.before a b = true) (k : Loc.before b c = true) :
    Loc.before a c = true := by
  rw [Loc.before_iff] at *; omega

theorem Loc.before_of_not {a b : Loc} (h : Loc.before a b = false) (hne : a ≠ b) : Loc.before b a = true := by
  have h' : ¬(a.1 < b.1 ∨ a.1 = b.1 ∧ a.2 < b.2) := by rw [← Loc.before_iff, h]; simp
  have : ¬(a.1 = b.1 ∧ a.2 = b.2) := fun hh => hne (Prod.ext hh.1 hh.2)
  rw [Loc.before_iff]; omega

/-! ## Reading a list of cells -/

theorem lookupCell_filter_ne (l : Loc) (es : List (Loc × Cell)) (l' : Loc) (h : l' ≠ l) :
    lookupCell l' (es.filter (fun e => decide (e.1 ≠ l))) = lookupCell l' es := by
  induction es with
  | nil => rfl
  | cons e rest ih =>
    obtain ⟨k, x⟩ := e
    simp only [ne_eq, decide_not] at ih
    by_cases hk : k = l
    · subst hk; simp [lookupCell, ih, Ne.symm h]
    · by_cases hl : k = l'
      · simp [lookupCell, hl, h]
      · simp [lookupCell, hk, hl, ih]

theorem lookupCell_of_not_mem {l : Loc} {es : List (Loc × Cell)} (h : ∀ e ∈ es, e.1 ≠ l) :
    lookupCell l es = Cell.zero := by
  induction es with
  | nil => rfl
  | cons e rest ih =>
    obtain ⟨k, x⟩ := e
    have hk : k ≠ l := h (k, x) (by simp)
    simp [lookupCell, hk, ih (fun e he => h e (by simp [he]))]

theorem lookupCell_insertCell (l : Loc) (x : Cell) (es : List (Loc × Cell)) (h : ∀ e ∈ es, e.1 ≠ l) (l' : Loc) :
    lookupCell l' (insertCell l x es) = if l' = l then x else lookupCell l' es := by
  induction es with
  | nil =>
    by_cases hl : l' = l
    · simp [insertCell, lookupCell, hl]
    · simp [insertCell, lookupCell, hl, Ne.symm hl]
  | cons e rest ih =>
    obtain ⟨k, y⟩ := e
    have hk : k ≠ l := h (k, y) (by simp)
    have ih' := ih (fun e he => h e (by simp [he]))
    unfold insertCell
    split
    · by_cases hl : l' = l
      · simp [lookupCell, hl]
      · simp [lookupCell, hl, Ne.symm hl]
    · by_cases hl : l' = l
      · subst hl; simp [lookupCell, hk, ih']
      · by_cases hkl : k = l'
        · simp [lookupCell, hkl, hl]
        · simp [lookupCell, hkl, hl, ih']

theorem filter_ne_not_mem (l : Loc) (es : List (Loc × Cell)) :
    ∀ e ∈ es.filter (fun e => decide (e.1 ≠ l)), e.1 ≠ l := by
  intro e he; simpa using (List.mem_filter.mp he).2

/-! ## Read after write -/

@[simp] theorem Grid.get_empty (l : Loc) : (⟨[]⟩ : Grid).get l = Cell.zero := rfl

/-- A write changes what its own place reads as, and no other place. -/
theorem Grid.get_set (g : Grid) (l : Loc) (x : Cell) (l' : Loc) :
    (g.set l x).get l' = if l' = l then x else g.get l' := by
  unfold Grid.set Grid.get
  by_cases hx : x = Cell.zero
  · simp only [hx, ↓reduceIte]
    by_cases hl : l' = l
    · subst hl; simpa using lookupCell_of_not_mem (filter_ne_not_mem l' g.entries)
    · simpa [hl] using lookupCell_filter_ne l g.entries l' hl
  · simp only [hx, ↓reduceIte]
    rw [lookupCell_insertCell _ _ _ (filter_ne_not_mem l g.entries)]
    by_cases hl : l' = l
    · simp [hl]
    · simpa [hl] using lookupCell_filter_ne l g.entries l' hl

@[simp] theorem Grid.get_set_self (g : Grid) (l : Loc) (x : Cell) : (g.set l x).get l = x := by
  simp [Grid.get_set]

theorem Grid.get_set_ne (g : Grid) {l l' : Loc} (x : Cell) (h : l' ≠ l) : (g.set l x).get l' = g.get l' := by
  simp [Grid.get_set, h]

theorem Grid.get_modify (g : Grid) (l : Loc) (f : Cell → Cell) (l' : Loc) :
    (g.modify l f).get l' = if l' = l then f (g.get l) else g.get l' := Grid.get_set _ _ _ _

@[simp] theorem Grid.get_modify_self (g : Grid) (l : Loc) (f : Cell → Cell) : (g.modify l f).get l = f (g.get l) := by
  simp [Grid.get_modify]

theorem Grid.get_modify_ne (g : Grid) {l l' : Loc} (f : Cell → Cell) (h : l' ≠ l) :
    (g.modify l f).get l' = g.get l' := by
  simp [Grid.get_modify, h]

/-- A place that is not listed reads as `ZEROCELL`. -/
theorem Grid.get_of_not_place {g : Grid} {l : Loc} (h : l ∉ g.places) : g.get l = Cell.zero := by
  refine lookupCell_of_not_mem (fun e he hl => h ?_)
  exact List.mem_map.mpr ⟨e, he, hl⟩

theorem Grid.place_of_get_ne {g : Grid} {l : Loc} (h : g.get l ≠ Cell.zero) : l ∈ g.places := by
  by_contra hn; exact h (Grid.get_of_not_place hn)

/-! ## Writing every cell -/

theorem Grid.get_foldl_set (g : Grid) (f : Cell → Cell) (ls : List Loc) (h : Grid) (l : Loc) :
    (ls.foldl (fun h l => h.set l (f (g.get l))) h).get l = if l ∈ ls then f (g.get l) else h.get l := by
  induction ls generalizing h with
  | nil => simp
  | cons k rest ih =>
    rw [List.foldl_cons, ih, Grid.get_set]
    by_cases hr : l ∈ rest
    · simp [hr]
    · by_cases hk : l = k
      · subst hk; simp [hr]
      · simp [hr, hk]

/-- Mapping the cells maps what every place reads as. -/
theorem Grid.get_mapCells (g : Grid) {f : Cell → Cell} (hf : f Cell.zero = Cell.zero) (l : Loc) :
    (g.mapCells f).get l = f (g.get l) := by
  rw [Grid.mapCells, Grid.get_foldl_set]
  by_cases h : l ∈ g.places
  · simp [h]
  · simp [h, Grid.get_of_not_place h, hf]

/-! ## The canonical form -/

theorem Grid.wf_iff (g : Grid) :
    g.wf = true ↔ g.entries.Pairwise (fun a b => Loc.before a.1 b.1 = true) ∧ ∀ e ∈ g.entries, e.2 ≠ Cell.zero := by
  simp [Grid.wf]

theorem Grid.wf_empty : (⟨[]⟩ : Grid).wf = true := by simp [Grid.wf]

theorem mem_insertCell {l : Loc} {x : Cell} {es : List (Loc × Cell)} {e : Loc × Cell}
    (h : e ∈ insertCell l x es) : e = (l, x) ∨ e ∈ es := by
  induction es with
  | nil => simpa [insertCell] using h
  | cons d rest ih =>
    obtain ⟨k, y⟩ := d
    unfold insertCell at h
    split at h
    · simpa using h
    · rcases List.mem_cons.mp h with h | h
      · simp [h]
      · rcases ih h with h | h <;> simp [h]

theorem insertCell_sorted (l : Loc) (x : Cell) (es : List (Loc × Cell))
    (hs : es.Pairwise (fun a b => Loc.before a.1 b.1 = true)) (hl : ∀ e ∈ es, e.1 ≠ l) :
    (insertCell l x es).Pairwise (fun a b => Loc.before a.1 b.1 = true) := by
  induction es with
  | nil => simp [insertCell]
  | cons d rest ih =>
    obtain ⟨k, y⟩ := d
    obtain ⟨hk, hrest⟩ := List.pairwise_cons.mp hs
    have hkl : k ≠ l := hl (k, y) (by simp)
    unfold insertCell
    split
    · rename_i hb
      refine List.pairwise_cons.mpr ⟨?_, hs⟩
      intro e he
      rcases List.mem_cons.mp he with rfl | he
      · exact hb
      · exact Loc.before_trans hb (hk e he)
    · rename_i hb
      refine List.pairwise_cons.mpr ⟨?_, ih hrest (fun e he => hl e (by simp [he]))⟩
      intro e he
      rcases mem_insertCell he with rfl | he
      · exact Loc.before_of_not (by simpa using hb) (Ne.symm hkl)
      · exact hk e he

/-- Every write keeps the canonical form. -/
theorem Grid.wf_set {g : Grid} (h : g.wf = true) (l : Loc) (x : Cell) : (g.set l x).wf = true := by
  obtain ⟨hs, hz⟩ := (Grid.wf_iff g).mp h
  have hs' := hs.sublist (List.filter_sublist (p := fun e => decide (e.1 ≠ l)) (l := g.entries))
  have hz' : ∀ e ∈ g.entries.filter (fun e => decide (e.1 ≠ l)), e.2 ≠ Cell.zero :=
    fun e he => hz e (List.mem_filter.mp he).1
  unfold Grid.set
  by_cases hx : x = Cell.zero
  · simpa [hx] using (Grid.wf_iff _).mpr ⟨hs', hz'⟩
  · simp only [hx, ↓reduceIte]
    refine (Grid.wf_iff _).mpr ⟨insertCell_sorted l x _ hs' (filter_ne_not_mem l _), ?_⟩
    intro e he
    rcases mem_insertCell he with rfl | he
    · exact hx
    · exact hz' e he

theorem Grid.wf_modify {g : Grid} (h : g.wf = true) (l : Loc) (f : Cell → Cell) : (g.modify l f).wf = true :=
  Grid.wf_set h _ _

theorem Grid.wf_foldl_set (g : Grid) (f : Cell → Cell) (ls : List Loc) {h : Grid} (hw : h.wf = true) :
    (ls.foldl (fun h l => h.set l (f (g.get l))) h).wf = true := by
  induction ls generalizing h with
  | nil => exact hw
  | cons k rest ih => exact ih (Grid.wf_set hw _ _)

theorem Grid.wf_mapCells {g : Grid} (h : g.wf = true) (f : Cell → Cell) : (g.mapCells f).wf = true :=
  Grid.wf_foldl_set g f _ h

/-! ## Equal grids are equal data -/

theorem lookupCell_mem {es : List (Loc × Cell)} (hs : es.Pairwise (fun a b => Loc.before a.1 b.1 = true))
    {e : Loc × Cell} (he : e ∈ es) : lookupCell e.1 es = e.2 := by
  induction es with
  | nil => simp at he
  | cons d rest ih =>
    obtain ⟨k, y⟩ := d
    obtain ⟨hk, hrest⟩ := List.pairwise_cons.mp hs
    rcases List.mem_cons.mp he with rfl | he
    · simp [lookupCell]
    · have hne : k ≠ e.1 := by
        intro hke
        have := hk e he
        rw [hke, Loc.before_irrefl] at this
        exact absurd this (by simp)
      simp [lookupCell, hne, ih hrest he]

theorem sorted_entries_eq {es fs : List (Loc × Cell)}
    (he : es.Pairwise (fun a b => Loc.before a.1 b.1 = true)) (hez : ∀ e ∈ es, e.2 ≠ Cell.zero)
    (hf : fs.Pairwise (fun a b => Loc.before a.1 b.1 = true)) (hfz : ∀ e ∈ fs, e.2 ≠ Cell.zero)
    (h : ∀ l, lookupCell l es = lookupCell l fs) : es = fs := by
  have sub : ∀ {as bs : List (Loc × Cell)}, as.Pairwise (fun a b => Loc.before a.1 b.1 = true) →
      (∀ e ∈ as, e.2 ≠ Cell.zero) → bs.Pairwise (fun a b => Loc.before a.1 b.1 = true) →
      (∀ l, lookupCell l as = lookupCell l bs) → ∀ e ∈ as, e ∈ bs := by
    intro as bs ha haz hb hab e hea
    by_contra hn
    have h1 : lookupCell e.1 as = e.2 := lookupCell_mem ha hea
    by_cases hex : ∃ d ∈ bs, d.1 = e.1
    · obtain ⟨d, hd, hde⟩ := hex
      have h2 := lookupCell_mem hb hd
      have : d = e := Prod.ext hde (by rw [← h2, hde, ← hab, h1])
      exact hn (this ▸ hd)
    · have h3 : lookupCell e.1 bs = Cell.zero := lookupCell_of_not_mem (fun d hd hde => hex ⟨d, hd, hde⟩)
      exact haz e hea (by rw [← h1, hab, h3])
  have anti : ∀ a b : Loc × Cell, Loc.before a.1 b.1 = true → Loc.before b.1 a.1 = true → a = b := by
    intro a b h1 h2
    have := Loc.before_trans h1 h2
    rw [Loc.before_irrefl] at this
    exact absurd this (by simp)
  have nodup : ∀ {as : List (Loc × Cell)}, as.Pairwise (fun a b => Loc.before a.1 b.1 = true) → as.Nodup := by
    intro as ha
    refine ha.imp ?_
    intro a b hab heq
    rw [heq, Loc.before_irrefl] at hab
    exact absurd hab (by simp)
  refine List.Perm.eq_of_pairwise (le := fun a b => Loc.before a.1 b.1 = true) (fun a b _ _ => anti a b) he hf ?_
  exact (List.perm_ext_iff_of_nodup (nodup he) (nodup hf)).mpr
    (fun e => ⟨sub he hez hf h e, sub hf hfz he (fun l => (h l).symm) e⟩)

/-- Two canonical grids whose places all read the same are the same data. -/
theorem Grid.eq_of_get {g h : Grid} (hg : g.wf = true) (hh : h.wf = true) (heq : ∀ l, g.get l = h.get l) : g = h := by
  obtain ⟨g1, g2⟩ := (Grid.wf_iff g).mp hg
  obtain ⟨h1, h2⟩ := (Grid.wf_iff h).mp hh
  cases g; cases h
  exact congrArg Grid.mk (sorted_entries_eq g1 g2 h1 h2 heq)

end Sys2Proof.Machine
end

