-- ==== Sys2Proof/Laws/State.lean ====
section
/-! SUPPORT. One lemma per field and per named update of the state, so that no later proof unfolds a record update. -/

namespace Sys2Proof.Machine

/-! ## Writing fields of a cell -/

@[simp] theorem State.modifyCell_params (s : State) (r c : Nat) (f : Cell → Cell) : (s.modifyCell r c f).params = s.params := rfl
@[simp] theorem State.modifyCell_grid (s : State) (r c : Nat) (f : Cell → Cell) : (s.modifyCell r c f).grid = s.grid.modify (r, c) f := rfl
@[simp] theorem State.modifyCell_ctlFreq (s : State) (r c : Nat) (f : Cell → Cell) : (s.modifyCell r c f).ctlFreq = s.ctlFreq := rfl
@[simp] theorem State.modifyCell_ctlVol (s : State) (r c : Nat) (f : Cell → Cell) : (s.modifyCell r c f).ctlVol = s.ctlVol := rfl
@[simp] theorem State.modifyCell_ctlShape (s : State) (r c : Nat) (f : Cell → Cell) : (s.modifyCell r c f).ctlShape = s.ctlShape := rfl
@[simp] theorem State.modifyCell_ctlModidx (s : State) (r c : Nat) (f : Cell → Cell) : (s.modifyCell r c f).ctlModidx = s.ctlModidx := rfl
@[simp] theorem State.modifyCell_ctlMaster (s : State) (r c : Nat) (f : Cell → Cell) : (s.modifyCell r c f).ctlMaster = s.ctlMaster := rfl
@[simp] theorem State.modifyCell_modeAdd (s : State) (r c : Nat) (f : Cell → Cell) : (s.modifyCell r c f).modeAdd = s.modeAdd := rfl
@[simp] theorem State.modifyCell_run (s : State) (r c : Nat) (f : Cell → Cell) : (s.modifyCell r c f).run = s.run := rfl
@[simp] theorem State.modifyCell_errIllegal (s : State) (r c : Nat) (f : Cell → Cell) : (s.modifyCell r c f).errIllegal = s.errIllegal := rfl
@[simp] theorem State.modifyCell_errRange (s : State) (r c : Nat) (f : Cell → Cell) : (s.modifyCell r c f).errRange = s.errRange := rfl
@[simp] theorem State.modifyCell_errCycle (s : State) (r c : Nat) (f : Cell → Cell) : (s.modifyCell r c f).errCycle = s.errCycle := rfl
@[simp] theorem State.modifyCell_errcmd (s : State) (r c : Nat) (f : Cell → Cell) : (s.modifyCell r c f).errcmd = s.errcmd := rfl
@[simp] theorem State.modifyCell_bufcnt (s : State) (r c : Nat) (f : Cell → Cell) : (s.modifyCell r c f).bufcnt = s.bufcnt := rfl
@[simp] theorem State.modifyCell_cmdq (s : State) (r c : Nat) (f : Cell → Cell) : (s.modifyCell r c f).cmdq = s.cmdq := rfl
@[simp] theorem State.modifyCell_out (s : State) (r c : Nat) (f : Cell → Cell) : (s.modifyCell r c f).out = s.out := rfl
@[simp] theorem State.modifyCell_schedule (s : State) (r c : Nat) (f : Cell → Cell) : (s.modifyCell r c f).schedule = s.schedule := rfl
@[simp] theorem State.modifyCell_reads (s : State) (r c : Nat) (f : Cell → Cell) : (s.modifyCell r c f).reads = s.reads := rfl

/-! ## Pushing a command -/

@[simp] theorem pushCommand_params (w : CommandWord) (s : State) : (pushCommand w s).params = s.params := rfl
@[simp] theorem pushCommand_grid (w : CommandWord) (s : State) : (pushCommand w s).grid = s.grid := rfl
@[simp] theorem pushCommand_ctlFreq (w : CommandWord) (s : State) : (pushCommand w s).ctlFreq = s.ctlFreq := rfl
@[simp] theorem pushCommand_ctlVol (w : CommandWord) (s : State) : (pushCommand w s).ctlVol = s.ctlVol := rfl
@[simp] theorem pushCommand_ctlShape (w : CommandWord) (s : State) : (pushCommand w s).ctlShape = s.ctlShape := rfl
@[simp] theorem pushCommand_ctlModidx (w : CommandWord) (s : State) : (pushCommand w s).ctlModidx = s.ctlModidx := rfl
@[simp] theorem pushCommand_ctlMaster (w : CommandWord) (s : State) : (pushCommand w s).ctlMaster = s.ctlMaster := rfl
@[simp] theorem pushCommand_modeAdd (w : CommandWord) (s : State) : (pushCommand w s).modeAdd = s.modeAdd := rfl
@[simp] theorem pushCommand_run (w : CommandWord) (s : State) : (pushCommand w s).run = s.run := rfl
@[simp] theorem pushCommand_errIllegal (w : CommandWord) (s : State) : (pushCommand w s).errIllegal = s.errIllegal := rfl
@[simp] theorem pushCommand_errRange (w : CommandWord) (s : State) : (pushCommand w s).errRange = s.errRange := rfl
@[simp] theorem pushCommand_errCycle (w : CommandWord) (s : State) : (pushCommand w s).errCycle = s.errCycle := rfl
@[simp] theorem pushCommand_errcmd (w : CommandWord) (s : State) : (pushCommand w s).errcmd = s.errcmd := rfl
@[simp] theorem pushCommand_bufcnt (w : CommandWord) (s : State) : (pushCommand w s).bufcnt = s.bufcnt := rfl
@[simp] theorem pushCommand_cmdq (w : CommandWord) (s : State) : (pushCommand w s).cmdq = s.cmdq ++ [w] := rfl
@[simp] theorem pushCommand_out (w : CommandWord) (s : State) : (pushCommand w s).out = s.out := rfl
@[simp] theorem pushCommand_schedule (w : CommandWord) (s : State) : (pushCommand w s).schedule = s.schedule := rfl
@[simp] theorem pushCommand_reads (w : CommandWord) (s : State) : (pushCommand w s).reads = s.reads := rfl

/-! ## Setting one flag -/

@[simp] theorem raiseFlag_params (e : ErrKind) (s : State) : (raiseFlag e s).params = s.params := by cases e <;> rfl
@[simp] theorem raiseFlag_grid (e : ErrKind) (s : State) : (raiseFlag e s).grid = s.grid := by cases e <;> rfl
@[simp] theorem raiseFlag_ctlFreq (e : ErrKind) (s : State) : (raiseFlag e s).ctlFreq = s.ctlFreq := by cases e <;> rfl
@[simp] theorem raiseFlag_ctlVol (e : ErrKind) (s : State) : (raiseFlag e s).ctlVol = s.ctlVol := by cases e <;> rfl
@[simp] theorem raiseFlag_ctlShape (e : ErrKind) (s : State) : (raiseFlag e s).ctlShape = s.ctlShape := by cases e <;> rfl
@[simp] theorem raiseFlag_ctlModidx (e : ErrKind) (s : State) : (raiseFlag e s).ctlModidx = s.ctlModidx := by cases e <;> rfl
@[simp] theorem raiseFlag_ctlMaster (e : ErrKind) (s : State) : (raiseFlag e s).ctlMaster = s.ctlMaster := by cases e <;> rfl
@[simp] theorem raiseFlag_modeAdd (e : ErrKind) (s : State) : (raiseFlag e s).modeAdd = s.modeAdd := by cases e <;> rfl
@[simp] theorem raiseFlag_run (e : ErrKind) (s : State) : (raiseFlag e s).run = s.run := by cases e <;> rfl
@[simp] theorem raiseFlag_errIllegal (e : ErrKind) (s : State) : (raiseFlag e s).errIllegal = (decide (e = .illegal) || s.errIllegal) := by cases e <;> rfl
@[simp] theorem raiseFlag_errRange (e : ErrKind) (s : State) : (raiseFlag e s).errRange = (decide (e = .range) || s.errRange) := by cases e <;> rfl
@[simp] theorem raiseFlag_errCycle (e : ErrKind) (s : State) : (raiseFlag e s).errCycle = (decide (e = .cycle) || s.errCycle) := by cases e <;> rfl
@[simp] theorem raiseFlag_errcmd (e : ErrKind) (s : State) : (raiseFlag e s).errcmd = s.errcmd := by cases e <;> rfl
@[simp] theorem raiseFlag_bufcnt (e : ErrKind) (s : State) : (raiseFlag e s).bufcnt = s.bufcnt := by cases e <;> rfl
@[simp] theorem raiseFlag_cmdq (e : ErrKind) (s : State) : (raiseFlag e s).cmdq = s.cmdq := by cases e <;> rfl
@[simp] theorem raiseFlag_out (e : ErrKind) (s : State) : (raiseFlag e s).out = s.out := by cases e <;> rfl
@[simp] theorem raiseFlag_schedule (e : ErrKind) (s : State) : (raiseFlag e s).schedule = s.schedule := by cases e <;> rfl
@[simp] theorem raiseFlag_reads (e : ErrKind) (s : State) : (raiseFlag e s).reads = s.reads := by cases e <;> rfl

/-! ## `flag ERR_X(w)` -/

@[simp] theorem flagError_params (e : ErrKind) (w : CommandWord) (s : State) : (flagError e w s).params = s.params := by cases e <;> rfl
@[simp] theorem flagError_grid (e : ErrKind) (w : CommandWord) (s : State) : (flagError e w s).grid = s.grid := by cases e <;> rfl
@[simp] theorem flagError_ctlFreq (e : ErrKind) (w : CommandWord) (s : State) : (flagError e w s).ctlFreq = s.ctlFreq := by cases e <;> rfl
@[simp] theorem flagError_ctlVol (e : ErrKind) (w : CommandWord) (s : State) : (flagError e w s).ctlVol = s.ctlVol := by cases e <;> rfl
@[simp] theorem flagError_ctlShape (e : ErrKind) (w : CommandWord) (s : State) : (flagError e w s).ctlShape = s.ctlShape := by cases e <;> rfl
@[simp] theorem flagError_ctlModidx (e : ErrKind) (w : CommandWord) (s : State) : (flagError e w s).ctlModidx = s.ctlModidx := by cases e <;> rfl
@[simp] theorem flagError_ctlMaster (e : ErrKind) (w : CommandWord) (s : State) : (flagError e w s).ctlMaster = s.ctlMaster := by cases e <;> rfl
@[simp] theorem flagError_modeAdd (e : ErrKind) (w : CommandWord) (s : State) : (flagError e w s).modeAdd = s.modeAdd := by cases e <;> rfl
@[simp] theorem flagError_run (e : ErrKind) (w : CommandWord) (s : State) : (flagError e w s).run = s.run := by cases e <;> rfl
@[simp] theorem flagError_errIllegal (e : ErrKind) (w : CommandWord) (s : State) : (flagError e w s).errIllegal = (decide (e = .illegal) || s.errIllegal) := by cases e <;> rfl
@[simp] theorem flagError_errRange (e : ErrKind) (w : CommandWord) (s : State) : (flagError e w s).errRange = (decide (e = .range) || s.errRange) := by cases e <;> rfl
@[simp] theorem flagError_errCycle (e : ErrKind) (w : CommandWord) (s : State) : (flagError e w s).errCycle = (decide (e = .cycle) || s.errCycle) := by cases e <;> rfl
@[simp] theorem flagError_errcmd (e : ErrKind) (w : CommandWord) (s : State) : (flagError e w s).errcmd = w := by cases e <;> rfl
@[simp] theorem flagError_bufcnt (e : ErrKind) (w : CommandWord) (s : State) : (flagError e w s).bufcnt = s.bufcnt := by cases e <;> rfl
@[simp] theorem flagError_cmdq (e : ErrKind) (w : CommandWord) (s : State) : (flagError e w s).cmdq = s.cmdq := by cases e <;> rfl
@[simp] theorem flagError_out (e : ErrKind) (w : CommandWord) (s : State) : (flagError e w s).out = s.out := by cases e <;> rfl
@[simp] theorem flagError_schedule (e : ErrKind) (w : CommandWord) (s : State) : (flagError e w s).schedule = s.schedule := by cases e <;> rfl
@[simp] theorem flagError_reads (e : ErrKind) (w : CommandWord) (s : State) : (flagError e w s).reads = s.reads := by cases e <;> rfl

/-! ## Clearing flags -/

@[simp] theorem clearFlags_params (m : BitVec 3) (s : State) : (clearFlags m s).params = s.params := rfl
@[simp] theorem clearFlags_grid (m : BitVec 3) (s : State) : (clearFlags m s).grid = s.grid := rfl
@[simp] theorem clearFlags_ctlFreq (m : BitVec 3) (s : State) : (clearFlags m s).ctlFreq = s.ctlFreq := rfl
@[simp] theorem clearFlags_ctlVol (m : BitVec 3) (s : State) : (clearFlags m s).ctlVol = s.ctlVol := rfl
@[simp] theorem clearFlags_ctlShape (m : BitVec 3) (s : State) : (clearFlags m s).ctlShape = s.ctlShape := rfl
@[simp] theorem clearFlags_ctlModidx (m : BitVec 3) (s : State) : (clearFlags m s).ctlModidx = s.ctlModidx := rfl
@[simp] theorem clearFlags_ctlMaster (m : BitVec 3) (s : State) : (clearFlags m s).ctlMaster = s.ctlMaster := rfl
@[simp] theorem clearFlags_modeAdd (m : BitVec 3) (s : State) : (clearFlags m s).modeAdd = s.modeAdd := rfl
@[simp] theorem clearFlags_run (m : BitVec 3) (s : State) : (clearFlags m s).run = s.run := rfl
@[simp] theorem clearFlags_errIllegal (m : BitVec 3) (s : State) : (clearFlags m s).errIllegal = (s.errIllegal && !m.getLsbD 0) := rfl
@[simp] theorem clearFlags_errRange (m : BitVec 3) (s : State) : (clearFlags m s).errRange = (s.errRange && !m.getLsbD 1) := rfl
@[simp] theorem clearFlags_errCycle (m : BitVec 3) (s : State) : (clearFlags m s).errCycle = (s.errCycle && !m.getLsbD 2) := rfl
@[simp] theorem clearFlags_errcmd (m : BitVec 3) (s : State) : (clearFlags m s).errcmd = s.errcmd := rfl
@[simp] theorem clearFlags_bufcnt (m : BitVec 3) (s : State) : (clearFlags m s).bufcnt = s.bufcnt := rfl
@[simp] theorem clearFlags_cmdq (m : BitVec 3) (s : State) : (clearFlags m s).cmdq = s.cmdq := rfl
@[simp] theorem clearFlags_out (m : BitVec 3) (s : State) : (clearFlags m s).out = s.out := rfl
@[simp] theorem clearFlags_schedule (m : BitVec 3) (s : State) : (clearFlags m s).schedule = s.schedule := rfl
@[simp] theorem clearFlags_reads (m : BitVec 3) (s : State) : (clearFlags m s).reads = s.reads := rfl

/-! ## The reset state -/

@[simp] theorem State.resetWith_params (p : Params) : (State.resetWith p).params = p := rfl
@[simp] theorem State.resetWith_grid (p : Params) : (State.resetWith p).grid = ⟨[]⟩ := rfl
@[simp] theorem State.resetWith_ctlFreq (p : Params) : (State.resetWith p).ctlFreq = 0 := rfl
@[simp] theorem State.resetWith_ctlVol (p : Params) : (State.resetWith p).ctlVol = 0 := rfl
@[simp] theorem State.resetWith_ctlShape (p : Params) : (State.resetWith p).ctlShape = 0 := rfl
@[simp] theorem State.resetWith_ctlModidx (p : Params) : (State.resetWith p).ctlModidx = 0 := rfl
@[simp] theorem State.resetWith_ctlMaster (p : Params) : (State.resetWith p).ctlMaster = 0 := rfl
@[simp] theorem State.resetWith_modeAdd (p : Params) : (State.resetWith p).modeAdd = false := rfl
@[simp] theorem State.resetWith_run (p : Params) : (State.resetWith p).run = false := rfl
@[simp] theorem State.resetWith_errIllegal (p : Params) : (State.resetWith p).errIllegal = false := rfl
@[simp] theorem State.resetWith_errRange (p : Params) : (State.resetWith p).errRange = false := rfl
@[simp] theorem State.resetWith_errCycle (p : Params) : (State.resetWith p).errCycle = false := rfl
@[simp] theorem State.resetWith_errcmd (p : Params) : (State.resetWith p).errcmd = 0 := rfl
@[simp] theorem State.resetWith_bufcnt (p : Params) : (State.resetWith p).bufcnt = 0 := rfl
@[simp] theorem State.resetWith_cmdq (p : Params) : (State.resetWith p).cmdq = [] := rfl
@[simp] theorem State.resetWith_out (p : Params) : (State.resetWith p).out = [] := rfl
@[simp] theorem State.resetWith_schedule (p : Params) : (State.resetWith p).schedule = [] := rfl
@[simp] theorem State.resetWith_reads (p : Params) : (State.resetWith p).reads = [] := rfl

/-! ## Cells -/

@[simp] theorem State.cell_modifyCell_self (s : State) (r c : Nat) (f : Cell → Cell) :
    (s.modifyCell r c f).grid.get (r, c) = f (s.grid.get (r, c)) := by
  simp [State.modifyCell, Grid.modify]

@[simp] theorem Cell.zero_active : Cell.zero.active = false := rfl
@[simp] theorem Cell.zero_modulator : Cell.zero.modulator = none := rfl
@[simp] theorem Cell.zero_modv : Cell.zero.modv = false := rfl
@[simp] theorem Cell.zero_vol : Cell.zero.vol = 0 := rfl
@[simp] theorem Cell.zero_modrow : Cell.zero.modrow = 0 := rfl
@[simp] theorem Cell.zero_modcol : Cell.zero.modcol = 0 := rfl

@[simp] theorem Cell.clearRef_active (x : Cell) : x.clearRef.active = x.active := rfl
@[simp] theorem Cell.clearRef_freq (x : Cell) : x.clearRef.freq = x.freq := rfl
@[simp] theorem Cell.clearRef_vol (x : Cell) : x.clearRef.vol = x.vol := rfl
@[simp] theorem Cell.clearRef_shape (x : Cell) : x.clearRef.shape = x.shape := rfl
@[simp] theorem Cell.clearRef_phase (x : Cell) : x.clearRef.phase = x.phase := rfl
@[simp] theorem Cell.clearRef_modidx (x : Cell) : x.clearRef.modidx = x.modidx := rfl
@[simp] theorem Cell.clearRef_modv (x : Cell) : x.clearRef.modv = false := rfl
@[simp] theorem Cell.clearRef_modrow (x : Cell) : x.clearRef.modrow = 0 := rfl
@[simp] theorem Cell.clearRef_modcol (x : Cell) : x.clearRef.modcol = 0 := rfl
@[simp] theorem Cell.clearRef_modulator (x : Cell) : x.clearRef.modulator = none := rfl
@[simp] theorem Cell.clearRef_zero : Cell.zero.clearRef = Cell.zero := rfl

@[simp] theorem Cell.setRef_active (mr mc : Coord) (i : IndexWord) (x : Cell) : (x.setRef mr mc i).active = x.active := rfl
@[simp] theorem Cell.setRef_freq (mr mc : Coord) (i : IndexWord) (x : Cell) : (x.setRef mr mc i).freq = x.freq := rfl
@[simp] theorem Cell.setRef_vol (mr mc : Coord) (i : IndexWord) (x : Cell) : (x.setRef mr mc i).vol = x.vol := rfl
@[simp] theorem Cell.setRef_shape (mr mc : Coord) (i : IndexWord) (x : Cell) : (x.setRef mr mc i).shape = x.shape := rfl
@[simp] theorem Cell.setRef_phase (mr mc : Coord) (i : IndexWord) (x : Cell) : (x.setRef mr mc i).phase = x.phase := rfl
@[simp] theorem Cell.setRef_modidx (mr mc : Coord) (i : IndexWord) (x : Cell) : (x.setRef mr mc i).modidx = i := rfl
@[simp] theorem Cell.setRef_modv (mr mc : Coord) (i : IndexWord) (x : Cell) : (x.setRef mr mc i).modv = true := rfl
@[simp] theorem Cell.setRef_modrow (mr mc : Coord) (i : IndexWord) (x : Cell) : (x.setRef mr mc i).modrow = mr := rfl
@[simp] theorem Cell.setRef_modcol (mr mc : Coord) (i : IndexWord) (x : Cell) : (x.setRef mr mc i).modcol = mc := rfl
@[simp] theorem Cell.setRef_modulator (mr mc : Coord) (i : IndexWord) (x : Cell) :
    (x.setRef mr mc i).modulator = some (mr.toNat, mc.toNat) := rfl

/-! ## Sequencing -/

@[simp] theorem andThen_next (s : State) (f : State → Result) : andThen (.next s) f = f s := rfl

/-- A sequence answers a next state exactly when both parts do. -/
theorem andThen_eq_next {o : Result} {f : State → Result} {t : State} :
    andThen o f = .next t ↔ ∃ s, o = .next s ∧ f s = .next t := by
  cases o <;> simp [andThen]

end Sys2Proof.Machine
end

