-- ==== Sys2Proof/Laws/Commands.lean ====
section
/-! SUPPORT. What the shared operations of the commands do, each said once: the range and volume checks, the write to an active
cell, activation, the cascade of a deactivation, the four outcomes of `LINK`. -/

namespace Sys2Proof.Machine

/-! ## Checks -/

theorem inGrid_iff (p : Params) (r c : Coord) : inGrid p r c = true ↔ r.toNat < p.rows ∧ c.toNat < p.cols := by
  simp [inGrid]

theorem VolumeWord.legal_iff (v : VolumeWord) : VolumeWord.legal v = true ↔ v.toNat ≤ 0x8000 := by
  simp [VolumeWord.legal]

theorem checkRange_pos {i : Instr} {ok : Bool} {f : State → State} {s : State} (h : ok = true) :
    checkRange i ok f s = f s := by
  simp [checkRange, h]

theorem checkRange_neg {i : Instr} {ok : Bool} {f : State → State} {s : State} (h : ok = false) :
    checkRange i ok f s = flagError .range (encode i) s := by
  simp [checkRange, h]

theorem checkVolume_pos {i : Instr} {v : VolumeWord} {f : State → State} {s : State} (h : v.toNat ≤ 0x8000) :
    checkVolume i v f s = f s := by
  simp [checkVolume, VolumeWord.legal, h]

theorem checkVolume_neg {i : Instr} {v : VolumeWord} {f : State → State} {s : State} (h : ¬v.toNat ≤ 0x8000) :
    checkVolume i v f s = flagError .illegal (encode i) s := by
  simp [checkVolume, VolumeWord.legal, h]

theorem onActive_pos {r c : Coord} {f : Cell → Cell} {s : State} (h : (s.cell r.toNat c.toNat).active = true) :
    onActive r c f s = s.modifyCell r.toNat c.toNat f := by
  simp [onActive, State.target, h]

theorem onActive_neg {r c : Coord} {f : Cell → Cell} {s : State} (h : (s.cell r.toNat c.toNat).active = false) :
    onActive r c f s = s := by
  simp [onActive, State.target, h]

theorem hasActiveRight_iff (s : State) (r c : Coord) :
    hasActiveRight s r c = true ↔ c.toNat + 1 < s.params.cols ∧ (s.cell r.toNat (c.toNat + 1)).active = true := by
  simp [hasActiveRight]

theorem Coord.toNat_eq_zero_iff (c : Coord) : c = 0#8 ↔ c.toNat = 0 := by
  rw [← BitVec.toNat_inj]; simp

/-! ## ACTIVATE -/

theorem mayActivate_iff (s : State) (r c : Coord) :
    mayActivate s r c = true ↔ c = 0#8 ∨ (s.cell r.toNat (c.toNat - 1)).active = true := by
  simp [mayActivate]

/-- `ACTIVATE` changes nothing but the grid. -/
theorem activateCell_eq (r c : Coord) (s : State) : activateCell r c s = { s with grid := (activateCell r c s).grid } := by
  unfold activateCell linkPredecessor
  split_ifs <;> rfl

/-- A successful `ACTIVATE`, place by place (43 R170). -/
theorem activateCell_get {r c : Coord} {s : State} (h : mayActivate s r c = true) (l : Loc) :
    (activateCell r c s).grid.get l =
      if l = (r.toNat, c.toNat) then activatedCell s r c (s.grid.get l)
      else if c ≠ 0#8 ∧ l = (r.toNat, c.toNat - 1) then (s.grid.get l).setRef r c s.ctlModidx
      else s.grid.get l := by
  unfold activateCell linkPredecessor
  rw [if_pos h]
  by_cases hc : c = 0#8
  · simp only [hc, ↓reduceIte, State.modifyCell_grid, Grid.get_modify]
    split_ifs with h1 h2 <;> simp_all
  · have hne : (r.toNat, c.toNat - 1) ≠ (r.toNat, c.toNat) := by
      have : c.toNat ≠ 0 := fun h0 => hc ((Coord.toNat_eq_zero_iff c).mpr h0)
      simp only [ne_eq, Prod.mk.injEq, true_and]; omega
    simp only [hc, ↓reduceIte, State.modifyCell_grid, Grid.get_modify]
    by_cases h1 : l = (r.toNat, c.toNat)
    · subst h1; simp [Ne.symm hne]
    · by_cases h2 : l = (r.toNat, c.toNat - 1)
      · subst h2; simp [hc, hne]
      · simp [h1, h2]

theorem activateCell_wf {r c : Coord} {s : State} (h : s.grid.wf = true) : (activateCell r c s).grid.wf = true := by
  unfold activateCell linkPredecessor
  split_ifs
  · exact Grid.wf_modify h _ _
  · exact Grid.wf_modify (Grid.wf_modify h _ _) _ _
  · exact h

/-! ## DEACTIVATE -/

/-- Clearing the references to a place, cell by cell (43 R174). -/
theorem clearRefsTo_get (l : Loc) (g : Grid) (l' : Loc) :
    (clearRefsTo l g).get l' = if (g.get l').modulator = some l then (g.get l').clearRef else g.get l' :=
  Grid.get_mapCells g (by simp) l'

theorem deactivateCell_get (l : Loc) (g : Grid) (l' : Loc) :
    (deactivateCell l g).get l' =
      if (g.get l).active = true then
        if l' = l then Cell.zero else if (g.get l').modulator = some l then (g.get l').clearRef else g.get l'
      else g.get l' := by
  unfold deactivateCell
  split_ifs with h1 h2 h3
  · simp [h2]
  · rw [Grid.get_set_ne _ _ h2, clearRefsTo_get, if_pos h3]
  · rw [Grid.get_set_ne _ _ h2, clearRefsTo_get, if_neg h3]
  · rfl

/-- A round leaves the activity of every other place alone. -/
theorem deactivateCell_active_ne (l : Loc) (g : Grid) {l' : Loc} (h : l' ≠ l) :
    ((deactivateCell l g).get l').active = (g.get l').active := by
  rw [deactivateCell_get]
  split_ifs <;> simp

/-- The places a cascade clears: row `r`, columns `c` to `c + n - 1`, where active. -/
def InCascade (r c n : Nat) (g : Grid) (l : Loc) : Prop :=
  l.1 = r ∧ c ≤ l.2 ∧ l.2 < c + n ∧ (g.get l).active = true

/-- The whole cascade, place by place: a cleared place becomes `ZEROCELL`, a cell that refers to one loses its reference
and keeps its index, every other cell stays (43 R173, R174). -/
theorem cascade_get (r c n : Nat) (g : Grid) (l : Loc) :
    (InCascade r c n g l → (cascade r c n g).get l = Cell.zero) ∧
    (¬InCascade r c n g l → (∃ m, (g.get l).modulator = some m ∧ InCascade r c n g m) →
      (cascade r c n g).get l = (g.get l).clearRef) ∧
    (¬InCascade r c n g l → (∀ m, (g.get l).modulator = some m → ¬InCascade r c n g m) →
      (cascade r c n g).get l = g.get l) := by
  induction n generalizing g with
  | zero =>
    refine ⟨fun h => ?_, fun _ ⟨m, _, hm⟩ => ?_, fun _ _ => rfl⟩
    · obtain ⟨_, h1, h2, _⟩ := h; omega
    · obtain ⟨_, h1, h2, _⟩ := hm; omega
  | succ n ih =>
    have step : ∀ m : Loc, InCascade r c n (deactivateCell (r, c + n) g) m ↔ InCascade r c n g m := by
      intro m
      unfold InCascade
      constructor <;> rintro ⟨h1, h2, h3, h4⟩ <;>
        (have hne : m ≠ (r, c + n) := fun hm => by rw [hm] at h3; simp at h3
         rw [deactivateCell_active_ne _ _ hne] at *
         exact ⟨h1, h2, h3, h4⟩)
    have split : ∀ m : Loc, InCascade r c (n + 1) g m ↔
        InCascade r c n g m ∨ (m = (r, c + n) ∧ (g.get m).active = true) := by
      intro m
      unfold InCascade
      constructor
      · rintro ⟨h1, h2, h3, h4⟩
        by_cases hlast : m.2 = c + n
        · exact Or.inr ⟨Prod.ext h1 hlast, h4⟩
        · exact Or.inl ⟨h1, h2, by omega, h4⟩
      · rintro (⟨h1, h2, h3, h4⟩ | ⟨rfl, h4⟩)
        · exact ⟨h1, h2, by omega, h4⟩
        · exact ⟨rfl, by simp, by simp, h4⟩
    obtain ⟨i1, i2, i3⟩ := ih (deactivateCell (r, c + n) g)
    simp only [step] at i1 i2 i3
    have hget := deactivateCell_get (r, c + n) g l
    rw [cascade]
    refine ⟨fun h => ?_, fun hn hm => ?_, fun hn hm => ?_⟩
    · rcases (split l).mp h with h | ⟨rfl, hact⟩
      · exact i1 h
      · by_cases hc : InCascade r c n g (r, c + n)
        · exact i1 hc
        · have hz : (deactivateCell (r, c + n) g).get (r, c + n) = Cell.zero := by rw [hget]; simp [hact]
          rw [i3 hc (by simp [hz]), hz]
    · have hn' : ¬InCascade r c n g l := fun h => hn ((split l).mpr (Or.inl h))
      obtain ⟨m, hm1, hm2⟩ := hm
      by_cases hact : (g.get (r, c + n)).active = true
      · have hl : l ≠ (r, c + n) := fun hl => hn ((split l).mpr (Or.inr ⟨hl, hl ▸ hact⟩))
        by_cases hlast : m = (r, c + n)
        · subst hlast
          have hx : (deactivateCell (r, c + n) g).get l = (g.get l).clearRef := by rw [hget]; simp [hact, hl, hm1]
          rw [i3 hn' (by simp [hx]), hx]
        · have hx : (deactivateCell (r, c + n) g).get l = g.get l := by
            rw [hget]; simp [hact, hl, hm1, hlast]
          rcases (split m).mp hm2 with h | ⟨h, _⟩
          · rw [i2 hn' ⟨m, by rw [hx]; exact hm1, h⟩, hx]
          · exact absurd h hlast
      · have hx : (deactivateCell (r, c + n) g).get l = g.get l := by rw [hget]; simp [hact]
        rcases (split m).mp hm2 with h | ⟨rfl, h⟩
        · rw [i2 hn' ⟨m, by rw [hx]; exact hm1, h⟩, hx]
        · exact absurd h hact
    · have hn' : ¬InCascade r c n g l := fun h => hn ((split l).mpr (Or.inl h))
      have hx : (deactivateCell (r, c + n) g).get l = g.get l := by
        rw [hget]
        by_cases hact : (g.get (r, c + n)).active = true
        · have hl : l ≠ (r, c + n) := fun hl => hn ((split l).mpr (Or.inr ⟨hl, hl ▸ hact⟩))
          have hne : (g.get l).modulator ≠ some (r, c + n) :=
            fun h => hm _ h ((split _).mpr (Or.inr ⟨rfl, hact⟩))
          simp [hact, hl, hne]
        · simp [hact]
      rw [i3 hn' (fun m h hc => hm m (by rwa [hx] at h) ((split m).mpr (Or.inl hc))), hx]

theorem deactivateCell_wf {l : Loc} {g : Grid} (h : g.wf = true) : (deactivateCell l g).wf = true := by
  unfold deactivateCell clearRefsTo
  split_ifs
  · exact Grid.wf_set (Grid.wf_mapCells h _) _ _
  · exact h

theorem cascade_wf {r c n : Nat} {g : Grid} (h : g.wf = true) : (cascade r c n g).wf = true := by
  induction n generalizing g with
  | zero => exact h
  | succ n ih => exact ih (deactivateCell_wf h)

theorem deactivateFrom_pos {r c : Coord} {s : State} (h : (s.cell r.toNat c.toNat).active = true) :
    deactivateFrom r c s = { s with grid := cascade r.toNat c.toNat (s.params.cols - c.toNat) s.grid } := by
  simp [deactivateFrom, State.target, h]

theorem deactivateFrom_neg {r c : Coord} {s : State} (h : (s.cell r.toNat c.toNat).active = false) :
    deactivateFrom r c s = s := by
  simp [deactivateFrom, State.target, h]

/-! ## LINK and UNLINK -/

/-- `LINK` on cells in the grid has three outcomes: nothing, `ERR_CYCLE`, or the reference (43 R175, 60 R264). -/
theorem linkCells_cases (w : CommandWord) (r c mr mc : Coord) (s : State) :
    (linkCells w r c mr mc s = s ∧
      ((s.target r c).active = false ∨ (s.target mr mc).active = false ∨ hasActiveRight s r c = true)) ∨
    ((s.target r c).active = true ∧ (s.target mr mc).active = true ∧ hasActiveRight s r c = false ∧
      ((reaches s.grid (place r c) s.params.cells (place mr mc) = true ∧ linkCells w r c mr mc s = flagError .cycle w s) ∨
        (reaches s.grid (place r c) s.params.cells (place mr mc) = false ∧
          linkCells w r c mr mc s = s.modifyCell r.toNat c.toNat (Cell.setRef mr mc s.ctlModidx)))) := by
  unfold linkCells
  cases h1 : (s.target r c).active <;> cases h2 : (s.target mr mc).active <;> cases h3 : hasActiveRight s r c <;>
    cases h4 : reaches s.grid (place r c) s.params.cells (place mr mc) <;> simp

/-- `UNLINK` on a cell in the grid does nothing or clears the reference (43 R176). -/
theorem unlinkCell_cases (r c : Coord) (s : State) :
    (unlinkCell r c s = s ∧ ((s.target r c).active = false ∨ hasActiveRight s r c = true)) ∨
    ((s.target r c).active = true ∧ hasActiveRight s r c = false ∧
      unlinkCell r c s = s.modifyCell r.toNat c.toNat Cell.clearRef) := by
  unfold unlinkCell
  cases h1 : (s.target r c).active <;> cases h2 : hasActiveRight s r c <;> simp

end Sys2Proof.Machine
end

