-- ==== Sys2Proof/Laws/Decode.lean ====
section
/-! SUPPORT. The fields of a packed word, that a word is packed from its own fields (spec 30 R90, R91), and what the field checks
of decoding answer. -/

namespace Sys2Proof

/-! ## Packing and unpacking -/

/-- Bit by bit, where the five fields lie (30 R90). -/
theorem getLsbD_packFields (opc : BitVec 8) (row col : Coord) (rsv : BitVec 8) (imm : BitVec 32) (i : Nat) :
    (packFields opc row col rsv imm).getLsbD i =
      if i < 32 then imm.getLsbD i
      else if i < 40 then rsv.getLsbD (i - 32)
      else if i < 48 then col.getLsbD (i - 40)
      else if i < 56 then row.getLsbD (i - 48)
      else opc.getLsbD (i - 56) := by
  unfold packFields
  show BitVec.getLsbD (w := 8 + 8 + 8 + 8 + 32) _ i = _
  simp only [BitVec.getLsbD_append, Nat.sub_sub]
  split_ifs <;> first | rfl | omega

section
variable (opc : BitVec 8) (row col : Coord) (rsv : BitVec 8) (imm : BitVec 32)

@[simp] theorem opcOf_packFields : opcOf (packFields opc row col rsv imm) = opc := by
  ext i hi
  rw [opcOf, BitVec.getElem_extractLsb', getLsbD_packFields, if_neg (by omega), if_neg (by omega), if_neg (by omega),
    if_neg (by omega), show 56 + i - 56 = i by omega, BitVec.getLsbD_eq_getElem hi]

@[simp] theorem rowOf_packFields : rowOf (packFields opc row col rsv imm) = row := by
  ext i hi
  rw [rowOf, BitVec.getElem_extractLsb', getLsbD_packFields, if_neg (by omega), if_neg (by omega), if_neg (by omega),
    if_pos (by omega), show 48 + i - 48 = i by omega, BitVec.getLsbD_eq_getElem hi]

@[simp] theorem colOf_packFields : colOf (packFields opc row col rsv imm) = col := by
  ext i hi
  rw [colOf, BitVec.getElem_extractLsb', getLsbD_packFields, if_neg (by omega), if_neg (by omega),
    if_pos (by omega), show 40 + i - 40 = i by omega, BitVec.getLsbD_eq_getElem hi]

@[simp] theorem rsvOf_packFields : rsvOf (packFields opc row col rsv imm) = rsv := by
  ext i hi
  rw [rsvOf, BitVec.getElem_extractLsb', getLsbD_packFields, if_neg (by omega),
    if_pos (by omega), show 32 + i - 32 = i by omega, BitVec.getLsbD_eq_getElem hi]

@[simp] theorem immOf_packFields : immOf (packFields opc row col rsv imm) = imm := by
  ext i hi
  rw [immOf, BitVec.getElem_extractLsb', getLsbD_packFields,
    if_pos (by omega), show 0 + i = i by omega, BitVec.getLsbD_eq_getElem hi]

end

/-- A word is the packing of its own fields. -/
theorem packFields_fields (w : CommandWord) : packFields (opcOf w) (rowOf w) (colOf w) (rsvOf w) (immOf w) = w := by
  apply BitVec.eq_of_getLsbD_eq
  intro i hi
  rw [getLsbD_packFields]
  simp only [opcOf, rowOf, colOf, rsvOf, immOf, BitVec.getLsbD_extractLsb']
  have h32 : i < 32 → 0 + i = i := by omega
  have h40 : ¬i < 32 → 32 + (i - 32) = i := by omega
  have h48 : ¬i < 40 → 40 + (i - 40) = i := by omega
  have h56 : ¬i < 48 → 48 + (i - 48) = i := by omega
  have h64 : ¬i < 56 → 56 + (i - 56) = i := by omega
  split_ifs with h1 h2 h3 h4
  · simp [h1]
  · simp [h40 h1]; omega
  · simp [h48 h2]; omega
  · simp [h56 h3]; omega
  · simp [h64 h4]; omega

/-! ## Narrow immediates -/

/-- A number below `2^n` survives the cut to `n` bits. -/
theorem setWidth_extractLsb'_of_lt {n : Nat} (imm : BitVec 32) (hn : n ≤ 32) (h : imm.toNat < 2 ^ n) :
    (imm.extractLsb' 0 n).setWidth 32 = imm := by
  apply BitVec.eq_of_toNat_eq
  have : 2 ^ n ≤ 2 ^ 32 := Nat.pow_le_pow_right (by omega) hn
  rw [BitVec.toNat_setWidth, BitVec.extractLsb'_toNat, Nat.shiftRight_zero, Nat.mod_eq_of_lt h, Nat.mod_eq_of_lt (by omega)]

/-- Widening and cutting back is the identity. -/
theorem extractLsb'_setWidth {n : Nat} (x : BitVec n) (hn : n ≤ 32) : (x.setWidth 32).extractLsb' 0 n = x := by
  apply BitVec.eq_of_toNat_eq
  have h1 := x.isLt
  have : 2 ^ n ≤ 2 ^ 32 := Nat.pow_le_pow_right (by omega) hn
  rw [BitVec.extractLsb'_toNat, Nat.shiftRight_zero, BitVec.toNat_setWidth, Nat.mod_eq_of_lt (a := x.toNat) (b := 2 ^ 32) (by omega), Nat.mod_eq_of_lt h1]

/-- `LINK`'s immediate, `(MROW << 8) | MCOL` (30 R93, R110). -/
theorem toNat_linkImm (mr mc : Coord) : ((mr ++ mc).setWidth 32 : BitVec 32).toNat = mr.toNat * 256 + mc.toNat := by
  have := mr.isLt; have := mc.isLt
  rw [BitVec.toNat_setWidth, BitVec.toNat_append, Nat.shiftLeft_eq, Nat.mul_comm mr.toNat (2 ^ 8),
    ← Nat.two_pow_add_eq_or_of_lt mc.isLt]
  omega

/-- `MROW = IMM[15:8]` of a packed `LINK` immediate. -/
theorem mrow_linkImm (mr mc : Coord) : ((mr ++ mc).setWidth 32 : BitVec 32).extractLsb' 8 8 = mr := by
  apply BitVec.eq_of_toNat_eq
  have := mr.isLt; have := mc.isLt
  rw [BitVec.extractLsb'_toNat, toNat_linkImm, Nat.shiftRight_eq_div_pow]; omega

/-- `MCOL = IMM[7:0]` of a packed `LINK` immediate. -/
theorem mcol_linkImm (mr mc : Coord) : ((mr ++ mc).setWidth 32 : BitVec 32).extractLsb' 0 8 = mc := by
  apply BitVec.eq_of_toNat_eq
  have := mr.isLt; have := mc.isLt
  rw [BitVec.extractLsb'_toNat, toNat_linkImm, Nat.shiftRight_eq_div_pow]; omega

/-- A 16-bit immediate is packed from its two bytes. -/
theorem linkImm_of_lt (imm : BitVec 32) (h : imm.toNat ≤ 0xFFFF) :
    ((imm.extractLsb' 8 8 ++ imm.extractLsb' 0 8).setWidth 32 : BitVec 32) = imm := by
  apply BitVec.eq_of_toNat_eq
  rw [toNat_linkImm, BitVec.extractLsb'_toNat, BitVec.extractLsb'_toNat, Nat.shiftRight_eq_div_pow,
    Nat.shiftRight_eq_div_pow]
  omega

/-! ## The field checks -/

/-- Formats C and CI: exactly when the checks pass. -/
theorem checkRsvImm_ok {w : CommandWord} {m : Nat} {i j : Instr} :
    checkRsvImm w m i = .ok j ↔ rsvOf w = 0#8 ∧ (immOf w).toNat ≤ m ∧ i = j := by
  unfold checkRsvImm
  split_ifs with h1 h2 <;> simp_all

/-- Formats Z and I: exactly when the checks pass. -/
theorem checkNoCell_ok {w : CommandWord} {m : Nat} {i j : Instr} :
    checkNoCell w m i = .ok j ↔
      rowOf w = 0#8 ∧ colOf w = 0#8 ∧ rsvOf w = 0#8 ∧ (immOf w).toNat ≤ m ∧ i = j := by
  unfold checkNoCell
  split_ifs with h1
  · simp only [false_iff]; tauto
  · rw [checkRsvImm_ok]; tauto

/-- The bytes of a command word are those of a command file, and read back (20 R73). -/
theorem wordOfBytes_commandBytes (w : CommandWord) (rest : List Byte) :
    wordOfBytes (commandBytes w ++ rest) = some (w, rest) := by
  simp only [commandBytes, List.cons_append, List.nil_append, wordOfBytes, Option.some.injEq, Prod.mk.injEq, and_true]
  apply BitVec.eq_of_getLsbD_eq
  intro i hi
  show BitVec.getLsbD (w := 8 + 8 + 8 + 8 + 8 + 8 + 8 + 8) _ i = _
  simp only [BitVec.getLsbD_append, BitVec.getLsbD_extractLsb', Nat.sub_sub]
  split_ifs <;> simp <;> (try rw [Nat.add_sub_cancel' (by omega)]) <;> (try simp) <;> omega

/-- Decoding a table row's word is decoding the 64-bit word. -/
theorem decodeTableWord_eq (nbits w : Nat) :
    decodeTableWord nbits w =
      match decode (BitVec.ofNat 64 (w % 2 ^ nbits)) with
      | .ok i => some i
      | .illegal _ => none := by
  have := wordOfBytes_commandBytes (BitVec.ofNat 64 (w % 2 ^ nbits)) []
  rw [List.append_nil] at this
  simp only [decodeTableWord, tableBytes, decodeBytes, this] <;> rfl

end Sys2Proof
end

