-- ==== Sys2Proof/Laws/Engine.lean ====
section
/-! SUPPORT. What applying a command can do to the parts of the state no command writes, and the buffer step taken apart command by
command, so that no proof unfolds the drain. -/

namespace Sys2Proof.Machine

/-! ## What no command writes (45 R242) -/

/-- `t` has the parameters, queue, output, counter, schedule and record of reads of `s`. -/
structure EngineFrame (s t : State) : Prop where
  params   : t.params = s.params
  cmdq     : t.cmdq = s.cmdq
  out      : t.out = s.out
  bufcnt   : t.bufcnt = s.bufcnt
  schedule : t.schedule = s.schedule
  reads    : t.reads = s.reads

theorem EngineFrame.refl (s : State) : EngineFrame s s := ⟨rfl, rfl, rfl, rfl, rfl, rfl⟩

theorem EngineFrame.grid (s : State) (g : Grid) : EngineFrame s { s with grid := g } := ⟨rfl, rfl, rfl, rfl, rfl, rfl⟩

theorem EngineFrame.flag (e : ErrKind) (w : CommandWord) (s : State) : EngineFrame s (flagError e w s) := by
  cases e <;> exact ⟨rfl, rfl, rfl, rfl, rfl, rfl⟩

theorem EngineFrame.range {i : Instr} {ok : Bool} {f : State → State} {s : State} (h : EngineFrame s (f s)) :
    EngineFrame s (checkRange i ok f s) := by
  unfold checkRange; split_ifs
  · exact h
  · exact .flag _ _ _

theorem EngineFrame.volume {i : Instr} {v : VolumeWord} {f : State → State} {s : State} (h : EngineFrame s (f s)) :
    EngineFrame s (checkVolume i v f s) := by
  unfold checkVolume; split_ifs
  · exact h
  · exact .flag _ _ _

theorem EngineFrame.active (r c : Coord) (f : Cell → Cell) (s : State) : EngineFrame s (onActive r c f s) := by
  unfold onActive; split_ifs
  · exact .grid _ _
  · exact .refl s

theorem exec_next (i : Instr) (s : State) : ∃ t, exec i s = .next t := by
  cases i <;> exact ⟨_, rfl⟩

theorem exec_engineFrame {i : Instr} {s t : State} (h : exec i s = .next t) : EngineFrame s t := by
  cases i <;> obtain rfl := Host.Outcome.next.inj h
  case setVol => exact .volume ⟨rfl, rfl, rfl, rfl, rfl, rfl⟩
  case setMaster => exact .volume ⟨rfl, rfl, rfl, rfl, rfl, rfl⟩
  case activate r c => exact .range (by rw [activateCell_eq]; exact .grid _ _)
  case deactivate r c =>
    refine .range ?_
    unfold deactivateFrom; split_ifs
    · exact .grid _ _
    · exact .refl s
  case link r c mr mc =>
    refine .range ?_
    unfold linkCells; split_ifs
    · exact .refl s
    · exact .refl s
    · exact .flag _ _ _
    · exact .grid _ _
  case unlink r c =>
    refine .range ?_
    unfold unlinkCell; split_ifs
    · exact .refl s
    · exact .refl s
    · exact .grid _ _
  case opVol => exact .volume (.range (.active _ _ _ _))
  case opFreq => exact .range (.active _ _ _ _)
  case opShape => exact .range (.active _ _ _ _)
  case opModIdx => exact .range (.active _ _ _ _)
  all_goals exact ⟨rfl, rfl, rfl, rfl, rfl, rfl⟩

/-! ## Applying a word -/

theorem applyWord_next (w : CommandWord) (s : State) : ∃ t, applyWord w s = .next t := by
  unfold applyWord; split
  · exact exec_next _ _
  · exact ⟨_, rfl⟩

theorem applyWord_engineFrame {w : CommandWord} {s t : State} (h : applyWord w s = .next t) : EngineFrame s t := by
  unfold applyWord at h; split at h
  · exact exec_engineFrame h
  · obtain rfl := Host.Outcome.next.inj h; exact .flag _ _ _

theorem applyHead_cons {s : State} {w : CommandWord} {q : List CommandWord} (h : s.cmdq = w :: q) :
    applyHead s = applyWord w { s with cmdq := q } := by
  simp [applyHead, popCommand, h]

theorem applyHead_nil {s : State} (h : s.cmdq = []) : applyHead s = .next s := by
  simp [applyHead, popCommand, h]

/-! ## The buffer step, command by command (44 R209) -/

theorem drain_zero (s : State) : drain 0 s = .next s := rfl

theorem drain_succ (k : Nat) (s : State) :
    drain (k + 1) s = andThen (applyHead s) (fun s' => if s'.run then drain k s' else .next s') := rfl

theorem engineBuffer_nil {s : State} (hr : s.run = true) (hq : s.cmdq = []) : engineBuffer s = .next (emitBuffer s) := by
  simp [engineBuffer, hq, drain_zero, hr]

theorem engineBuffer_cons {s t : State} {w : CommandWord} {q : List CommandWord} (hq : s.cmdq = w :: q)
    (ht : applyWord w { s with cmdq := q } = .next t) :
    engineBuffer s = if t.run then engineBuffer t else .next t := by
  have hf : t.cmdq = q := (applyWord_engineFrame ht).cmdq
  have hl : s.cmdq.length = q.length + 1 := by simp [hq]
  unfold engineBuffer
  rw [hl, drain_succ, applyHead_cons hq, ht, andThen_next]
  by_cases h : t.run = true <;> simp [h, hf]

/-- Induction over a buffer step: it emits with an empty queue, stops at a command that stops the block, or applies a command and goes on. -/
theorem engineBuffer_induct {P : State → State → Prop}
    (emit : ∀ s, s.run = true → s.cmdq = [] → P s (emitBuffer s))
    (stop : ∀ s w q t, s.run = true → s.cmdq = w :: q → applyWord w { s with cmdq := q } = .next t → t.run = false → P s t)
    (more : ∀ s w q t u, s.run = true → s.cmdq = w :: q → applyWord w { s with cmdq := q } = .next t → t.run = true →
      P t u → P s u) {s t : State} (hr : s.run = true) (h : engineBuffer s = .next t) : P s t := by
  induction hn : s.cmdq.length generalizing s with
  | zero =>
    have hq := List.length_eq_zero_iff.mp hn
    rw [engineBuffer_nil hr hq] at h
    obtain rfl := Host.Outcome.next.inj h
    exact emit s hr hq
  | succ n ih =>
    obtain ⟨w, q, hq⟩ := List.exists_cons_of_length_eq_add_one hn
    obtain ⟨u, hu⟩ := applyWord_next w { s with cmdq := q }
    rw [engineBuffer_cons hq hu] at h
    by_cases hur : u.run = true
    · simp only [hur, ↓reduceIte] at h
      refine more s w q u t hr hq hu hur (ih hur h ?_)
      rw [(applyWord_engineFrame hu).cmdq]
      simpa [hq] using hn
    · simp only [hur] at h
      obtain rfl := Host.Outcome.next.inj h
      exact stop s w q u hr hq hu (by simpa using hur)

end Sys2Proof.Machine
end

