-- ==== Sys2Proof/Laws/Graph.lean ====
section
/-! SUPPORT. The modulation graph: walks along references, the bound an acyclic graph puts on their length (spec 10 R42), and what
the cycle check decides (43 R177). -/

namespace Sys2Proof.Machine

/-! ## Walks -/

@[simp] theorem Grid.walk_zero (g : Grid) (l : Loc) : g.walk 0 l = some l := rfl

theorem Grid.walk_succ (g : Grid) (k : Nat) (l : Loc) : g.walk (k + 1) l = (g.get l).modulator.bind (g.walk k) := by
  rw [Grid.walk]; cases (g.get l).modulator <;> rfl

theorem Grid.walk_add (g : Grid) (j k : Nat) (l : Loc) : g.walk (j + k) l = (g.walk j l).bind (g.walk k) := by
  induction j generalizing l with
  | zero => simp
  | succ j ih =>
    rw [Nat.succ_add, Grid.walk_succ, Grid.walk_succ]
    cases (g.get l).modulator with
    | none => rfl
    | some l' => exact ih l'

theorem Grid.walk_one (g : Grid) (l : Loc) : g.walk 1 l = (g.get l).modulator := by
  rw [Grid.walk_succ]; cases (g.get l).modulator <;> rfl

/-- A shorter walk ends wherever a longer one does. -/
theorem Grid.walk_some_of_le {g : Grid} {j k : Nat} {l l' : Loc} (h : g.walk k l = some l') (hj : j ≤ k) :
    ∃ m, g.walk j l = some m ∧ g.walk (k - j) m = some l' := by
  have : g.walk (j + (k - j)) l = some l' := by rwa [Nat.add_sub_cancel' hj]
  rw [Grid.walk_add] at this
  cases hm : g.walk j l with
  | none => simp [hm] at this
  | some m => exact ⟨m, rfl, by simpa [hm] using this⟩

/-- In an acyclic graph the places of a walk are all different. -/
theorem Grid.walk_injective {g : Grid} (h : g.InvAcyclic) {i j : Nat} {l a : Loc} (hi : g.walk i l = some a)
    (hj : g.walk j l = some a) : i = j := by
  have aux : ∀ {i j : Nat}, i < j → g.walk i l = some a → g.walk j l = some a → False := by
    intro i j hij hi hj
    have : g.walk (i + (j - i)) l = some a := by rwa [Nat.add_sub_cancel' (Nat.le_of_lt hij)]
    rw [Grid.walk_add, hi] at this
    obtain ⟨k, hk⟩ : ∃ k, j - i = k + 1 := ⟨j - i - 1, by omega⟩
    exact h k a (by simpa [hk] using this)
  rcases Nat.lt_trichotomy i j with hij | hij | hij
  · exact (aux hij hi hj).elim
  · exact hij
  · exact (aux hij hj hi).elim

/-- The place a walk of one more step leaves from is one that holds a reference, so it is in the grid. -/
theorem Grid.walk_inGrid {p : Params} {g : Grid} (hb : g.InBounds p) {k : Nat} {l l' : Loc}
    (h : g.walk (k + 1) l = some l') : l.1 < p.rows ∧ l.2 < p.cols := by
  refine hb l (fun hz => ?_)
  rw [Grid.walk_succ, hz] at h
  simp at h

/-- Pigeonhole: in an acyclic grid no walk is as long as the grid has cells (10 R42, "at most `ROWS · COLS - 1` edges", for
walks whose end is in the grid too). -/
theorem Grid.walk_lt {p : Params} {g : Grid} (hb : g.InBounds p) (ha : g.InvAcyclic) {k : Nat} {l l' : Loc}
    (h : g.walk k l = some l') (hl : l'.1 < p.rows ∧ l'.2 < p.cols) : k < p.cells := by
  by_contra hge
  have hge : p.cells ≤ k := Nat.le_of_not_lt hge
  have hvisit : ∀ i : Fin (p.cells + 1), ∃ m : Fin p.rows × Fin p.cols, g.walk i.1 l = some (m.1.1, m.2.1) := by
    intro i
    obtain ⟨m, hm, hrest⟩ := Grid.walk_some_of_le h (j := i.1) (by omega)
    have hin : m.1 < p.rows ∧ m.2 < p.cols := by
      cases hk : k - i.1 with
      | zero =>
        rw [hk] at hrest
        have : m = l' := by simpa using hrest
        exact this ▸ hl
      | succ n => rw [hk] at hrest; exact Grid.walk_inGrid hb hrest
    exact ⟨(⟨m.1, hin.1⟩, ⟨m.2, hin.2⟩), hm⟩
  choose f hf using hvisit
  have hinj : Function.Injective f := by
    intro i j hij
    have : g.walk j.1 l = some ((f i).1.1, (f i).2.1) := by rw [hij]; exact hf j
    exact Fin.ext (Grid.walk_injective ha (hf i) this)
  have := Fintype.card_le_of_injective f hinj
  rw [Fintype.card_fin, Fintype.card_prod, Fintype.card_fin, Fintype.card_fin] at this
  exact absurd this (Nat.not_succ_le_self _)

/-! ## The cycle check -/

/-- With `n` looks the check finds exactly the places fewer than `n` moves away. -/
theorem reaches_iff_walk (g : Grid) (target : Loc) (n : Nat) (l : Loc) :
    reaches g target n l = true ↔ ∃ k, k < n ∧ g.walk k l = some target := by
  induction n generalizing l with
  | zero => simp [reaches]
  | succ n ih =>
    unfold reaches
    by_cases hl : l = target
    · subst hl
      simp only [↓reduceIte, true_iff]
      exact ⟨0, by omega, rfl⟩
    · simp only [hl, ↓reduceIte]
      constructor
      · intro h
        cases hm : (g.get l).modulator with
        | none => simp [hm] at h
        | some l' =>
          rw [hm] at h
          obtain ⟨k, hk, hw⟩ := (ih l').mp h
          exact ⟨k + 1, by omega, by rw [Grid.walk_succ, hm]; exact hw⟩
      · rintro ⟨k, hk, hw⟩
        cases k with
        | zero => exact absurd (by simpa using hw) hl
        | succ k =>
          rw [Grid.walk_succ] at hw
          cases hm : (g.get l).modulator with
          | none => simp [hm] at hw
          | some l' => exact (ih l').mpr ⟨k, by omega, by simpa [hm] using hw⟩

/-- The reference a walk follows last. -/
theorem Grid.walk_succ_last (g : Grid) (k : Nat) (l : Loc) :
    g.walk (k + 1) l = (g.walk k l).bind (fun m => (g.get m).modulator) := by
  rw [Grid.walk_add]
  congr 1
  funext m
  exact Grid.walk_one g m

/-- Walks depend only on the references of the grid. -/
theorem Grid.walk_congr {g h : Grid} (hm : ∀ l, (h.get l).modulator = (g.get l).modulator) (k : Nat) (l : Loc) :
    h.walk k l = g.walk k l := by
  induction k generalizing l with
  | zero => rfl
  | succ k ih =>
    rw [Grid.walk_succ, Grid.walk_succ, hm]
    cases (g.get l).modulator with
    | none => rfl
    | some l' => exact ih l'

/-- Where references are only removed, every walk that is left was there before. -/
theorem Grid.walk_of_sub {g h : Grid} (hm : ∀ l l', (h.get l).modulator = some l' → (g.get l).modulator = some l')
    {k : Nat} {l l' : Loc} (hw : h.walk k l = some l') : g.walk k l = some l' := by
  induction k generalizing l with
  | zero => simpa using hw
  | succ k ih =>
    rw [Grid.walk_succ] at hw ⊢
    cases hl : (h.get l).modulator with
    | none => simp [hl] at hw
    | some m =>
      rw [hm l m hl]
      exact ih (by simpa [hl] using hw)

theorem Grid.InvAcyclic.of_sub {g h : Grid} (ha : g.InvAcyclic)
    (hm : ∀ l l', (h.get l).modulator = some l' → (g.get l).modulator = some l') : h.InvAcyclic :=
  fun k l hw => ha k l (Grid.walk_of_sub hm hw)

/-- One new reference `a → b` closes no cycle when no walk leads from `b` to `a` without it. -/
theorem Grid.InvAcyclic.of_new_edge {g h : Grid} (ha : g.InvAcyclic) {a b : Loc}
    (hm : ∀ l l', l ≠ a → (h.get l).modulator = some l' → (g.get l).modulator = some l')
    (hab : ∀ l', (h.get a).modulator = some l' → l' = b)
    (hno : ∀ k, g.walk k b ≠ some a) : h.InvAcyclic := by
  have key : ∀ k l x, (∀ j, j < k → h.walk j l ≠ some a) → h.walk k l = some x → g.walk k l = some x := by
    intro k
    induction k with
    | zero => intro l x _ hw; simpa using hw
    | succ k ih =>
      intro l x hav hw
      have hla : l ≠ a := fun hl => hav 0 (by omega) (by simp [hl])
      rw [Grid.walk_succ] at hw ⊢
      cases hl : (h.get l).modulator with
      | none => simp [hl] at hw
      | some m =>
        rw [hm l m hla hl]
        refine ih m x (fun j hj hja => hav (j + 1) (by omega) ?_) (by simpa [hl] using hw)
        rw [Grid.walk_succ, hl]; exact hja
  intro k l hw
  by_cases hmeet : ∃ j, j ≤ k ∧ h.walk j l = some a
  · obtain ⟨j, hj, hja⟩ := hmeet
    -- the cycle, seen from `a`
    have hcyc : h.walk (k + 1) a = some a := by
      obtain ⟨m, hm1, hm2⟩ := Grid.walk_some_of_le hw (j := j) (by omega)
      rw [hja] at hm1
      obtain rfl : a = m := by simpa using hm1
      have : h.walk ((k + 1 - j) + j) a = some a := by rw [Grid.walk_add, hm2]; exact hja
      rwa [Nat.sub_add_cancel (by omega)] at this
    -- its first return to `a`
    have hex : ∃ n, h.walk (n + 1) a = some a := ⟨k, hcyc⟩
    classical
    have hn := Nat.find_spec hex
    have hmin := fun j (hj : j < Nat.find hex) => Nat.find_min hex hj
    generalize Nat.find hex = n at hn hmin
    rw [Grid.walk_succ] at hn
    cases hl : (h.get a).modulator with
    | none => simp [hl] at hn
    | some m =>
      obtain rfl := hab m hl
      refine hno n (key n m a (fun j hj hja => hmin j hj ?_) (by simpa [hl] using hn))
      rw [Grid.walk_succ, hl]; exact hja
  · refine ha k l (key (k + 1) l l (fun j hj hja => hmeet ⟨j, by omega, hja⟩) hw)

end Sys2Proof.Machine
end

