-- ==== Sys2Proof/Laws/Invariants.lean ====
section
/-! SUPPORT. Each change a command or a buffer makes to the grid keeps the invariants of the grid (spec 43 R178, change by change). -/

namespace Sys2Proof.Machine

/-! ## Cells -/

theorem Cell.modulator_congr {x y : Cell} (h1 : x.modv = y.modv) (h2 : x.modrow = y.modrow) (h3 : x.modcol = y.modcol) :
    x.modulator = y.modulator := by
  simp [Cell.modulator, h1, h2, h3]

theorem Cell.modulator_eq_some {x : Cell} {l : Loc} :
    x.modulator = some l ↔ x.modv = true ∧ (x.modrow.toNat, x.modcol.toNat) = l := by
  simp [Cell.modulator]

theorem Cell.modulator_eq_none {x : Cell} : x.modulator = none ↔ x.modv = false := by
  simp [Cell.modulator]

namespace Grid
variable {p : Params} {g h : Grid}

/-- An active cell holds something, so it lies in the grid. -/
theorem Inv.inGrid_of_active (hg : g.Inv p) {l : Loc} (hl : (g.get l).active = true) : l.1 < p.rows ∧ l.2 < p.cols :=
  hg.bounds l (fun hz => by rw [hz] at hl; simp at hl)

/-- An empty grid has the invariants. -/
theorem Inv.empty (p : Params) : (⟨[]⟩ : Grid).Inv p where
  wf := Grid.wf_empty
  bounds := fun l h => absurd (Grid.get_empty l) h
  zero := fun l _ => Grid.get_empty l
  range := fun l => by simp
  chainPrefix := fun r c h => by simp at h
  chain := fun r c h => by simp at h
  live := fun l l' h => by simp at h
  acyclic := fun k l h => by rw [Grid.walk_succ] at h; simp at h

/-- A change that leaves activity and references alone, keeps volumes in range and writes no inactive cell. -/
theorem Inv.of_skeleton (hg : g.Inv p) (hw : h.wf = true)
    (ha : ∀ l, (h.get l).active = (g.get l).active)
    (hz : ∀ l, (g.get l).active = false → h.get l = Cell.zero)
    (hv : ∀ l, (h.get l).vol.toNat ≤ 0x8000)
    (hm : ∀ l, (h.get l).modv = (g.get l).modv ∧ (h.get l).modrow = (g.get l).modrow ∧ (h.get l).modcol = (g.get l).modcol) :
    h.Inv p := by
  have hmod : ∀ l, (h.get l).modulator = (g.get l).modulator :=
    fun l => Cell.modulator_congr (hm l).1 (hm l).2.1 (hm l).2.2
  refine ⟨hw, fun l hl => ?_, fun l hl => hz l (ha l ▸ hl), fun l => ⟨hv l, ?_, ?_⟩, fun r c hl => ?_, fun r c hl => ?_,
    fun l l' hl => ?_, ?_⟩
  · refine hg.bounds l (fun h0 => hl (hz l ?_))
    rw [h0]; rfl
  · rw [(hm l).1, (hm l).2.1, (hm l).2.2]; exact (hg.range l).2.1
  · rw [(hm l).1, (hm l).2.1, (hm l).2.2]; exact (hg.range l).2.2
  · rw [ha] at hl ⊢; exact hg.chainPrefix r c hl
  · rw [hmod]; rw [ha] at hl; exact hg.chain r c hl
  · rw [hmod] at hl; rw [ha, ha]; exact hg.live l l' hl
  · exact hg.acyclic.of_sub (fun l l' hl => by rwa [hmod] at hl)

/-- Writing a field of one active cell, outside activity and references. -/
theorem Inv.modify_field (hg : g.Inv p) {l : Loc} {f : Cell → Cell} (hl : (g.get l).active = true)
    (hf : (f (g.get l)).active = (g.get l).active) (hv : (f (g.get l)).vol.toNat ≤ 0x8000)
    (hm : (f (g.get l)).modv = (g.get l).modv ∧ (f (g.get l)).modrow = (g.get l).modrow ∧
      (f (g.get l)).modcol = (g.get l).modcol) : (g.modify l f).Inv p := by
  refine hg.of_skeleton (Grid.wf_modify hg.wf _ _) (fun k => ?_) (fun k hk => ?_) (fun k => ?_) (fun k => ?_) <;>
    rw [Grid.get_modify] <;> split_ifs with hkl
  · rw [hkl, hf]
  · rfl
  · rw [hkl, hl] at hk; simp at hk
  · exact hg.zero k hk
  · exact hv
  · exact (hg.range k).1
  · rw [hkl]; exact hm
  · exact ⟨rfl, rfl, rfl⟩

/-- Mapping every active cell, outside activity, volume and references. -/
theorem Inv.mapCells_field (hg : g.Inv p) {f : Cell → Cell} (hf0 : f Cell.zero = Cell.zero)
    (hf : ∀ x, (f x).active = x.active ∧ (f x).vol = x.vol ∧ (f x).modv = x.modv ∧ (f x).modrow = x.modrow ∧
      (f x).modcol = x.modcol) : (g.mapCells f).Inv p := by
  refine hg.of_skeleton (Grid.wf_mapCells hg.wf _) (fun k => ?_) (fun k hk => ?_) (fun k => ?_) (fun k => ?_) <;>
    rw [Grid.get_mapCells _ hf0]
  · exact (hf _).1
  · rw [hg.zero k hk, hf0]
  · rw [(hf _).2.1]; exact (hg.range k).1
  · exact ⟨(hf _).2.2.1, (hf _).2.2.2.1, (hf _).2.2.2.2⟩

end Grid

/-! ## ACTIVATE -/

theorem snapshotVol_le {s : State} (r c : Coord) (h1 : s.ctlVol.toNat ≤ 0x8000) (h2 : s.ctlMaster.toNat ≤ 0x8000) :
    (snapshotVol s r c).toNat ≤ 0x8000 := by
  unfold snapshotVol
  split_ifs
  · rw [BitVec.toNat_ushiftRight, Nat.shiftRight_eq_div_pow]
    exact le_trans (Nat.div_le_self _ _) h2
  · exact h1

@[simp] theorem activatedCell_active (s : State) (r c : Coord) (x : Cell) : (activatedCell s r c x).active = true := rfl
@[simp] theorem activatedCell_vol (s : State) (r c : Coord) (x : Cell) :
    (activatedCell s r c x).vol = snapshotVol s r c := rfl

theorem activatedCell_modulator (s : State) (r c : Coord) (x : Cell) :
    (activatedCell s r c x).modulator = if x.active then x.modulator else none := by
  cases hx : x.active <;> simp [activatedCell, Cell.modulator, hx]

theorem activateCell_inv {r c : Coord} {s : State} (hs : Inv s) (hin : inGrid s.params r c = true) :
    (activateCell r c s).grid.Inv s.params := by
  by_cases hmay : mayActivate s r c = true
  swap
  · have : activateCell r c s = s := by unfold activateCell; rw [if_neg hmay]
    rw [this]; exact hs.grid
  have hg := hs.grid
  rw [inGrid_iff] at hin
  have hget := activateCell_get hmay
  have hpred : c ≠ 0#8 → (s.grid.get (r.toNat, c.toNat - 1)).active = true := by
    intro hc
    rcases (mayActivate_iff s r c).mp hmay with h | h
    · exact absurd h hc
    · exact h
  have hsucc : c ≠ 0#8 → c.toNat - 1 + 1 = c.toNat := by
    intro hc
    have : c.toNat ≠ 0 := fun h => hc ((Coord.toNat_eq_zero_iff c).mpr h)
    omega
  have hact : ∀ l, ((activateCell r c s).grid.get l).active = true ↔
      l = (r.toNat, c.toNat) ∨ (s.grid.get l).active = true := by
    intro l
    rw [hget]
    split_ifs with h1 h2
    · simp [h1]
    · obtain ⟨hc, rfl⟩ := h2; simp [hpred hc]
    · simp [h1]
  have hmod : ∀ l l', l ≠ (r.toNat, c.toNat - 1) ∨ c = 0#8 →
      ((activateCell r c s).grid.get l).modulator = some l' → (s.grid.get l).modulator = some l' := by
    intro l l' hl h
    rw [hget] at h
    split_ifs at h with h1 h2
    · rw [activatedCell_modulator] at h
      split_ifs at h
      exact h
    · rcases hl with hl | hl
      · exact absurd h2.2 hl
      · exact absurd hl h2.1
    · exact h
  refine ⟨activateCell_wf hg.wf, fun l hl => ?_, fun l hl => ?_, fun l => ?_, fun r' c' hl => ?_, fun r' c' hl => ?_,
    fun l l' hl => ?_, ?_⟩
  · rw [hget] at hl
    split_ifs at hl with h1 h2
    · rw [h1]; exact hin
    · obtain ⟨hc, rfl⟩ := h2
      exact ⟨hin.1, by simp only; omega⟩
    · exact hg.bounds l hl
  · have hna : ¬(l = (r.toNat, c.toNat) ∨ (s.grid.get l).active = true) := by
      rw [← hact, hl]; simp
    have h1 : l ≠ (r.toNat, c.toNat) := fun h => hna (Or.inl h)
    have h2 : ¬(c ≠ 0#8 ∧ l = (r.toNat, c.toNat - 1)) := by
      rintro ⟨hc, rfl⟩; exact hna (Or.inr (hpred hc))
    rw [hget, if_neg h1, if_neg h2]
    exact hg.zero l (by simpa using fun h => hna (Or.inr h))
  · rw [hget]
    split_ifs with h1 h2
    · refine ⟨snapshotVol_le r c hs.ctlVol hs.ctlMaster, ?_, ?_⟩
      · cases ha : (s.grid.get l).active with
        | false => simp [activatedCell, ha]
        | true => simpa [activatedCell, ha] using (hg.range l).2.1
      · cases ha : (s.grid.get l).active with
        | false => simp [activatedCell, ha]
        | true => simpa [activatedCell, ha] using (hg.range l).2.2
    · refine ⟨(hg.range l).1, ?_, ?_⟩
      · simp
      · intro _; exact hin
    · exact hg.range l
  · rw [hact] at hl ⊢
    by_cases h1 : (r', c' + 1) = (r.toNat, c.toNat)
    · simp only [Prod.mk.injEq] at h1
      have hc : c ≠ 0#8 := fun h => by rw [Coord.toNat_eq_zero_iff] at h; omega
      have := hpred hc
      rw [show (r', c') = (r.toNat, c.toNat - 1) by ext <;> simp <;> omega]
      exact Or.inr this
    · rcases hl with hl | hl
      · exact absurd hl h1
      · exact Or.inr (hg.chainPrefix r' c' hl)
  · rw [hact] at hl
    by_cases h1 : (r', c' + 1) = (r.toNat, c.toNat)
    · have h1' := h1
      simp only [Prod.mk.injEq] at h1
      have hc : c ≠ 0#8 := fun h => by rw [Coord.toNat_eq_zero_iff] at h; omega
      have h2 : (r', c') = (r.toNat, c.toNat - 1) := by ext <;> simp <;> omega
      have h3 : (r', c') ≠ (r.toNat, c.toNat) := by simp; omega
      rw [hget, if_neg h3, if_pos ⟨hc, h2⟩, Cell.setRef_modulator, h1']
    · have hl : (s.grid.get (r', c' + 1)).active = true := by
        rcases hl with hl | hl
        · exact absurd hl h1
        · exact hl
      have hch := hg.chain r' c' hl
      rw [hget]
      split_ifs with h2 h3
      · rw [activatedCell_modulator, hg.chainPrefix r' c' hl]; exact hch
      · obtain ⟨hc, h3⟩ := h3
        simp only [Prod.mk.injEq] at h3
        exact absurd (by ext <;> simp <;> [omega; (have := hsucc hc; omega)]) h1
      · exact hch
  · by_cases h1 : c ≠ 0#8 ∧ l = (r.toNat, c.toNat - 1)
    · obtain ⟨hc, rfl⟩ := h1
      have h3 : (r.toNat, c.toNat - 1) ≠ (r.toNat, c.toNat) := by
        have := hsucc hc; simp; omega
      rw [hget, if_neg h3, if_pos ⟨hc, rfl⟩, Cell.setRef_modulator] at hl
      obtain rfl : (r.toNat, c.toNat) = l' := by simpa using hl
      exact ⟨(hact _).mpr (Or.inr (hpred hc)), (hact _).mpr (Or.inl rfl)⟩
    · have := hg.live l l' (hmod l l' (by tauto) hl)
      exact ⟨(hact _).mpr (Or.inr this.1), (hact _).mpr (Or.inr this.2)⟩
  · by_cases hc : c = 0#8
    · exact hg.acyclic.of_sub (fun l l' h => hmod l l' (Or.inr hc) h)
    · have h3 : (r.toNat, c.toNat - 1) ≠ (r.toNat, c.toNat) := by
        have := hsucc hc; simp; omega
      refine hg.acyclic.of_new_edge (a := (r.toNat, c.toNat - 1)) (b := (r.toNat, c.toNat))
        (fun l l' hl h => hmod l l' (Or.inl hl) h) (fun l' h => ?_) (fun k hk => ?_)
      · rw [hget, if_neg h3, if_pos ⟨hc, rfl⟩, Cell.setRef_modulator] at h
        exact (by simpa using h : (r.toNat, c.toNat) = l').symm
      · cases ha : (s.grid.get (r.toNat, c.toNat)).active with
        | false =>
          have hz := hg.zero _ ha
          cases k with
          | zero => exact h3 (by simpa using hk.symm)
          | succ k => rw [Grid.walk_succ, hz] at hk; simp at hk
        | true =>
          have hch := hg.chain r.toNat (c.toNat - 1) (by rw [hsucc hc]; exact ha)
          rw [hsucc hc] at hch
          exact hg.acyclic k _ (by rw [Grid.walk_succ, hch]; exact hk)

/-! ## DEACTIVATE -/

theorem cascade_inv {p : Params} {g : Grid} {r c : Nat} (hg : g.Inv p) (hc : c < p.cols) :
    (cascade r c (p.cols - c) g).Inv p := by
  have hget := cascade_get r c (p.cols - c) g
  have hcols : c + (p.cols - c) = p.cols := by omega
  have hact : ∀ l, ((cascade r c (p.cols - c) g).get l).active = true ↔
      (g.get l).active = true ∧ ¬InCascade r c (p.cols - c) g l := by
    intro l
    obtain ⟨h1, h2, h3⟩ := hget l
    by_cases hl : InCascade r c (p.cols - c) g l
    · rw [h1 hl]; simp [hl]
    · by_cases hm : ∃ m, (g.get l).modulator = some m ∧ InCascade r c (p.cols - c) g m
      · rw [h2 hl hm]; simp [hl]
      · rw [h3 hl (fun m hm1 hm2 => hm ⟨m, hm1, hm2⟩)]; simp [hl]
  have hmod : ∀ l l', ((cascade r c (p.cols - c) g).get l).modulator = some l' →
      (g.get l).modulator = some l' ∧ ¬InCascade r c (p.cols - c) g l ∧ ¬InCascade r c (p.cols - c) g l' := by
    intro l l' h
    obtain ⟨h1, h2, h3⟩ := hget l
    by_cases hl : InCascade r c (p.cols - c) g l
    · rw [h1 hl] at h; simp at h
    · by_cases hm : ∃ m, (g.get l).modulator = some m ∧ InCascade r c (p.cols - c) g m
      · rw [h2 hl hm] at h; simp at h
      · have hm' : ∀ m, (g.get l).modulator = some m → ¬InCascade r c (p.cols - c) g m :=
          fun m hm1 hm2 => hm ⟨m, hm1, hm2⟩
        rw [h3 hl hm'] at h
        exact ⟨h, hl, hm' l' h⟩
  have hleft : ∀ r' c', (g.get (r', c' + 1)).active = true → ¬InCascade r c (p.cols - c) g (r', c' + 1) →
      ¬InCascade r c (p.cols - c) g (r', c') := by
    rintro r' c' ha hn ⟨h1, h2, _, _⟩
    have := (hg.inGrid_of_active ha).2
    simp only at this h1 h2
    exact hn ⟨h1, by simp only; omega, by simp only; omega, ha⟩
  refine ⟨cascade_wf hg.wf, fun l hl => ?_, fun l hl => ?_, fun l => ?_, fun r' c' hl => ?_, fun r' c' hl => ?_,
    fun l l' hl => ?_, hg.acyclic.of_sub (fun l l' h => (hmod l l' h).1)⟩
  · obtain ⟨h1, h2, h3⟩ := hget l
    refine hg.bounds l (fun hz => hl ?_)
    have hn : ¬InCascade r c (p.cols - c) g l := fun h => by have := h.2.2.2; rw [hz] at this; simp at this
    rw [h3 hn (by simp [hz]), hz]
  · obtain ⟨h1, h2, h3⟩ := hget l
    by_cases hc : InCascade r c (p.cols - c) g l
    · exact h1 hc
    · have ha : (g.get l).active = false := by
        cases ha : (g.get l).active with
        | false => rfl
        | true => rw [(hact l).mpr ⟨ha, hc⟩] at hl; simp at hl
      have hz := hg.zero l ha
      rw [h3 hc (by simp [hz]), hz]
  · obtain ⟨h1, h2, h3⟩ := hget l
    by_cases hc : InCascade r c (p.cols - c) g l
    · rw [h1 hc]; simp
    · by_cases hm : ∃ m, (g.get l).modulator = some m ∧ InCascade r c (p.cols - c) g m
      · rw [h2 hc hm]; exact ⟨(hg.range l).1, by simp⟩
      · rw [h3 hc (fun m hm1 hm2 => hm ⟨m, hm1, hm2⟩)]; exact hg.range l
  · rw [hact] at hl ⊢
    exact ⟨hg.chainPrefix r' c' hl.1, hleft r' c' hl.1 hl.2⟩
  · rw [hact] at hl
    have hch := hg.chain r' c' hl.1
    rw [(hget (r', c')).2.2 (hleft r' c' hl.1 hl.2) (fun m hm => ?_), hch]
    rw [hch] at hm
    obtain rfl : (r', c' + 1) = m := by simpa using hm
    exact hl.2
  · obtain ⟨h1, h2, h3⟩ := hmod l l' hl
    have := hg.live l l' h1
    exact ⟨(hact l).mpr ⟨this.1, h2⟩, (hact l').mpr ⟨this.2, h3⟩⟩

/-! ## LINK and UNLINK -/

/-- In a grid with the invariants the check of `LINK` misses no path (43 R177). -/
theorem reaches_complete {p : Params} {g : Grid} (hg : g.Inv p) {a b : Loc} (ha : a.1 < p.rows ∧ a.2 < p.cols) {k : Nat}
    (h : g.walk k b = some a) : reaches g a p.cells b = true :=
  (reaches_iff_walk g a p.cells b).mpr ⟨k, Grid.walk_lt hg.bounds hg.acyclic h ha, h⟩

theorem link_inv {p : Params} {g : Grid} (hg : g.Inv p) {r c mr mc : Coord} {idx : IndexWord}
    (ha : (g.get (place r c)).active = true) (hb : (g.get (place mr mc)).active = true)
    (htail : (g.get (r.toNat, c.toNat + 1)).active = false)
    (hno : reaches g (place r c) p.cells (place mr mc) = false) :
    (g.modify (place r c) (Cell.setRef mr mc idx)).Inv p := by
  have hact : ∀ l, ((g.modify (place r c) (Cell.setRef mr mc idx)).get l).active = (g.get l).active := by
    intro l; rw [Grid.get_modify]; split_ifs with h
    · simp [h]
    · rfl
  have hmod : ∀ l, l ≠ place r c →
      ((g.modify (place r c) (Cell.setRef mr mc idx)).get l).modulator = (g.get l).modulator := by
    intro l h; rw [Grid.get_modify, if_neg h]
  have hself : ((g.modify (place r c) (Cell.setRef mr mc idx)).get (place r c)).modulator = some (place mr mc) := by
    simp [place]
  refine ⟨Grid.wf_modify hg.wf _ _, fun l hl => ?_, fun l hl => ?_, fun l => ?_, fun r' c' hl => ?_, fun r' c' hl => ?_,
    fun l l' hl => ?_, ?_⟩
  · by_cases h : l = place r c
    · rw [h]; exact hg.inGrid_of_active ha
    · rw [Grid.get_modify, if_neg h] at hl; exact hg.bounds l hl
  · rw [hact] at hl
    have h : l ≠ place r c := fun h => by rw [h, ha] at hl; simp at hl
    rw [Grid.get_modify, if_neg h]; exact hg.zero l hl
  · rw [Grid.get_modify]; split_ifs with h
    · exact ⟨(hg.range _).1, by simp, fun _ => hg.inGrid_of_active hb⟩
    · exact hg.range l
  · rw [hact] at hl ⊢; exact hg.chainPrefix r' c' hl
  · rw [hact] at hl
    have h : (r', c') ≠ place r c := by
      intro h
      simp only [place, Prod.mk.injEq] at h
      rw [h.1, h.2, htail] at hl
      simp at hl
    rw [hmod _ h]; exact hg.chain r' c' hl
  · rw [hact, hact]
    by_cases h : l = place r c
    · rw [h, hself] at hl
      obtain rfl : place mr mc = l' := by simpa using hl
      rw [h]; exact ⟨ha, hb⟩
    · rw [hmod _ h] at hl; exact hg.live l l' hl
  · refine hg.acyclic.of_new_edge (a := place r c) (b := place mr mc)
      (fun l l' hl h => by rwa [hmod _ hl] at h) (fun l' h => ?_) (fun k hk => ?_)
    · rw [hself] at h; exact (by simpa using h : place mr mc = l').symm
    · rw [reaches_complete hg (hg.inGrid_of_active ha) hk] at hno; simp at hno

theorem unlink_inv {p : Params} {g : Grid} (hg : g.Inv p) {r c : Coord}
    (ha : (g.get (place r c)).active = true) (htail : (g.get (r.toNat, c.toNat + 1)).active = false) :
    (g.modify (place r c) Cell.clearRef).Inv p := by
  have hact : ∀ l, ((g.modify (place r c) Cell.clearRef).get l).active = (g.get l).active := by
    intro l; rw [Grid.get_modify]; split_ifs with h
    · simp [h]
    · rfl
  have hmod : ∀ l, l ≠ place r c → ((g.modify (place r c) Cell.clearRef).get l).modulator = (g.get l).modulator := by
    intro l h; rw [Grid.get_modify, if_neg h]
  have hself : ((g.modify (place r c) Cell.clearRef).get (place r c)).modulator = none := by simp
  have hsub : ∀ l l', ((g.modify (place r c) Cell.clearRef).get l).modulator = some l' →
      (g.get l).modulator = some l' := by
    intro l l' h
    by_cases hl : l = place r c
    · rw [hl, hself] at h; simp at h
    · rwa [hmod _ hl] at h
  refine ⟨Grid.wf_modify hg.wf _ _, fun l hl => ?_, fun l hl => ?_, fun l => ?_, fun r' c' hl => ?_, fun r' c' hl => ?_,
    fun l l' hl => ?_, hg.acyclic.of_sub hsub⟩
  · by_cases h : l = place r c
    · rw [h]; exact hg.inGrid_of_active ha
    · rw [Grid.get_modify, if_neg h] at hl; exact hg.bounds l hl
  · rw [hact] at hl
    have h : l ≠ place r c := fun h => by rw [h, ha] at hl; simp at hl
    rw [Grid.get_modify, if_neg h]; exact hg.zero l hl
  · rw [Grid.get_modify]; split_ifs with h
    · exact ⟨(hg.range _).1, by simp, by simp⟩
    · exact hg.range l
  · rw [hact] at hl ⊢; exact hg.chainPrefix r' c' hl
  · rw [hact] at hl
    have h : (r', c') ≠ place r c := by
      intro h
      simp only [place, Prod.mk.injEq] at h
      rw [h.1, h.2, htail] at hl
      simp at hl
    rw [hmod _ h]; exact hg.chain r' c' hl
  · rw [hact, hact]; exact hg.live l l' (hsub l l' hl)

end Sys2Proof.Machine
end

