-- ==== Sys2Proof/Laws/Eval.lean ====
section
/-! SUPPORT. Evaluation: the memoised `Eval` answers the stateless signal, advances each cell it evaluates once and no other (spec 42
R158, R160, R161), whatever was evaluated before it in the step. -/

namespace Sys2Proof.Machine

/-! ## The advance of a cell -/

@[simp] theorem Cell.advance_zero (p : Params) : Cell.zero.advance p = Cell.zero := rfl

theorem Cell.advance_of_active (p : Params) {x : Cell} (h : x.active = true) :
    x.advance p = { x with phase := nextPhase p x } := by
  simp [Cell.advance, h]

theorem Cell.advance_of_inactive (p : Params) {x : Cell} (h : x.active = false) : x.advance p = x := by
  simp [Cell.advance, h]

/-- The advance of a cell touches its phase only. -/
theorem Cell.advance_fields (p : Params) (x : Cell) :
    (x.advance p).active = x.active ∧ (x.advance p).vol = x.vol ∧ (x.advance p).modv = x.modv ∧
      (x.advance p).modrow = x.modrow ∧ (x.advance p).modcol = x.modcol := by
  unfold Cell.advance; split_ifs <;> simp

@[simp] theorem Cell.advance_active (p : Params) (x : Cell) : (x.advance p).active = x.active := (x.advance_fields p).1

@[simp] theorem Cell.advance_modulator (p : Params) (x : Cell) : (x.advance p).modulator = x.modulator := by
  obtain ⟨_, _, h1, h2, h3⟩ := x.advance_fields p
  exact Cell.modulator_congr h1 h2 h3

theorem Grid.get_advanceAll (p : Params) (g : Grid) (l : Loc) : (g.advanceAll p).get l = (g.get l).advance p :=
  Grid.get_mapCells g (Cell.advance_zero p) l

theorem advanceAll_inv {p : Params} {g : Grid} (hg : g.Inv p) : (g.advanceAll p).Inv p :=
  hg.mapCells_field (Cell.advance_zero p) (Cell.advance_fields p)

/-! ## Enough depth -/

/-- In a grid with the invariants every chain of references has ended after `ROWS · COLS` moves (42 R160). -/
theorem walk_cells_none {p : Params} {g : Grid} (hp : p.Legal) (hg : g.Inv p) (l : Loc) : g.walk p.cells l = none := by
  have hpos : 0 < p.cells := Nat.mul_pos hp.1 hp.2.2.1
  cases h : g.walk p.cells l with
  | none => rfl
  | some l' =>
    obtain ⟨k, hk⟩ : ∃ k, p.cells = k + 1 := ⟨p.cells - 1, by omega⟩
    have h' := h
    rw [hk, Grid.walk_succ_last] at h'
    cases hm : g.walk k l with
    | none => simp [hm] at h'
    | some m =>
      have hlast : (g.get m).modulator = some l' := by simpa [hm] using h'
      have := Grid.walk_lt hg.bounds hg.acyclic h (hg.inGrid_of_active (hg.live m l' hlast).2)
      omega

/-- Once the chain has ended, more depth changes no signal. -/
theorem Grid.signal_depth {p : Params} {g : Grid} {n : Nat} {l : Loc} (h : g.walk n l = none) {m : Nat} (hm : n ≤ m) :
    g.signal p m l = g.signal p n l := by
  induction n generalizing l m with
  | zero => simp at h
  | succ n ih =>
    obtain ⟨m, rfl⟩ : ∃ k, m = k + 1 := ⟨m - 1, by omega⟩
    unfold Grid.signal
    rw [Grid.walk_succ] at h
    cases hl : (g.get l).modulator with
    | none => simp [hl]
    | some l' => simp [hl, ih (l := l') (by simpa [hl] using h) (by omega : n ≤ m)]

theorem Grid.signal_inactive {p : Params} {g : Grid} {l : Loc} (h : (g.get l).active = false) (n : Nat) :
    g.signal p n l = silence p := by
  cases n <;> simp [Grid.signal, h]

/-! ## The memo -/

/-- What holds between the grid and the memo while one step's evaluation runs, `g₀` the grid it began with. -/
structure EvalOk (p : Params) (g₀ : Grid) (ctx : Grid × Memo) : Prop where
  wf    : ctx.1.wf = true
  fresh : ∀ l, memoGet l ctx.2 = none → ctx.1.get l = g₀.get l
  done  : ∀ l y, memoGet l ctx.2 = some y →
    y = g₀.signal p p.cells l ∧ (g₀.get l).active = true ∧ ctx.1.get l = (g₀.get l).advance p
  closed : ∀ l l', memoGet l ctx.2 ≠ none → (g₀.get l).modulator = some l' → memoGet l' ctx.2 ≠ none

theorem EvalOk.start (p : Params) {g : Grid} (h : g.wf = true) : EvalOk p g (g, []) where
  wf := h
  fresh := fun _ _ => rfl
  done := fun l y h => by simp [memoGet] at h
  closed := fun l l' h => by simp [memoGet] at h

/-- During an evaluation a cell has either not moved or advanced once. -/
theorem EvalOk.get {p : Params} {g₀ : Grid} {ctx : Grid × Memo} (h : EvalOk p g₀ ctx) (l : Loc) :
    ctx.1.get l = g₀.get l ∨ ctx.1.get l = (g₀.get l).advance p := by
  cases hm : memoGet l ctx.2 with
  | none => exact Or.inl (h.fresh l hm)
  | some y => exact Or.inr (h.done l y hm).2.2

/-- What one evaluation has done: the stateless signal as its result, kept in the memo; nothing forgotten; nothing evaluated that
the chain from `l` does not name. -/
structure EvalDone (p : Params) (g₀ : Grid) (l : Loc) (ctx : Grid × Memo) (r : List Int × (Grid × Memo)) : Prop where
  value  : r.1 = g₀.signal p p.cells l
  ok     : EvalOk p g₀ r.2
  kept   : memoGet l r.2.2 = some (g₀.signal p p.cells l)
  mono   : ∀ k y, memoGet k ctx.2 = some y → memoGet k r.2.2 = some y
  onlyChain : ∀ k, memoGet k r.2.2 ≠ none → memoGet k ctx.2 ≠ none ∨ ∃ j, g₀.walk j l = some k

/-- One call of `Eval` on an active cell whose chain ends within the fuel. -/
theorem evalCell_spec {p : Params} {g₀ : Grid} (hp : p.Legal) (hg : g₀.Inv p) :
    ∀ (n : Nat) (l : Loc) (ctx : Grid × Memo), EvalOk p g₀ ctx → (g₀.get l).active = true → g₀.walk n l = none →
      EvalDone p g₀ l ctx (evalCell p n l ctx) := by
  intro n
  induction n with
  | zero => intro l ctx _ _ h; simp at h
  | succ n ih =>
    intro l ctx hok hact hw
    unfold evalCell
    cases hm : memoGet l ctx.2 with
    | some y =>
      obtain ⟨hy, _, _⟩ := hok.done l y hm
      exact ⟨hy, hok, by rw [← hy]; exact hm, fun k y h => h, fun k h => Or.inl h⟩
    | none =>
      have hcell := hok.fresh l hm
      simp only [hcell, hact, ↓reduceIte]
      -- the modulator's signal, and the grid and memo it leaves
      generalize hsub : modulatorSignal p (evalCell p n) (g₀.get l) ctx = sub
      have key : operatorSamples p (g₀.get l) sub.1 = g₀.signal p p.cells l ∧ EvalOk p g₀ sub.2 ∧
          memoGet l sub.2.2 = none ∧ (∀ k y, memoGet k ctx.2 = some y → memoGet k sub.2.2 = some y) ∧
          (∀ k, memoGet k sub.2.2 ≠ none → memoGet k ctx.2 ≠ none ∨ ∃ j, g₀.walk (j + 1) l = some k) ∧
          ∀ l', (g₀.get l).modulator = some l' → memoGet l' sub.2.2 ≠ none := by
        have hsig := Grid.signal_depth (p := p) (walk_cells_none hp hg l) (Nat.le_succ p.cells)
        rw [Grid.walk_succ] at hw
        cases hl : (g₀.get l).modulator with
        | none =>
          simp only [modulatorSignal, hl] at hsub
          subst hsub
          refine ⟨?_, hok, hm, fun k y h => h, fun k h => Or.inl h, by simp⟩
          rw [← hsig]; simp [Grid.signal, hact, hl]
        | some l' =>
          simp only [modulatorSignal, hl] at hsub
          subst hsub
          have d := ih l' ctx hok (hg.live l l' hl).2 (by simpa [hl] using hw)
          have hchain : ∀ k, memoGet k (evalCell p n l' ctx).2.2 ≠ none →
              memoGet k ctx.2 ≠ none ∨ ∃ j, g₀.walk (j + 1) l = some k := fun k hk =>
            (d.onlyChain k hk).imp id (fun ⟨j, hj⟩ => ⟨j, by rw [Grid.walk_succ, hl]; simpa using hj⟩)
          refine ⟨?_, d.ok, ?_, d.mono, hchain, fun k hk => ?_⟩
          · rw [← hsig, d.value]; simp [Grid.signal, hact, hl]
          · by_contra hne
            rcases hchain l hne with h | ⟨j, hj⟩
            · exact h hm
            · exact hg.acyclic j l hj
          · obtain rfl : l' = k := Option.some.inj hk
            simp [d.kept]
      obtain ⟨hval, hok', hnone, hmono, honly, hnext⟩ := key
      have hself := hok'.fresh l hnone
      refine ⟨hval, ⟨Grid.wf_modify hok'.wf _ _, ?_, ?_, ?_⟩, ?_, ?_, ?_⟩
      · intro k hk
        have hkl : k ≠ l := by rintro rfl; simp [memoGet] at hk
        simp only [memoGet, Ne.symm hkl, ↓reduceIte] at hk
        rw [Grid.get_modify_ne _ _ hkl]
        exact hok'.fresh k hk
      · intro k y hk
        by_cases hkl : k = l
        · subst hkl
          simp only [memoGet, ↓reduceIte, Option.some.injEq] at hk
          refine ⟨by rw [← hk, hval], hact, ?_⟩
          rw [Grid.get_modify_self, hself, Cell.advance_of_active p hact]
        · simp only [memoGet, Ne.symm hkl, ↓reduceIte] at hk
          rw [Grid.get_modify_ne _ _ hkl]
          exact hok'.done k y hk
      · intro k k' hk hkk
        have hin : memoGet k' sub.2.2 ≠ none := by
          by_cases hkl : k = l
          · subst hkl; exact hnext k' hkk
          · simp only [memoGet, Ne.symm hkl, ↓reduceIte] at hk
            exact hok'.closed k k' hk hkk
        by_cases hkl : l = k' <;> simp [memoGet, hkl, hin]
      · simp [memoGet, hval]
      · intro k y hk
        have hkl : k ≠ l := by rintro rfl; rw [hm] at hk; exact absurd hk (by simp)
        simpa [memoGet, Ne.symm hkl] using hmono k y hk
      · intro k hk
        by_cases hkl : k = l
        · exact Or.inr ⟨0, by simp [hkl]⟩
        · simp only [memoGet, Ne.symm hkl, ↓reduceIte] at hk
          exact (honly k hk).imp id (fun ⟨j, hj⟩ => ⟨j + 1, hj⟩)

/-! ## The voices -/

/-- The root of every active cell's row is active, and the chain from the root comes to the cell. -/
theorem walk_row {p : Params} {g : Grid} (hg : g.Inv p) (r : Nat) :
    ∀ c, (g.get (r, c)).active = true → (g.get (r, 0)).active = true ∧ g.walk c (r, 0) = some (r, c) := by
  intro c
  induction c with
  | zero => intro h; exact ⟨h, by simp⟩
  | succ c ih =>
    intro h
    obtain ⟨h0, hw⟩ := ih (hg.chainPrefix r c h)
    refine ⟨h0, ?_⟩
    rw [Grid.walk_succ_last, hw]
    simpa using hg.chain r c h

/-- Evaluating a list of active roots in turn: each root's signal, every root evaluated, nothing forgotten. -/
theorem evalVoices_spec {p : Params} {g₀ : Grid} (hp : p.Legal) (hg : g₀.Inv p) :
    ∀ (rs : List Nat) (ctx : Grid × Memo), EvalOk p g₀ ctx → (∀ r ∈ rs, (g₀.get (r, 0)).active = true) →
      (evalVoices p rs ctx).1 = rs.map (fun r => g₀.signal p p.cells (r, 0)) ∧
      EvalOk p g₀ (evalVoices p rs ctx).2 ∧
      (∀ r ∈ rs, memoGet (r, 0) (evalVoices p rs ctx).2.2 ≠ none) ∧
      ∀ k y, memoGet k ctx.2 = some y → memoGet k (evalVoices p rs ctx).2.2 = some y := by
  intro rs
  induction rs with
  | nil => intro ctx h _; exact ⟨rfl, h, by simp, fun k y h => h⟩
  | cons r rest ih =>
    intro ctx hok hact
    have d := evalCell_spec hp hg p.cells (r, 0) ctx hok (hact r (by simp)) (walk_cells_none hp hg _)
    obtain ⟨h1, h2, h3, h4⟩ := ih (evalCell p p.cells (r, 0) ctx).2 d.ok (fun q hq => hact q (by simp [hq]))
    refine ⟨by simp [evalVoices, eval, h1, d.value], h2, ?_, fun k y h => h4 k y (d.mono k y h)⟩
    intro q hq
    rcases List.mem_cons.mp hq with rfl | hq
    · have := h4 (q, 0) _ d.kept
      simp [evalVoices, eval, this]
    · exact h3 q hq

/-- Every operator a memoised one chains to is memoised. -/
theorem EvalOk.closed_walk {p : Params} {g₀ : Grid} {ctx : Grid × Memo} (h : EvalOk p g₀ ctx) :
    ∀ k l l', memoGet l ctx.2 ≠ none → g₀.walk k l = some l' → memoGet l' ctx.2 ≠ none := by
  intro k
  induction k with
  | zero => intro l l' hl hw; simp at hw; exact hw ▸ hl
  | succ k ih =>
    intro l l' hl hw
    rw [Grid.walk_succ] at hw
    cases hm : (g₀.get l).modulator with
    | none => simp [hm] at hw
    | some m => exact ih m l' (h.closed l m hl hm) (by simpa [hm] using hw)

theorem mem_voiceSet {s : State} {r : Nat} : r ∈ voiceSet s ↔ r < s.params.rows ∧ (s.grid.get (r, 0)).active = true := by
  simp [voiceSet, State.cell]

/-- The evaluation of one buffer: the voices' signals, and every active accumulator advanced once. -/
theorem evalVoices_voiceSet {s : State} (hp : s.params.Legal) (hg : s.grid.Inv s.params) :
    (evalVoices s.params (voiceSet s) (s.grid, [])).1 = voiceSignals s ∧
      (evalVoices s.params (voiceSet s) (s.grid, [])).2.1 = s.grid.advanceAll s.params := by
  obtain ⟨h1, h2, h3, _⟩ := evalVoices_spec hp hg (voiceSet s) (s.grid, []) (EvalOk.start s.params hg.wf)
    (fun r hr => (mem_voiceSet.mp hr).2)
  refine ⟨h1, Grid.eq_of_get h2.wf (Grid.wf_mapCells hg.wf _) (fun l => ?_)⟩
  rw [Grid.get_advanceAll]
  cases hm : memoGet l (evalVoices s.params (voiceSet s) (s.grid, [])).2.2 with
  | some y => exact (h2.done l y hm).2.2
  | none =>
    rw [h2.fresh l hm]
    by_cases hact : (s.grid.get l).active = true
    · obtain ⟨r, c⟩ := l
      obtain ⟨h0, hw⟩ := walk_row hg r c hact
      have hr := mem_voiceSet.mpr ⟨(hg.inGrid_of_active h0).1, h0⟩
      exact absurd hm (h2.closed_walk c (r, 0) (r, c) (h3 r hr) hw)
    · rw [Cell.advance_of_inactive _ (by simpa using hact)]

/-- The buffer a state with the invariants emits. -/
theorem emitBuffer_eq {s : State} (hp : s.params.Legal) (hg : s.grid.Inv s.params) :
    emitBuffer s =
      { s with
        grid := s.grid.advanceAll s.params
        out := s.out ++ [bufferWords s.params (mixBuffer s (voiceSignals s))]
        bufcnt := s.bufcnt + 1 } := by
  obtain ⟨h1, h2⟩ := evalVoices_voiceSet hp hg
  simp [emitBuffer, h1, h2]

end Sys2Proof.Machine
end

