-- ==== Sys2Proof/Laws/PerInstr.lean ====
section
/-! SUPPORT. Per instruction: the word of a command has the fixed bits of its row of spec/opcode_table.json (spec 30 R94). -/

namespace Sys2Proof.Laws.TableRow

/-- The row's mask: 1 where the row fixes a bit. -/
def mask : Instr → CommandWord
  | .nop => 0xFFFFFFFFFFFFFFFF#64
  | .setFreq _ => 0xFFFFFFFF00000000#64
  | .setVol _ => 0xFFFFFFFFFFFF0000#64
  | .setShape _ => 0xFFFFFFFFFFFFFFF8#64
  | .setModIdx _ => 0xFFFFFFFFFFFF0000#64
  | .setMaster _ => 0xFFFFFFFFFFFF0000#64
  | .setMode _ => 0xFFFFFFFFFFFFFFFE#64
  | .activate _ _ => 0xFF0000FFFFFFFFFF#64
  | .deactivate _ _ => 0xFF0000FFFFFFFFFF#64
  | .link _ _ _ _ => 0xFF0000FFFFFF0000#64
  | .unlink _ _ => 0xFF0000FFFFFFFFFF#64
  | .opFreq _ _ _ => 0xFF0000FF00000000#64
  | .opVol _ _ _ => 0xFF0000FFFFFF0000#64
  | .opShape _ _ _ => 0xFF0000FFFFFFFFF8#64
  | .opModIdx _ _ _ => 0xFF0000FFFFFF0000#64
  | .start => 0xFFFFFFFFFFFFFFFF#64
  | .stop => 0xFFFFFFFFFFFFFFFF#64
  | .clrErr _ => 0xFFFFFFFFFFFFFFF8#64

/-- The row's match: the fixed bits. -/
def fixedBits : Instr → CommandWord
  | .nop => 0x0000000000000000#64
  | .setFreq _ => 0x0100000000000000#64
  | .setVol _ => 0x0200000000000000#64
  | .setShape _ => 0x0300000000000000#64
  | .setModIdx _ => 0x0400000000000000#64
  | .setMaster _ => 0x0500000000000000#64
  | .setMode _ => 0x0600000000000000#64
  | .activate _ _ => 0x1000000000000000#64
  | .deactivate _ _ => 0x1100000000000000#64
  | .link _ _ _ _ => 0x1200000000000000#64
  | .unlink _ _ => 0x1300000000000000#64
  | .opFreq _ _ _ => 0x2000000000000000#64
  | .opVol _ _ _ => 0x2100000000000000#64
  | .opShape _ _ _ => 0x2200000000000000#64
  | .opModIdx _ _ _ => 0x2300000000000000#64
  | .start => 0x3000000000000000#64
  | .stop => 0x3100000000000000#64
  | .clrErr _ => 0x3F00000000000000#64

/-- The command's word, masked, is its row's match. -/
def Statement (i : Instr) : Prop := encode i &&& mask i = fixedBits i

/-- Masking acts field by field. -/
theorem packFields_and (o o' : BitVec 8) (r r' c c' : Coord) (v v' : BitVec 8) (m m' : BitVec 32) :
    packFields o r c v m &&& packFields o' r' c' v' m' = packFields (o &&& o') (r &&& r') (c &&& c') (v &&& v') (m &&& m') := by
  apply BitVec.eq_of_getLsbD_eq
  intro i hi
  simp only [BitVec.getLsbD_and, getLsbD_packFields]
  split_ifs <;> rfl

/-- An operand of `n` bits leaves the bits from `n` up zero. -/
theorem setWidth_and_high {n : Nat} (x : BitVec n) : x.setWidth 32 &&& (BitVec.allOnes 32 <<< n) = 0#32 := by
  apply BitVec.eq_of_getLsbD_eq
  intro i hi
  by_cases h : i < n
  · simp [h]
  · simp [BitVec.getLsbD_of_ge x i (by omega)]

/-- Formats Z and I: everything above the immediate is fixed. -/
theorem packImm_and (opc : BitVec 8) (imm m : BitVec 32) :
    packImm opc imm &&& packFields 0xFF#8 0xFF#8 0xFF#8 0xFF#8 m = packImm opc (imm &&& m) := by
  have h : ∀ x : BitVec 8, x &&& 0xFF#8 = x := by decide
  simp only [packImm, packFields_and, h]

/-- Formats C and CI: everything above the immediate but the cell is fixed. -/
theorem packCell_and (opc : BitVec 8) (r c : Coord) (imm m : BitVec 32) :
    packCell opc r c imm &&& packFields 0xFF#8 0#8 0#8 0xFF#8 m = packImm opc (imm &&& m) := by
  have h : ∀ x : BitVec 8, x &&& 0xFF#8 = x := by decide
  simp only [packCell, packImm, packFields_and, h, BitVec.and_zero]

theorem nop : Statement .nop := by
  exact (packImm_and 0x00#8 0#32 0xFFFFFFFF#32).trans (rfl)

theorem setFreq (x : BitVec 32) : Statement (.setFreq x) := by
  exact (packImm_and 0x01#8 x 0x00000000#32).trans (by rw [show x &&& 0x00000000#32 = 0#32 from BitVec.and_zero]; rfl)

theorem setVol (x : BitVec 16) : Statement (.setVol x) := by
  exact (packImm_and 0x02#8 (x.setWidth 32) 0xFFFF0000#32).trans (by rw [show x.setWidth 32 &&& 0xFFFF0000#32 = 0#32 from setWidth_and_high x]; rfl)

theorem setShape (x : BitVec 3) : Statement (.setShape x) := by
  exact (packImm_and 0x03#8 (x.setWidth 32) 0xFFFFFFF8#32).trans (by rw [show x.setWidth 32 &&& 0xFFFFFFF8#32 = 0#32 from setWidth_and_high x]; rfl)

theorem setModIdx (x : BitVec 16) : Statement (.setModIdx x) := by
  exact (packImm_and 0x04#8 (x.setWidth 32) 0xFFFF0000#32).trans (by rw [show x.setWidth 32 &&& 0xFFFF0000#32 = 0#32 from setWidth_and_high x]; rfl)

theorem setMaster (x : BitVec 16) : Statement (.setMaster x) := by
  exact (packImm_and 0x05#8 (x.setWidth 32) 0xFFFF0000#32).trans (by rw [show x.setWidth 32 &&& 0xFFFF0000#32 = 0#32 from setWidth_and_high x]; rfl)

theorem setMode (x : BitVec 1) : Statement (.setMode x) := by
  exact (packImm_and 0x06#8 (x.setWidth 32) 0xFFFFFFFE#32).trans (by rw [show x.setWidth 32 &&& 0xFFFFFFFE#32 = 0#32 from setWidth_and_high x]; rfl)

theorem activate (r c : Coord) : Statement (.activate r c) := by
  exact (packCell_and 0x10#8 r c 0#32 0xFFFFFFFF#32).trans (rfl)

theorem deactivate (r c : Coord) : Statement (.deactivate r c) := by
  exact (packCell_and 0x11#8 r c 0#32 0xFFFFFFFF#32).trans (rfl)

theorem link (r c mr mc : Coord) : Statement (.link r c mr mc) := by
  exact (packCell_and 0x12#8 r c ((mr ++ mc).setWidth 32) 0xFFFF0000#32).trans (by rw [show (mr ++ mc).setWidth 32 &&& 0xFFFF0000#32 = 0#32 from setWidth_and_high (mr ++ mc)]; rfl)

theorem unlink (r c : Coord) : Statement (.unlink r c) := by
  exact (packCell_and 0x13#8 r c 0#32 0xFFFFFFFF#32).trans (rfl)

theorem opFreq (r c : Coord) (x : BitVec 32) : Statement (.opFreq r c x) := by
  exact (packCell_and 0x20#8 r c x 0x00000000#32).trans (by rw [show x &&& 0x00000000#32 = 0#32 from BitVec.and_zero]; rfl)

theorem opVol (r c : Coord) (x : BitVec 16) : Statement (.opVol r c x) := by
  exact (packCell_and 0x21#8 r c (x.setWidth 32) 0xFFFF0000#32).trans (by rw [show x.setWidth 32 &&& 0xFFFF0000#32 = 0#32 from setWidth_and_high x]; rfl)

theorem opShape (r c : Coord) (x : BitVec 3) : Statement (.opShape r c x) := by
  exact (packCell_and 0x22#8 r c (x.setWidth 32) 0xFFFFFFF8#32).trans (by rw [show x.setWidth 32 &&& 0xFFFFFFF8#32 = 0#32 from setWidth_and_high x]; rfl)

theorem opModIdx (r c : Coord) (x : BitVec 16) : Statement (.opModIdx r c x) := by
  exact (packCell_and 0x23#8 r c (x.setWidth 32) 0xFFFF0000#32).trans (by rw [show x.setWidth 32 &&& 0xFFFF0000#32 = 0#32 from setWidth_and_high x]; rfl)

theorem start : Statement .start := by
  exact (packImm_and 0x30#8 0#32 0xFFFFFFFF#32).trans (rfl)

theorem stop : Statement .stop := by
  exact (packImm_and 0x31#8 0#32 0xFFFFFFFF#32).trans (rfl)

theorem clrErr (x : BitVec 3) : Statement (.clrErr x) := by
  exact (packImm_and 0x3F#8 (x.setWidth 32) 0xFFFFFFF8#32).trans (by rw [show x.setWidth 32 &&& 0xFFFFFFF8#32 = 0#32 from setWidth_and_high x]; rfl)

end Sys2Proof.Laws.TableRow
end

