-- ==== Sys2Proof/Laws/Wave.lean ====
section
/-! SUPPORT. The waveforms and the arithmetic of a sample as numbers: each shape as a function of `theta.toNat`, and the bounds of the sine
table, found by evaluating it. -/

namespace Sys2Proof.Machine

theorem toNat_extractLsb' (theta : PhaseWord) (a b : Nat) : (theta.extractLsb' a b).toNat = theta.toNat / 2 ^ a % 2 ^ b := by
  simp [BitVec.extractLsb', Nat.shiftRight_eq_div_pow]

/-! ## The table -/

set_option maxRecDepth 100000 in
theorem qsin_bounds {j : Nat} (h : j ≤ 256) : 0 ≤ qsin j ∧ qsin j ≤ 32768 := by
  have all : ∀ j : Fin 257, 0 ≤ qsin j.1 ∧ qsin j.1 ≤ 32768 := by decide +kernel
  exact all ⟨j, by omega⟩

set_option maxRecDepth 100000 in
/-- The table rises strictly, by at most 201 a step (40 R122, R125). -/
theorem qsin_rise {j : Nat} (h : j < 256) : qsin j < qsin (j + 1) ∧ qsin (j + 1) - qsin j ≤ 201 := by
  have all : ∀ j : Fin 256, qsin j.1 < qsin (j.1 + 1) ∧ qsin (j.1 + 1) - qsin j.1 ≤ 201 := by decide +kernel
  exact all ⟨j, h⟩

theorem fullSine_quad0 {j : Nat} (h : j < 256) : fullSine j = qsin j := by
  simp [fullSine, show j / 256 = 0 by omega, show j % 256 = j by omega]

theorem fullSine_quad1 {j : Nat} (h : j < 256) : fullSine (256 + j) = qsin (256 - j) := by
  simp [fullSine, show (256 + j) / 256 = 1 by omega, show (256 + j) % 256 = j by omega]

theorem fullSine_quad2 {j : Nat} (h : j < 256) : fullSine (512 + j) = -qsin j := by
  simp [fullSine, show (512 + j) / 256 = 2 by omega, show (512 + j) % 256 = j by omega]

theorem fullSine_quad3 {j : Nat} (h : j < 256) : fullSine (768 + j) = -qsin (256 - j) := by
  simp [fullSine, show (768 + j) / 256 = 3 by omega, show (768 + j) % 256 = j by omega]

/-- Every table index lies in one of the four quadrants. -/
theorem quadrant_cases {k : Nat} (h : k < 1024) :
    ∃ j, j < 256 ∧ (k = j ∨ k = 256 + j ∨ k = 512 + j ∨ k = 768 + j) :=
  ⟨k % 256, by omega, by omega⟩

theorem fullSine_bounds {k : Nat} (h : k < 1024) : -32768 ≤ fullSine k ∧ fullSine k ≤ 32768 := by
  obtain ⟨j, hj, rfl | rfl | rfl | rfl⟩ := quadrant_cases h
  · have := qsin_bounds (j := k) (by omega); rw [fullSine_quad0 hj]; omega
  · have := qsin_bounds (j := 256 - j) (by omega); rw [fullSine_quad1 hj]; omega
  · have := qsin_bounds (j := j) (by omega); rw [fullSine_quad2 hj]; omega
  · have := qsin_bounds (j := 256 - j) (by omega); rw [fullSine_quad3 hj]; omega

/-! ## The shapes as numbers (40 R125 to R129) -/

theorem wave_sine (theta : PhaseWord) :
    wave 1#3 theta = fullSine (theta.toNat / 2 ^ 22) +
      ((fullSine ((theta.toNat / 2 ^ 22 + 1) % 1024) - fullSine (theta.toNat / 2 ^ 22)) *
        ((theta.toNat / 2 ^ 10 % 4096 : Nat) : Int)) / 4096 := by
  have h : theta.toNat / 2 ^ 22 % 2 ^ 10 = theta.toNat / 2 ^ 22 := Nat.mod_eq_of_lt (by have := theta.isLt; omega)
  change sineWave theta = _
  simp only [sineWave, toNat_extractLsb', h]
  rfl

theorem wave_square (theta : PhaseWord) : wave 2#3 theta = if theta.toNat < 2 ^ 31 then 32768 else -32768 := by
  change squareWave theta = _
  have h : theta.getLsbD 31 = decide (2 ^ 31 ≤ theta.toNat) := by
    rw [BitVec.getLsbD, Nat.testBit_eq_decide_div_mod_eq, decide_eq_decide]
    have := theta.isLt; omega
  unfold squareWave
  rw [h]
  by_cases hlt : theta.toNat < 2 ^ 31
  · rw [if_pos hlt, if_neg (by simpa using hlt)]
  · rw [if_neg hlt, if_pos (by simpa using hlt)]

theorem wave_sawtooth (theta : PhaseWord) : wave 3#3 theta = ((theta.toNat / 2 ^ 16 : Nat) : Int) - 32768 := by
  change sawtoothWave theta = _
  have h : theta.toNat / 2 ^ 16 % 2 ^ 16 = theta.toNat / 2 ^ 16 := by have := theta.isLt; omega
  simp only [sawtoothWave, toNat_extractLsb', h]

theorem wave_four (theta : PhaseWord) : wave 4#3 theta = triangleWave theta := by
  simp only [wave, BitVec.reduceToNat]

theorem wave_triangle (theta : PhaseWord) :
    wave 4#3 theta = if ((theta.toNat / 2 ^ 15 : Nat) : Int) < 65536 then ((theta.toNat / 2 ^ 15 : Nat) : Int) - 32768
      else 98304 - ((theta.toNat / 2 ^ 15 : Nat) : Int) := by
  have h : theta.toNat / 2 ^ 15 % 2 ^ 17 = theta.toNat / 2 ^ 15 := by have := theta.isLt; omega
  have hu : ((theta.extractLsb' 15 17).toNat : Int) = ((theta.toNat / 2 ^ 15 : Nat) : Int) := by rw [toNat_extractLsb', h]
  rw [wave_four]
  unfold triangleWave
  simp only [hu]

theorem wave_silent {shape : ShapeCode} (h : shape.toNat = 0 ∨ 5 ≤ shape.toNat) (theta : PhaseWord) : wave shape theta = 0 := by
  unfold wave; split <;> omega

/-! ## Operators (42 R152 to R156) -/

theorem signal_zero (p : Params) (g : Grid) (l : Loc) : g.signal p 0 l = silence p := rfl

theorem length_operatorSamples (p : Params) (x : Cell) (m : List Int) : (operatorSamples p x m).length = p.bufLen := by
  simp [operatorSamples]

/-- The samples of an operator under a modulator signal that is itself given sample by sample. -/
theorem operatorSamples_map (p : Params) (x : Cell) (f : Nat → Int) :
    operatorSamples p x ((List.range p.bufLen).map f) = (List.range p.bufLen).map (fun i => operatorSample x i (f i)) := by
  refine List.map_congr_left (fun i hi => ?_)
  have hi : i < p.bufLen := List.mem_range.mp hi
  simp [hi]

theorem silence_eq_map (p : Params) : silence p = (List.range p.bufLen).map (fun _ => (0 : Int)) := by
  simp [silence]

end Sys2Proof.Machine
end

