-- ==== Sys2Proof/Tests/Slice0.lean ====
section
/-! SUPPORT. The model's own tests. Every expected value is taken from the spec: the encodings of 30 R94 and R110, the tables of 40 R133
and 44 R206, and the vectors of 95. The second half shows, for every statement with hypotheses, a state that meets them. -/

namespace Sys2Proof.Tests

open Sys2Proof.Machine Sys2Proof.Claims

/-! ## Well-formedness: an ill-formed term for each check -/

theorem test_refuses_setVol_above_one : (Instr.setVol 0x8001#16).wellFormed = false := by decide
theorem test_refuses_setMaster_above_one : (Instr.setMaster 0xFFFF#16).wellFormed = false := by decide
theorem test_refuses_opVol_above_one : (Instr.opVol 0#8 0#8 0x8001#16).wellFormed = false := by decide
theorem test_accepts_volume_one : (Instr.opVol 255#8 255#8 0x8000#16).wellFormed = true := by decide

/-! ## Decoding: one word per command, written out from 30 R90 to R94 as `OPC ROW COL RSV IMM` -/

theorem test_decode_nop : decode (0x00#8 ++ 0#8 ++ 0#8 ++ 0#8 ++ 0x00000000#32) = .ok .nop := by decide
theorem test_decode_setFreq : decode (0x01#8 ++ 0#8 ++ 0#8 ++ 0#8 ++ 0xFFFFFFFF#32) = .ok (.setFreq 0xFFFFFFFF#32) := by decide
theorem test_decode_setVol : decode (0x02#8 ++ 0#8 ++ 0#8 ++ 0#8 ++ 0x00008000#32) = .ok (.setVol 0x8000#16) := by decide
theorem test_decode_setShape : decode (0x03#8 ++ 0#8 ++ 0#8 ++ 0#8 ++ 0x00000004#32) = .ok (.setShape 4#3) := by decide
theorem test_decode_setModIdx : decode (0x04#8 ++ 0#8 ++ 0#8 ++ 0#8 ++ 0x0000FFFF#32) = .ok (.setModIdx 0xFFFF#16) := by decide
theorem test_decode_setMaster : decode (0x05#8 ++ 0#8 ++ 0#8 ++ 0#8 ++ 0x00000001#32) = .ok (.setMaster 1#16) := by decide
theorem test_decode_setMode : decode (0x06#8 ++ 0#8 ++ 0#8 ++ 0#8 ++ 0x00000001#32) = .ok (.setMode 1#1) := by decide
theorem test_decode_activate : decode (0x10#8 ++ 7#8 ++ 3#8 ++ 0#8 ++ 0x00000000#32) = .ok (.activate 7#8 3#8) := by decide
theorem test_decode_deactivate : decode (0x11#8 ++ 255#8 ++ 1#8 ++ 0#8 ++ 0x00000000#32) = .ok (.deactivate 255#8 1#8) := by decide
theorem test_decode_link : decode (0x12#8 ++ 1#8 ++ 2#8 ++ 0#8 ++ 0x00000304#32) = .ok (.link 1#8 2#8 3#8 4#8) := by decide
theorem test_decode_unlink : decode (0x13#8 ++ 2#8 ++ 1#8 ++ 0#8 ++ 0x00000000#32) = .ok (.unlink 2#8 1#8) := by decide
theorem test_decode_opFreq : decode (0x20#8 ++ 1#8 ++ 2#8 ++ 0#8 ++ 0x12345678#32) = .ok (.opFreq 1#8 2#8 0x12345678#32) := by decide
theorem test_decode_opVol : decode (0x21#8 ++ 0#8 ++ 1#8 ++ 0#8 ++ 0x00004000#32) = .ok (.opVol 0#8 1#8 0x4000#16) := by decide
theorem test_decode_opShape : decode (0x22#8 ++ 1#8 ++ 0#8 ++ 0#8 ++ 0x00000007#32) = .ok (.opShape 1#8 0#8 7#3) := by decide
theorem test_decode_opModIdx : decode (0x23#8 ++ 7#8 ++ 3#8 ++ 0#8 ++ 0x00000200#32) = .ok (.opModIdx 7#8 3#8 0x0200#16) := by decide
theorem test_decode_start : decode (0x30#8 ++ 0#8 ++ 0#8 ++ 0#8 ++ 0x00000000#32) = .ok .start := by decide
theorem test_decode_stop : decode (0x31#8 ++ 0#8 ++ 0#8 ++ 0#8 ++ 0x00000000#32) = .ok .stop := by decide
theorem test_decode_clrErr : decode (0x3F#8 ++ 0#8 ++ 0#8 ++ 0#8 ++ 0x00000005#32) = .ok (.clrErr 5#3) := by decide

/-- Legal words of 95 section 2.6, at the ends of the ranges. -/
theorem test_decode_legal_words :
    [0x01000000FFFFFFFF#64, 0x0200000000008000#64, 0x0300000000000007#64, 0x040000000000FFFF#64, 0x0600000000000001#64,
      0x11FF000000000000#64, 0x1200000000000800#64, 0x20000000FFFFFFFF#64, 0x3F00000000000007#64].all
      (fun w => (decodeTableWord 64 w.toNat).isSome) = true := by decide

/-- Illegal words of 95 section 2.6. -/
theorem test_decode_illegal_words :
    [0x0000000000000001#64, 0x0001000000000000#64, 0x0000000100000000#64, 0x0100000100000000#64, 0x0200000000008001#64,
      0x0200000000010000#64, 0x0300000000000008#64, 0x0300010000000001#64, 0x0400000000010000#64, 0x0600000000000002#64,
      0x0700000000000000#64, 0x1009000100000000#64, 0x1000000000000001#64, 0x1200000000010000#64, 0x1400000000000000#64,
      0x2200000000000008#64, 0x3000000000000001#64, 0x3101000000000000#64, 0x3F00000000000008#64, 0xFFFFFFFFFFFFFFFF#64].all
      (fun w => (decodeTableWord 64 w.toNat).isNone) = true := by decide

/-! ## Bytes, text and conversions -/

/-- 20 R73. -/
theorem test_command_bytes :
    commandBytes 0x1000010000000000#64 = [0x00#8, 0x00#8, 0x00#8, 0x00#8, 0x00#8, 0x01#8, 0x00#8, 0x10#8] := by decide

theorem test_sample_bytes : sampleBytes 0x3F800000#32 = [0x00#8, 0x00#8, 0x80#8, 0x3F#8] := by decide

/-- 00 R6: 440 Hz, 660 Hz and 0.1 Hz at 44100. -/
theorem test_tuning_words :
    tuningOfHz 44100 440 1 = 0x028DDFB9 ∧ tuningOfHz 44100 660 1 = 0x03D4CF96 ∧ tuningOfHz 44100 1 10 = 0x0000260B := by decide +kernel

/-- 30 R110. -/
theorem test_assemble_link :
    assembleLine "LINK 1, 0, 0, 1 ; row 0 feeds row 1" = some [0x1201000000000001#64] := by decide

/-- 30 R110: a comment and blanks behind a command without operands, tabs, blanks around a comma. -/
theorem test_assemble_blanks :
    assembleLine "START ; c" = some [0x3000000000000000#64] ∧ assembleLine "STOP  " = some [0x3100000000000000#64] ∧
    assembleLine "NOTEOFF; c" = some [0x1100000000000000#64, 0x3100000000000000#64] ∧
    assembleLine "ACTIVATE\t0 ,1" = some [0x1000010000000000#64] := by decide +kernel

/-- The model's choices (log 13): no blank inside an operand, no operand of no text, no volume above 1.0. -/
theorem test_assemble_refuses :
    assembleLine "SETFREQ 1 0" = none ∧ assembleLine "SETFREQ 440 Hz" = none ∧ assembleLine "ACTIVATE 0, 1," = none ∧
    assembleLine "SETVOL 1.00001" = none := by decide +kernel

/-- 95 P5. -/
theorem test_assemble_word :
    assembleLine ".word     0x4000000000000000   ; unassigned opcode 0x40" = some [0x4000000000000000#64] := by decide +kernel

/-- 30 R111. -/
theorem test_assemble_suffixes :
    assembleLine "SETFREQ 440Hz" = some [0x01000000028DDFB9#64] ∧ assembleLine "SETVOL 0.5" = some [0x0200000000004000#64] ∧
    assembleLine "SETMODIDX 2.0" = some [0x0400000000000200#64] := by decide +kernel

/-- 30 R112, R113. -/
theorem test_assemble_notes :
    assembleLine "NOTEON 440Hz" = some [0x01000000028DDFB9#64, 0x1000000000000000#64, 0x3000000000000000#64] ∧
    assembleLine "NOTEOFF" = some [0x1100000000000000#64, 0x3100000000000000#64] := by decide

/-- 30 R114. -/
theorem test_assemble_voice :
    assembleLine "VOICE 2, 0x10, 1.0, SINE" =
      some [0x0100000000000010#64, 0x0200000000008000#64, 0x0300000000000001#64, 0x1002000000000000#64] := by decide

/-! ## Waveforms and samples -/

/-- 40 R122: the sum of the 257 entries. -/
theorem test_sine_table_sum : qsinTable.length = 257 ∧ qsinTable.sum = 5356720 := by decide +kernel

/-- 40 R133. -/
theorem test_sine_values :
    wave 1#3 0x003FFFFF#32 = 200 ∧ wave 1#3 0x40000000#32 = 32768 ∧ wave 1#3 0xFFFFFFFF#32 = -1 ∧ wave 1#3 0x028DDFB9#32 = 2052 ∧
    wave 1#3 0x8B51D947#32 = -8988 ∧ wave 1#3 0x15555555#32 = 16383 := by decide +kernel

/-- 40 R133. -/
theorem test_ramp_values :
    wave 3#3 0x3FFFFFFF#32 = -16385 ∧ wave 4#3 0x3FFFFFFF#32 = -1 ∧ wave 4#3 0x80400000#32 = 32640 ∧ wave 2#3 0x80000000#32 = -32768 := by
  decide +kernel

/-- 95 section 2.3. -/
theorem test_modulation_offsets :
    modOffset 0x0040#16 (-32768) = 0xC0000000#32 ∧ modOffset 0xFFFF#16 32768 = 0xFF000000#32 ∧
    modOffset 0x0001#16 (-1) = 0xFFFFFE00#32 ∧ modOffset 0x0200#16 21821 = 0x54F40000#32 := by decide +kernel

/-- 95 section 2.3. -/
theorem test_volume_products :
    applyVolume 0x6000#16 (-12345) = -9259 ∧ applyVolume 0x7FFF#16 32768 = 32767 ∧ applyVolume 0x0001#16 (-32768) = -1 := by decide

/-- 44 R206. -/
theorem test_binary32_words : f32 2052 = 0x3D804000#32 ∧ f32 (-8988) = 0xBE8C7000#32 ∧ f32 32767 = 0x3F7FFE00#32 := by decide

/-! ## States to start from -/

/-- A small block: three rows of two operators, buffers of four samples, room for two commands. -/
def small : Params := { rows := 3, cols := 2, bufLen := 4, channels := .mono, qdepth := 2 }

/-- The default block with the buffers of eight samples of 95 section 3. -/
def eight : Params := { Params.default with bufLen := 8 }

/-- The state a command leaves. -/
def after (i : Instr) (s : State) : State :=
  match exec i s with
  | .next t => t
  | .fault _ => s
  | .refused _ => s

/-- The state commands leave, one after the other. -/
def afterAll : List Instr → State → State
  | [], s => s
  | i :: rest, s => afterAll rest (after i s)

/-- The state a step leaves. -/
def stepped (s : State) : State :=
  match step s with
  | .next t => t
  | .fault _ => s
  | .refused _ => s

/-- The small block with every control register set, no operator yet. -/
def dialled : State :=
  { State.resetWith small with
    ctlFreq := 0x10000000#32, ctlVol := 0x8000#16, ctlShape := 2#3, ctlModidx := 0x0100#16, ctlMaster := 0x8000#16 }

/-- Row 0 a chain of two operators, row 1 one operator, row 2 empty. -/
def grown : State := activateCell 1#8 0#8 (activateCell 0#8 1#8 (activateCell 0#8 0#8 dialled))

/-- The same, and the operator of row 1 modulated by the second of row 0. -/
def shared : State := { grown with grid := grown.grid.modify (1, 0) (Cell.setRef 0#8 1#8 0x0100#16) }

/-! ## One step of each kind -/

theorem test_setFreq : (after (.setFreq 0xFFFFFFFF#32) dialled).ctlFreq = 0xFFFFFFFF#32 := by decide
theorem test_setMode : (after (.setMode 1#1) dialled).modeAdd = true ∧ (after (.setMode 0#1) { dialled with modeAdd := true }).modeAdd = false := by
  decide

/-- 43 R170: the predecessor takes the reference and the index; the fresh cell has none. -/
theorem test_activate_links_predecessor :
    let t := after (.activate 1#8 1#8) grown
    (t.cell 1 0).modulator = some (1, 1) ∧ (t.cell 1 0).modidx = 0x0100#16 ∧ (t.cell 1 1).modulator = none ∧ (t.cell 1 1).modidx = 0#16 := by
  decide

/-- 43 R172, 95 P4: the third harmonic. -/
theorem test_activate_harmonic :
    let t := after (.activate 2#8 0#8) { dialled with modeAdd := true, ctlFreq := 0x08000000#32 }
    (t.cell 2 0).freq = 0x20000000#32 ∧ (t.cell 2 0).vol = 0x2000#16 := by decide

/-- 43 R173, R174, 95 P3: both references to the shared modulator go, the indices stay. -/
theorem test_deactivate_clears_references :
    let t := after (.deactivate 0#8 1#8) shared
    (t.cell 0 1) = Cell.zero ∧ (t.cell 0 0).modulator = none ∧ (t.cell 1 0).modulator = none ∧ (t.cell 1 0).modidx = 0x0100#16 := by decide

/-- 43 R173: the rest of the row goes too. -/
theorem test_deactivate_cascades :
    let t := after (.deactivate 0#8 0#8) grown
    t.cell 0 0 = Cell.zero ∧ t.cell 0 1 = Cell.zero ∧ (t.cell 1 0).active = true := by decide

/-- 43 R175, 95 P3: the refused cycle. -/
theorem test_link_refuses_cycle :
    let t := after (.link 0#8 1#8 1#8 0#8) shared
    t.errCycle = true ∧ t.errcmd = 0x1200010000000100#64 ∧ t.grid = shared.grid := by decide

/-- 43 R175. -/
theorem test_link_sets_reference :
    ((after (.link 1#8 0#8 0#8 1#8) grown).cell 1 0).modulator = some (0, 1) := by decide

/-- 43 R176: the index stays. -/
theorem test_unlink :
    let t := after (.unlink 1#8 0#8) shared
    (t.cell 1 0).modulator = none ∧ (t.cell 1 0).modidx = 0x0100#16 := by decide

theorem test_opFreq : ((after (.opFreq 0#8 1#8 7#32) grown).cell 0 1).freq = 7#32 ∧ after (.opFreq 2#8 0#8 7#32) grown = grown := by decide
theorem test_opVol : ((after (.opVol 1#8 0#8 0x4000#16) grown).cell 1 0).vol = 0x4000#16 := by decide
theorem test_opShape : ((after (.opShape 1#8 0#8 6#3) grown).cell 1 0).shape = 6#3 := by decide
theorem test_opModIdx : ((after (.opModIdx 0#8 0#8 9#16) grown).cell 0 0).modidx = 9#16 := by decide

/-- 45 R240. -/
theorem test_clrErr :
    let t := after (.clrErr 2#3) { dialled with errIllegal := true, errRange := true, errCycle := true, errcmd := 5#64 }
    t.errIllegal = true ∧ t.errRange = false ∧ t.errCycle = true ∧ t.errcmd = 5#64 := by decide

/-- 60 R261, 95 P5. -/
theorem test_range_error :
    let t := after (.activate 9#8 0#8) State.reset
    t.errRange = true ∧ t.errcmd = 0x1009000000000000#64 ∧ t.grid = State.reset.grid := by decide

/-- 44 R209, 95 P5: the illegal word is flagged, `STOP` ends the step, what is behind it stays, no buffer is emitted. -/
theorem test_stop_in_the_drain :
    let t := stepped { grown with run := true, cmdq := [0x4000000000000000#64, 0x3100000000000000#64, 0x0200000000004000#64] }
    t.run = false ∧ t.errIllegal = true ∧ t.errcmd = 0x4000000000000000#64 ∧ t.cmdq = [0x0200000000004000#64] ∧ t.out = [] ∧
    t.grid = grown.grid := by decide

/-- 44 R208: one command a step while stopped. -/
theorem test_apply_takes_one_command :
    let t := stepped { dialled with cmdq := [0x0200000000004000#64, 0x1000000000000000#64] }
    t.ctlVol = 0x4000#16 ∧ t.cmdq = [0x1000000000000000#64] := by decide

/-- 95 P2, the first buffer: a chain of three operators. -/
theorem test_buffer_of_a_chain :
    let s := afterAll [.setVol 0x8000#16, .setMaster 0x8000#16, .setModIdx 0x0040#16, .setShape 1#3, .setFreq 0x10000000#32,
      .activate 0#8 0#8, .setShape 2#3, .setFreq 0x20000000#32, .activate 0#8 1#8, .activate 1#8 1#8, .setShape 4#3,
      .setFreq 0x08000000#32, .setModIdx 0x0080#16, .activate 0#8 2#8, .start] (State.resetWith eight)
    (stepped s).out = [[0xBF800000#32, 0xBF6C8400#32, 0xBF350400#32, 0x3EC3F000#32, 0x00000000#32, 0xBEC3F000#32, 0x3F350400#32,
      0x3F6C8400#32]] ∧ ((stepped s).cell 0 2).phase = 0x40000000#32 := by decide +kernel

/-- 95 P3, the first buffer: a shared modulator advances once. -/
theorem test_buffer_of_a_shared_modulator :
    let s := afterAll [.setVol 0x8000#16, .setMaster 0x8000#16, .setModIdx 0x0020#16, .setShape 1#3, .setFreq 0x10000000#32,
      .activate 0#8 0#8, .setFreq 0x18000000#32, .activate 1#8 0#8, .setShape 3#3, .setFreq 0x04000000#32, .activate 0#8 1#8,
      .link 1#8 0#8 0#8 1#8, .start] (State.resetWith eight)
    (stepped s).out = [[0xBF350400#32, 0xBE87E800#32, 0x3E740800#32, 0x3F28EC00#32, 0x3F625400#32, 0x3F5C4800#32, 0x3F1DB600#32,
      0x3E784800#32]] ∧ ((stepped s).cell 0 1).phase = 0x20000000#32 := by decide +kernel

/-- 95 P4, the first buffer: three harmonics at gain 1. -/
theorem test_buffer_in_additive_mode :
    let s := afterAll [.setMode 1#1, .setMaster 0x8000#16, .setShape 2#3, .setFreq 0x08000000#32, .activate 0#8 0#8,
      .activate 1#8 0#8, .activate 2#8 0#8, .start] (State.resetWith eight)
    (stepped s).out = [[0x3F155400#32, 0x3F155400#32, 0x3F155400#32, 0x3F155400#32, 0x3ED55400#32, 0x3ED55400#32, 0x3ED55400#32,
      0x3ED55400#32]] := by decide +kernel

/-- 20 R70, R71: `GEOM` and the `CFG` of 95 P3. -/
theorem test_read_words :
    regRead 0x00001#20 State.reset = 0x00000307#32 ∧ regRead 0x80800#20 shared = 0x00000115#32 ∧
    regRead 0x80008#20 shared = 0x00000005#32 := by decide

/-- The interface's way to place a command: the first step after reset runs it. -/
theorem test_placed_command_runs_first :
    let t := stepped (State.reset.withFetchWord 64 0x1007000000000000)
    (t.cell 7 0).active = true ∧ t.cmdq = [] := by decide

/-! ## Witnesses: states that meet the hypotheses of the statements

One theorem for each statement with hypotheses, and for each of its clauses, at the ends of the ranges. -/

theorem small_legal : small.Legal := by unfold Params.Legal; decide

/-- The largest grid, a shortest buffer and the smallest queue. -/
def large : Params := { rows := 256, cols := 256, bufLen := 1, channels := .stereo, qdepth := 1 }

theorem large_legal : large.Legal := by unfold Params.Legal; decide

theorem dialled_inv : Inv dialled :=
  { legal := small_legal, grid := Grid.Inv.empty small, ctlVol := by decide, ctlMaster := by decide, queue := by decide }

/-- An activation in the grid keeps the invariants. -/
theorem activated_inv {s : State} (r c : Coord) (hs : Inv s) (h : inGrid s.params r c = true) : Inv (activateCell r c s) := by
  have e := activateCell_eq r c s
  have hg := activateCell_inv hs h
  rw [e]
  exact { legal := hs.legal, grid := hg, ctlVol := hs.ctlVol, ctlMaster := hs.ctlMaster, queue := hs.queue }

theorem grown_inv : Inv grown :=
  activated_inv _ _ (activated_inv _ _ (activated_inv _ _ dialled_inv (by decide)) (by decide)) (by decide)

theorem shared_inv : Inv shared :=
  { legal := small_legal
    grid := link_inv (p := small) (r := 1#8) (c := 0#8) (mr := 0#8) (mc := 1#8) grown_inv.grid (by decide) (by decide) (by decide)
      (by decide)
    ctlVol := by decide, ctlMaster := by decide, queue := by decide }

/-- A running state with operators and an empty queue. -/
def playing : State := { shared with run := true }

theorem playing_inv : Inv playing :=
  { legal := small_legal, grid := shared_inv.grid, ctlVol := shared_inv.ctlVol, ctlMaster := shared_inv.ctlMaster, queue := by decide }

/-! ### Encoding -/

theorem witness_DecodeAndEncodeAgree :
    (Instr.opVol 255#8 255#8 0x8000#16).wellFormed = true ∧ decode 0x21FFFF0000008000#64 = .ok (.opVol 255#8 255#8 0x8000#16) := by
  decide

theorem witness_IllegalWordsAreThoseOfTheMap :
    (∀ row ∈ opcodeMap, ¬RowAllows row 0x0200000000008001#64) ∧ (∃ row ∈ opcodeMap, RowAllows row 0x0200000000008000#64) ∧
    ({ dialled with cmdq := [0x0200000000008001#64] } : State).cmdq = 0x0200000000008001#64 :: [] := by
  refine ⟨?_, ⟨⟨0x02, "SETVOL", .I, 0x8000⟩, ?_, ?_⟩, rfl⟩
  · simp only [RowAllows, rowField, colField, immField]; decide
  · simp [opcodeMap]
  · simp only [RowAllows, rowField, colField, immField]; decide

theorem witness_DecodedOperandsAreTheFields : decode 0x12010200000000FF#64 = .ok (.link 1#8 2#8 0#8 255#8) := by decide

theorem witness_HertzConversionRoundsToNearestEven : 0 < 44100 ∧ 0 < 10 := by decide

/-! ### Steps -/

/-- All three ways in which a step is the engine's. -/
theorem engineMoves_all :
    EngineMoves dialled dialled ∧
    EngineMoves { dialled with schedule := [.engine] } dialled ∧
    EngineMoves { dialled with schedule := [.hostPush 0#64], cmdq := [0#64, 0#64] }
      { dialled with schedule := [.hostPush 0#64], cmdq := [0#64, 0#64] } :=
  ⟨Or.inl ⟨rfl, rfl⟩, Or.inr (Or.inl ⟨[], rfl, rfl⟩), Or.inr (Or.inr ⟨0#64, [], rfl, by decide, rfl⟩)⟩

theorem witness_StoppedEngineRunsTheHeadCommand :
    EngineMoves dialled dialled ∧ dialled.run = false ∧ dialled.cmdq = [] ∧
    ({ dialled with cmdq := [0x3000000000000000#64] } : State).cmdq = 0x3000000000000000#64 :: [] ∧
    decode 0x3000000000000000#64 = .ok .start ∧ decode 0x0700000000000000#64 = .illegal .undefinedOpcode :=
  ⟨engineMoves_all.1, rfl, rfl, rfl, by decide, by decide⟩

/-- A word after which the block runs on, and one after which it has stopped. -/
theorem witness_RunningEngineAppliesThenEmits :
    EngineMoves playing playing ∧ playing.run = true ∧ playing.cmdq = [] ∧
    (∃ t, applyWord 0#64 playing = .next t ∧ t.run = true) ∧ ∃ t, applyWord 0x3100000000000000#64 playing = .next t ∧ t.run = false :=
  ⟨Or.inl ⟨rfl, rfl⟩, rfl, rfl, ⟨_, rfl, rfl⟩, ⟨_, rfl, rfl⟩⟩

theorem witness_PlacedCommandRunsNext : State.reset.run = false ∧ (Instr.setVol 0x8000#16).wellFormed = true := by decide

/-- One place left, and none. -/
theorem witness_PushesAppendOrWait :
    (let s := { dialled with schedule := [.hostPush 5#64], cmdq := [0#64] }
     s.schedule = .hostPush 5#64 :: [] ∧ s.cmdq.length < s.params.qdepth) ∧
    (let s := { dialled with schedule := [.hostPush 5#64], cmdq := [0#64, 0#64] }
     s.params.Legal ∧ s.cmdq.length = s.params.qdepth ∧ ∃ t, step s = .next t) :=
  ⟨⟨rfl, by decide⟩, small_legal, rfl, _, rfl⟩

theorem witness_ResetTurnRestoresTheResetState :
    playing.params.Legal ∧ ({ playing with schedule := [.reset, .engine] } : State).schedule = .reset :: [.engine] ∧
    4 ≤ (4#20 : ReadAddr).toNat ∧ (3#20 : ReadAddr).toNat < 4 := ⟨small_legal, rfl, by decide, by decide⟩

theorem witness_ResetLeavesEverythingZero :
    (7#8 : Coord).toNat < 8 ∧ State.reset.modeAdd = false ∧ State.reset.ctlMaster = 0 := by decide

/-! ### Errors -/

/-- The first row and the first column outside; both ends of a `LINK`. -/
theorem witness_CoordinatesOutsideTheGridAreFlagged :
    NamesOutside small (.activate 3#8 0#8) ∧ NamesOutside small (.opFreq 0#8 2#8 0#32) ∧ NamesOutside small (.link 0#8 0#8 3#8 0#8) ∧
    ¬NamesOutside small (.link 2#8 1#8 2#8 1#8) ∧ large.rows = 256 ∧ large.cols = 256 := by
  simp only [NamesOutside, Outside]; decide

theorem witness_AFlaggedCommandDoesNothingElse :
    ∃ t, applyWord 0x1003000000000000#64 dialled = .next t ∧ dialled.flag .range = false ∧ t.flag .range = true ∧
      t.errcmd ≠ dialled.errcmd := ⟨_, rfl, by decide, by decide, by decide⟩

/-- Two running states that differ in a flag, the captured word and the record of reads, and nothing else. -/
theorem witness_FlagsGateNothing :
    let s' := { playing with errRange := true, errcmd := 5#64, reads := [(0#20, 0#32)] }
    withoutErrors playing = withoutErrors s' ∧ playing ≠ s' ∧ (∃ t, step playing = .next t) ∧ ∃ t, step s' = .next t :=
  ⟨rfl, by decide, ⟨_, rfl⟩, ⟨_, rfl⟩⟩

/-! ### Control registers, run control -/

theorem witness_NopDoesNothing : ({ dialled with cmdq := [0#64, 1#64] } : State).cmdq = 0#64 :: [1#64] := rfl

theorem witness_RegisterCommandsWriteTheirRegister : (0x8000#16 : VolumeWord).toNat ≤ 0x8000 ∧ 0x8000 < (0x8001#16 : VolumeWord).toNat := by
  decide

/-- A `CLRERR` as a command, as a step, and a reset. -/
theorem witness_OnlyClrErrClearsFlags :
    let s := { dialled with errCycle := true, cmdq := [0x3F00000000000004#64] }
    let s' := { s with schedule := [.reset] }
    s.flag .cycle = true ∧ (∃ t, exec (.clrErr 4#3) s = .next t ∧ t.flag .cycle = false) ∧ (∃ t, step s = .next t ∧ t.flag .cycle = false) ∧
      s'.flag .cycle = true ∧ ∃ t, step s' = .next t ∧ t.flag .cycle = false :=
  ⟨rfl, ⟨_, rfl, by decide⟩, ⟨_, rfl, by decide⟩, rfl, _, rfl, by decide⟩

/-- Every register changes under its command. -/
theorem witness_EachRegisterHasItsWriters :
    (after (.setFreq 1#32) dialled).ctlFreq ≠ dialled.ctlFreq ∧ (after (.setVol 1#16) dialled).ctlVol ≠ dialled.ctlVol ∧
    (after (.setShape 1#3) dialled).ctlShape ≠ dialled.ctlShape ∧ (after (.setModIdx 1#16) dialled).ctlModidx ≠ dialled.ctlModidx ∧
    (after (.setMaster 1#16) dialled).ctlMaster ≠ dialled.ctlMaster ∧ (after (.setMode 1#1) dialled).modeAdd ≠ dialled.modeAdd ∧
    (after .start dialled).run ≠ dialled.run ∧ (after .stop playing).run ≠ playing.run ∧ ∃ t, exec .start dialled = .next t :=
  ⟨by decide, by decide, by decide, by decide, by decide, by decide, by decide, by decide, _, rfl⟩

/-- A step that ends stopped and one that ends running. -/
theorem witness_StopInTheDrainEndsTheStep :
    (let s := { playing with cmdq := [0#64, 0x3100000000000000#64] }
     EngineMoves s s ∧ s.run = true ∧ ∃ t, step s = .next t ∧ t.run = false) ∧
    (let s := { playing with cmdq := [0#64] }
     EngineMoves s s ∧ s.run = true ∧ ∃ t, step s = .next t ∧ t.run = true) :=
  ⟨⟨Or.inl ⟨rfl, rfl⟩, rfl, _, rfl, by decide⟩, ⟨Or.inl ⟨rfl, rfl⟩, rfl, _, rfl, by decide⟩⟩

/-! ### Live parameters and the grid -/

/-- The last cell of the grid, active and not. -/
theorem witness_LiveCommandsWriteOneField :
    Within grown.params 0#8 1#8 ∧ ActiveAt grown 0 1 ∧ Within grown.params 2#8 1#8 ∧ ¬ActiveAt grown 2 1 ∧
    (0x8000#16 : VolumeWord).toNat ≤ 0x8000 := by simp only [Within, ActiveAt]; decide

/-- A refused cell, a fresh root, a fresh cell behind an active one, an active cell. -/
theorem witness_ActivateBuildsTheOperator :
    (Within grown.params 2#8 1#8 ∧ ¬ActiveAt grown 2 0) ∧ (Within grown.params 2#8 0#8 ∧ ¬ActiveAt grown 2 0) ∧
    (Within grown.params 1#8 1#8 ∧ ActiveAt grown 1 0 ∧ ¬ActiveAt grown 1 1) ∧ (Within grown.params 0#8 1#8 ∧ ActiveAt grown 0 0 ∧ ActiveAt grown 0 1) := by
  simp only [Within, ActiveAt]; decide

/-- Additive mode, the last row of the largest grid, and a column above 0 in both modes. -/
theorem witness_AdditiveRootsAreHarmonics :
    (let s := { State.resetWith large with modeAdd := true, ctlFreq := 0x08000000#32, ctlMaster := 0x8000#16 }
     s.modeAdd = true ∧ (255#8 : Coord).toNat < s.params.rows ∧ 0 < s.params.cols ∧ 32 ≤ (255#8 : Coord).toNat ∧
       (∃ t, exec (.activate 255#8 0#8) s = .next t) ∧ ∃ t, exec (.activate 5#8 0#8) s = .next t) ∧
    (1#8 : Coord) ≠ 0#8 ∧ (∃ t, exec (.activate 1#8 1#8) { grown with modeAdd := true } = .next t) ∧
    ∃ t, exec (.activate 1#8 1#8) { grown with modeAdd := false } = .next t :=
  ⟨⟨rfl, by decide, by decide, by decide, ⟨_, rfl⟩, ⟨_, rfl⟩⟩, by decide, ⟨_, rfl⟩, ⟨_, rfl⟩⟩

theorem witness_ReactivationKeepsTheChain :
    Inv shared ∧ ActiveAt shared 0 1 ∧ ActiveAt shared 1 0 ∧ (∃ t, exec (.activate 0#8 1#8) shared = .next t) ∧
    ∃ t, exec (.activate 1#8 0#8) shared = .next t := ⟨shared_inv, rfl, rfl, ⟨_, rfl⟩, ⟨_, rfl⟩⟩

/-- `DEACTIVATE 0, 1`: one cell is removed, two others refer to it, one is neither; and a cell that is not active. -/
theorem witness_DeactivateRemovesTheRestOfTheRow :
    Within shared.params 0#8 1#8 ∧ ActiveAt shared 0 1 ∧ Removed shared 0 1 (0, 1) ∧ ¬Removed shared 0 1 (1, 0) ∧
    (shared.grid.get (1, 0)).modulator = some (0, 1) ∧ ¬Removed shared 0 1 (2, 0) ∧ (shared.grid.get (2, 0)).modulator = none ∧
    Within shared.params 2#8 1#8 ∧ ¬ActiveAt shared 2 1 := by simp only [Within, ActiveAt, Removed]; decide

/-- Nothing refers on from a cell without modulator. -/
theorem walk_ends {g : Grid} {l m : Loc} (h : (g.get l).modulator = none) (hne : l ≠ m) (k : Nat) : g.walk k l ≠ some m := by
  cases k with
  | zero => simpa using hne
  | succ k => simp [Grid.walk_succ, h]

/-- A carrier that is no tail; a cycle of two; a cell and itself; a reference that is taken. -/
theorem witness_LinkSetsTheModulatorOfATail :
    Inv shared ∧ RightActive shared 0#8 0#8 ∧
    (ActiveAt shared 0 1 ∧ ActiveAt shared 1 0 ∧ ¬RightActive shared 0#8 1#8 ∧ ∃ k, shared.grid.walk k (1, 0) = some (0, 1)) ∧
    (∃ k, shared.grid.walk k (1, 0) = some (1, 0)) ∧
    (ActiveAt grown 1 0 ∧ ActiveAt grown 0 1 ∧ ¬RightActive grown 1#8 0#8 ∧ ∀ k, grown.grid.walk k (0, 1) ≠ some (1, 0)) ∧
    ¬ActiveAt grown 2 0 ∧ Within small 2#8 0#8 := by
  refine ⟨shared_inv, ?_, ⟨rfl, rfl, ?_, 1, by decide⟩, ⟨0, rfl⟩, ⟨rfl, rfl, ?_, walk_ends (by decide) (by decide)⟩, ?_, ?_⟩
  · simp only [RightActive, ActiveAt]; decide
  · simp only [RightActive, ActiveAt]; decide
  · simp only [RightActive, ActiveAt]; decide
  · simp only [ActiveAt]; decide
  · simp only [Within]; decide

/-- An edge that closes a cycle and one that does not. -/
theorem witness_CycleCheckIsExact :
    Inv shared ∧ Within shared.params 0#8 1#8 ∧ reaches shared.grid (place 0#8 1#8) shared.params.cells (place 1#8 0#8) = true ∧
    Inv grown ∧ Within grown.params 1#8 0#8 ∧ reaches grown.grid (place 1#8 0#8) grown.params.cells (place 0#8 1#8) = false := by
  refine ⟨shared_inv, ?_, by decide, grown_inv, ?_, by decide⟩ <;> · simp only [Within]; decide

theorem witness_UnlinkClearsTheReference :
    Within shared.params 1#8 0#8 ∧ ActiveAt shared 1 0 ∧ ¬RightActive shared 1#8 0#8 ∧ RightActive shared 0#8 0#8 ∧
    Within shared.params 2#8 1#8 ∧ ¬ActiveAt shared 2 1 ∧ Inv shared ∧ (shared.grid.get (0, 1)).modv = false := by
  refine ⟨?_, ?_, ?_, ?_, ?_, ?_, shared_inv, by decide⟩ <;> · simp only [Within, RightActive, ActiveAt]; decide

theorem witness_SilentFailuresChangeNothing :
    Inv grown ∧ Within grown.params 2#8 1#8 ∧ (1#8 : Coord) ≠ 0#8 ∧ ¬ActiveAt grown 2 0 ∧ ¬ActiveAt grown 2 1 ∧
    RightActive grown 0#8 0#8 ∧ Within grown.params 1#8 0#8 ∧ (grown.grid.get (1, 0)).modv = false ∧ playing.run = true ∧
    grown.run = false := by
  refine ⟨grown_inv, ?_⟩; simp only [Within, RightActive, ActiveAt]; decide

theorem witness_OnlyActivationChangesActivityOrPhase :
    (∃ t, exec (.opShape 0#8 0#8 1#3) grown = .next t) ∧ ∀ r c, Instr.opShape 0#8 0#8 1#3 ≠ .activate r c :=
  ⟨⟨_, rfl⟩, fun _ _ => by simp⟩

/-! ### Invariants -/

theorem witness_ResetHasTheInvariants : small.Legal ∧ large.Legal := ⟨small_legal, large_legal⟩

theorem witness_CommandsKeepTheInvariants : Inv shared ∧ ∃ t, exec (.deactivate 0#8 0#8) shared = .next t := ⟨shared_inv, _, rfl⟩

theorem witness_StepKeepsTheInvariants : Inv playing ∧ ∃ t, step playing = .next t := ⟨playing_inv, _, rfl⟩

theorem witness_BufcntCountsTheBuffers : (∀ rest, playing.schedule ≠ .reset :: rest) ∧ ∃ t, step playing = .next t :=
  ⟨fun _ h => by rw [show playing.schedule = [] from rfl] at h; exact absurd h (by simp), _, rfl⟩

/-! ### Waveforms and operators -/

/-- Both ends of every quadrant of the table. -/
theorem witness_FullWaveTableIsSymmetric : 0 < 256 ∧ 255 < 256 ∧ 0 < 1024 ∧ 1023 < 1024 := by decide

/-- A rising and a falling pair of neighbours, and the last pair. -/
theorem witness_SineInterpolatesBetweenNeighbours :
    fullSine 0 ≤ fullSine 1 ∧ fullSine 257 < fullSine 256 ∧ fullSine 1023 ≤ fullSine ((1023 + 1) % 1024) := by decide +kernel

/-- A falling pair at a phase where the floor reaches the next entry. -/
theorem witness_FallingSineNeverReachesTheNextEntry :
    fullSine ((0x40000400#32 : PhaseWord).toNat / 2 ^ 22 + 1) < fullSine ((0x40000400#32 : PhaseWord).toNat / 2 ^ 22) := by decide +kernel

theorem witness_SawtoothIsTheTruncatedRamp : 0xFFFF0000 ≤ (0xFFFF0000#32 : PhaseWord).toNat := by decide

/-- The last phase of the rise, the first of the fall, the last of all. -/
theorem witness_TriangleIsASawtoothOfTwiceThePhase :
    (0x7FFFFFFF#32 : PhaseWord).toNat < 2 ^ 31 ∧ 2 ^ 31 ≤ (0x80000000#32 : PhaseWord).toNat ∧
    0xFFFF8000 ≤ (0xFFFF8000#32 : PhaseWord).toNat := by decide

theorem witness_SilentShapesGiveZero :
    (0#3 : ShapeCode).toNat = 0 ∧ 5 ≤ (5#3 : ShapeCode).toNat ∧ 5 ≤ (7#3 : ShapeCode).toNat ∧ Within small 2#8 1#8 := by
  simp only [Within]; decide

theorem witness_WaveStaysInRange : (0x400003FF#32 : PhaseWord).toNat / 2 ^ 10 = 0x100000 := by decide

/-- Two different phases for each shape. -/
theorem witness_WaveDependsOnTopBitsOnly :
    (0x000003FF#32 : PhaseWord).toNat / 2 ^ 10 = (0#32 : PhaseWord).toNat / 2 ^ 10 ∧
    (0x7FFFFFFF#32 : PhaseWord).toNat / 2 ^ 31 = (0#32 : PhaseWord).toNat / 2 ^ 31 ∧
    (0x0000FFFF#32 : PhaseWord).toNat / 2 ^ 16 = (0#32 : PhaseWord).toNat / 2 ^ 16 ∧
    (0x00007FFF#32 : PhaseWord).toNat / 2 ^ 15 = (0#32 : PhaseWord).toNat / 2 ^ 15 := by decide

theorem witness_VolumeProductIsAFloor : (0x8000#16 : VolumeWord).toNat ≤ 0x8000 ∧ (-32768 : Int) ≤ -32768 ∧ (32768 : Int) ≤ 32768 := by
  decide

theorem witness_ModulationOffsetIsExact : (-32768 : Int) ≤ -32768 ∧ (-32768 : Int) ≤ 32768 ∧ (32768 : Int) ≤ 32768 := by decide

theorem witness_SeamContinuesTheProgression : 1 ≤ large.bufLen := by decide

/-- An operator that is in the memo, and one that is active and not in it. -/
theorem witness_EvaluationHappensOnce :
    0 < small.cells ∧ memoGet (2, 0) (shared.grid, [((2, 0), [])]).2 ≠ none ∧ (shared.grid.get (1, 0)).active = true := by decide

/-- Two grids that differ, and agree on what the operator `(0, 1)` can reach. -/
theorem witness_EvaluationIsLocal :
    small.Legal ∧ shared.grid.Inv small ∧ grown.grid.Inv small ∧ shared.grid ≠ grown.grid ∧ (shared.grid.get (0, 1)).active = true ∧
    (∀ k m, shared.grid.walk k (0, 1) = some m → grown.grid.get m = shared.grid.get m) ∧ ∀ k, shared.grid.walk k (0, 1) ≠ some (1, 0) := by
  refine ⟨small_legal, shared_inv.grid, grown_inv.grid, by decide, by decide, fun k m h => ?_, walk_ends (by decide) (by decide)⟩
  by_cases hm : (0, 1) = m
  · subst hm; decide
  · exact absurd h (walk_ends (by decide) hm k)

/-! ### Buffers -/

theorem playing_moves : EngineMoves playing playing ∧ playing.run = true ∧ playing.cmdq = [] := ⟨Or.inl ⟨rfl, rfl⟩, rfl, rfl⟩

/-- An active and an inactive cell. -/
theorem witness_EveryActivePhaseAdvancesOnce :
    Inv playing ∧ EngineMoves playing playing ∧ playing.run = true ∧ playing.cmdq = [] ∧ (playing.grid.get (0, 1)).active = true ∧
    (playing.grid.get (2, 0)).active = false := ⟨playing_inv, playing_moves.1, rfl, rfl, by decide, by decide⟩

theorem witness_EmittedBufferIsTheScaledMean : Inv playing ∧ EngineMoves playing playing ∧ playing.run = true ∧ playing.cmdq = [] :=
  ⟨playing_inv, playing_moves⟩

theorem witness_NoVoiceEmitsSilence :
    let s := { dialled with run := true }
    EngineMoves s s ∧ s.run = true ∧ s.cmdq = [] ∧ ∀ r, r < s.params.rows → ¬ActiveAt s r 0 :=
  ⟨Or.inl ⟨rfl, rfl⟩, rfl, rfl, fun r _ => by simp [ActiveAt, dialled]⟩

/-- A chain in row 0, and the same chain in row 1. -/
def chainIn (r : Coord) : State := activateCell r 1#8 (activateCell r 0#8 dialled)

theorem chainIn_inv (r : Coord) (h : inGrid small r 0#8 = true ∧ inGrid small r 1#8 = true) : Inv (chainIn r) := by
  refine activated_inv _ _ (activated_inv _ _ dialled_inv h.1) ?_
  rw [activateCell_eq]
  exact h.2

/-- The two active rows the other way round; a chain moved from row 0 to row 1. -/
theorem witness_MixIsIndependentOfOrder :
    (Inv playing ∧ [1, 0].Perm (voiceSet playing)) ∧
    (Inv (chainIn 0#8) ∧ (chainIn 1#8).grid.Inv (chainIn 0#8).params ∧ 0 < (chainIn 0#8).params.rows ∧ 1 < (chainIn 0#8).params.rows ∧
      RowsExchanged 0 1 (chainIn 0#8).grid (chainIn 1#8).grid) := by
  refine ⟨⟨playing_inv, by decide⟩, chainIn_inv 0#8 (by decide), (chainIn_inv 1#8 (by decide)).grid, by decide, by decide, ?_⟩
  intro r c
  by_cases h0 : (r, c) = (0, 0)
  · obtain ⟨rfl, rfl⟩ := Prod.mk.inj h0; exact ⟨1#8, by decide, by decide, by decide⟩
  by_cases h1 : (r, c) = (0, 1)
  · obtain ⟨rfl, rfl⟩ := Prod.mk.inj h1; exact ⟨0#8, by decide, by decide, by decide⟩
  have hg : (chainIn 0#8).grid.get (r, c) = Cell.zero :=
    Grid.get_of_not_place (by rw [show (chainIn 0#8).grid.places = [(0, 0), (0, 1)] by decide]; simp [h0, h1])
  have hs : swapRow 0 1 r = 1 → r = 0 := by intro h; unfold swapRow at h; split_ifs at h <;> omega
  have hh : (chainIn 1#8).grid.get (swapRow 0 1 r, c) = Cell.zero := by
    refine Grid.get_of_not_place ?_
    rw [show (chainIn 1#8).grid.places = [(1, 0), (1, 1)] by decide]
    simp only [List.mem_cons, List.not_mem_nil, or_false, Prod.mk.injEq]
    rintro (⟨h, rfl⟩ | ⟨h, rfl⟩)
    · exact h0 (by rw [hs h])
    · exact h1 (by rw [hs h])
  exact ⟨0#8, by rw [hg, hh]; rfl, by rw [hg]; simp, by rw [hg]; simp⟩

theorem witness_PhaseLawOverBuffers :
    Inv playing ∧ playing.run = true ∧ playing.cmdq = [] ∧ playing.schedule = [] ∧ (playing.grid.get (0, 1)).active = true :=
  ⟨playing_inv, rfl, rfl, rfl, by decide⟩

/-- One voice at gain 1 at the end of the range, and several at any gain. -/
theorem witness_MixIsTheFlooredMean :
    1 ≤ 1 ∧ (0x8000#16 : VolumeWord).toNat ≤ 0x8000 ∧ |(-32768 : Int)| ≤ (1 : Nat) * 32768 ∧ |(98304 : Int)| ≤ (3 : Nat) * 32768 := by decide

theorem witness_Binary32ConversionIsExact : (-32768 : Int) ≠ 0 ∧ (-32768 : Int) ≤ -32768 ∧ (32768 : Int) ≤ 32768 ∧ (1 : Int) ≠ 0 := by decide

/-- The last word of a stereo buffer, and the last word of a list. -/
theorem witness_FramesCarryEqualWords :
    2 < [0, 1, (2 : Int)].length ∧ 1 < large.channels.count ∧ [0#32, 5#32][1]? = some 5#32 := by decide

theorem witness_EmittedBuffersAreBounded : Inv playing ∧ ∃ t b, step playing = .next t ∧ t.out = playing.out ++ [b] :=
  ⟨playing_inv, _, _, rfl, rfl⟩

/-! ### The read space -/

theorem witness_GlobalReadWords : Inv shared ∧ shared.params.bufLen < 2 ^ 32 ∧ shared.params.qdepth < 2 ^ 32 :=
  ⟨shared_inv, by decide, by decide⟩

/-- The last cell of a small grid and of the largest. -/
theorem witness_CellReadWords : Within shared.params 2#8 1#8 ∧ Within large 255#8 255#8 := by simp only [Within]; decide

/-- The ends of both gaps; the first row and column outside, the first unused word; a read about to be taken. -/
theorem witness_ReadsOutsideTheMapGiveZero :
    (0x00009 ≤ (0x00009#20 : ReadAddr).toNat ∧ (0x0000F#20 : ReadAddr).toNat ≤ 0x0000F) ∧
    (0x00016 ≤ (0x00016#20 : ReadAddr).toNat ∧ (0x7FFFF#20 : ReadAddr).toNat ≤ 0x7FFFF) ∧
    (0x80000 ≤ (0x81800#20 : ReadAddr).toNat ∧ small.rows ≤ ((0x81800#20 : ReadAddr).toNat - 0x80000) / 0x800) ∧
    small.cols ≤ (0x80010#20 : ReadAddr).toNat / 8 % 256 ∧ 5 ≤ (0x80005#20 : ReadAddr).toNat % 8 ∧
    ({ shared with schedule := [.hostRead 4#20] } : State).schedule = .hostRead 4#20 :: [] :=
  ⟨by decide, by decide, by decide, by decide, by decide, rfl⟩

end Sys2Proof.Tests
end

section
/-! PROOFS. The scope of the model (spec 00): the conversion of hertz rounds to nearest with ties to even, every step has a next state,
and what a step can do to the parameters, `OUT` and `BUFCNT`. -/

namespace Sys2Proof.Machine

open Sys2Proof.Claims

/-! ## Rounding to nearest, ties to even (00 R6) -/

/-- The rounded quotient is the floor or its successor: the floor only up to half a step, the successor only from half a step on, and
at half a step the even one of the two. -/
theorem roundHalfEven_cases (num den : Nat) :
    (roundHalfEven num den = num / den ∧ 2 * (num % den) ≤ den ∧ (2 * (num % den) = den → num / den % 2 = 0)) ∨
    (roundHalfEven num den = num / den + 1 ∧ den ≤ 2 * (num % den) ∧ (2 * (num % den) = den → (num / den + 1) % 2 = 0)) := by
  unfold roundHalfEven
  dsimp only
  split_ifs with below above even
  · exact .inl ⟨rfl, by omega, by omega⟩
  · exact .inr ⟨rfl, by omega, by omega⟩
  · exact .inl ⟨rfl, by omega, fun _ => even⟩
  · exact .inr ⟨rfl, by omega, by omega⟩

/-- The rounded quotient is within half a step of `num / den`, and even where it is exactly half a step away. -/
theorem roundHalfEven_nearest {num den : Nat} (hden : 0 < den) :
    2 * (roundHalfEven num den * den) ≤ 2 * num + den ∧
    2 * num ≤ 2 * (roundHalfEven num den * den) + den ∧
    (2 * (roundHalfEven num den * den) = 2 * num + den ∨ 2 * num = 2 * (roundHalfEven num den * den) + den →
      roundHalfEven num den % 2 = 0) := by
  have hdiv : num / den * den + num % den = num := Nat.div_add_mod' num den
  have hlt : num % den < den := Nat.mod_lt num hden
  obtain ⟨hq, hr, heven⟩ | ⟨hq, hr, heven⟩ := roundHalfEven_cases num den
  · rw [hq]
    exact ⟨by omega, by omega, fun tie => heven (by omega)⟩
  · rw [hq, Nat.succ_mul (num / den)]
    exact ⟨by omega, by omega, fun tie => heven (by omega)⟩

/-- Settles O5: the conversion is `roundHalfEven` of `num · 2^32` by `den · R`; the six words are computed. -/
theorem hertzConversionRoundsToNearestEven : Obligations.HertzConversionRoundsToNearestEven := by
  refine ⟨fun rate num den hrate hden => ?_, ?_⟩
  · exact roundHalfEven_nearest (Nat.mul_pos hden hrate)
  · decide

/-! ## Every step has a next state (00 R14) -/

theorem engineApply_next (s : State) : ∃ t, engineApply s = .next t := by
  cases hq : s.cmdq with
  | nil => exact ⟨s, applyHead_nil hq⟩
  | cons w q =>
    obtain ⟨t, ht⟩ := applyWord_next w { s with cmdq := q }
    exact ⟨t, (applyHead_cons hq).trans ht⟩

theorem engineBuffer_next {s : State} (hr : s.run = true) : ∃ t, engineBuffer s = .next t := by
  induction hq : s.cmdq generalizing s with
  | nil => exact ⟨_, engineBuffer_nil hr hq⟩
  | cons w q ih =>
    obtain ⟨u, hu⟩ := applyWord_next w { s with cmdq := q }
    rw [engineBuffer_cons hq hu]
    split_ifs with hur
    · exact ih hur (applyWord_engineFrame hu).cmdq
    · exact ⟨u, rfl⟩

theorem engineStep_next (s : State) : ∃ t, engineStep s = .next t := by
  unfold engineStep
  split_ifs with hr
  · exact engineBuffer_next hr
  · exact engineApply_next s

/-- What one step can be: the engine's move, a push with room, a read, or a reset (00 R11, 44 R210). -/
theorem step_cases (s : State) :
    (∃ s₀, EngineMoves s s₀ ∧ step s = engineStep s₀) ∨
    (∃ w rest, s.schedule = .hostPush w :: rest ∧ s.cmdq.length < s.params.qdepth ∧
      step s = .next (hostPush w { s with schedule := rest })) ∨
    (∃ a rest, s.schedule = .hostRead a :: rest ∧ step s = .next (hostRead a { s with schedule := rest })) ∨
    (∃ rest, s.schedule = .reset :: rest ∧ step s = .next (hostReset { s with schedule := rest })) := by
  unfold step takeTurn
  split
  next hs => exact .inl ⟨s, .inl ⟨hs, rfl⟩, rfl⟩
  next w rest hs =>
    split_ifs with room
    · exact .inr (.inl ⟨w, rest, hs, of_decide_eq_true room, rfl⟩)
    · have hfull : s.params.qdepth ≤ s.cmdq.length := by simpa [cmdReady] using room
      exact .inl ⟨s, .inr (.inr ⟨w, rest, hs, hfull, rfl⟩), rfl⟩
  next a rest hs => exact .inr (.inr (.inl ⟨a, rest, hs, rfl⟩))
  next rest hs => exact .inl ⟨_, .inr (.inl ⟨rest, hs, rfl⟩), rfl⟩
  next rest hs => exact .inr (.inr (.inr ⟨rest, hs, rfl⟩))

theorem step_next (s : State) : ∃ t, step s = .next t := by
  obtain ⟨s₀, -, h⟩ | ⟨w, rest, -, -, h⟩ | ⟨a, rest, -, h⟩ | ⟨rest, -, h⟩ := step_cases s
  · rw [h]; exact engineStep_next s₀
  all_goals exact ⟨_, h⟩

/-- Settles O9: by the four kinds of step, and by the commands' own totality. -/
theorem everyStepHasANextState : Obligations.EveryStepHasANextState :=
  ⟨step_next, exec_next⟩

/-! ## The parameters, `OUT` and `BUFCNT` (00 R12, 10 R33, R36) -/

/-- From `s` to `t` no buffer is emitted, or one, and then the block runs at both ends. -/
def EmitsAtMostOne (s t : State) : Prop :=
  (t.out = s.out ∧ t.bufcnt = s.bufcnt) ∨
    (s.run = true ∧ t.run = true ∧ ∃ b, t.out = s.out ++ [b] ∧ t.bufcnt = s.bufcnt + 1)

/-- Applying a command emits nothing. -/
theorem EngineFrame.emitsAtMostOne {s t : State} (h : EngineFrame s t) : EmitsAtMostOne s t := .inl ⟨h.out, h.bufcnt⟩

/-- In a running block, commands applied before an emission do not count. -/
theorem EngineFrame.emitsAtMostOne_trans {s u t : State} (h : EngineFrame s u) (hr : s.run = true) (ht : EmitsAtMostOne u t) :
    EmitsAtMostOne s t := by
  unfold EmitsAtMostOne at ht
  rw [h.out, h.bufcnt] at ht
  exact ht.imp_right fun ⟨_, htr, hb⟩ => ⟨hr, htr, hb⟩

theorem emitBuffer_emitsAtMostOne {s : State} (hr : s.run = true) : EmitsAtMostOne s (emitBuffer s) :=
  .inr ⟨hr, hr, _, rfl, rfl⟩

theorem engineApply_emission {s t : State} (h : engineApply s = .next t) : t.params = s.params ∧ EmitsAtMostOne s t := by
  cases hq : s.cmdq with
  | nil =>
    obtain rfl := Host.Outcome.next.inj ((applyHead_nil hq).symm.trans h)
    exact ⟨rfl, .inl ⟨rfl, rfl⟩⟩
  | cons w q =>
    have hf : EngineFrame { s with cmdq := q } t := applyWord_engineFrame ((applyHead_cons hq).symm.trans h)
    exact ⟨hf.params, hf.emitsAtMostOne⟩

theorem engineBuffer_emission {s t : State} (hr : s.run = true) (h : engineBuffer s = .next t) :
    t.params = s.params ∧ EmitsAtMostOne s t := by
  refine engineBuffer_induct (P := fun s t => t.params = s.params ∧ EmitsAtMostOne s t) ?emit ?stop ?more hr h
  case emit => exact fun s hr _ => ⟨rfl, emitBuffer_emitsAtMostOne hr⟩
  case stop =>
    intro s w q t _ _ ht _
    have hf := applyWord_engineFrame ht
    exact ⟨hf.params, hf.emitsAtMostOne⟩
  case more =>
    rintro s w q u t hr _ hu _ ⟨hparams, hemit⟩
    have hf := applyWord_engineFrame hu
    exact ⟨hparams.trans hf.params, hf.emitsAtMostOne_trans hr hemit⟩

theorem engineStep_emission {s t : State} (h : engineStep s = .next t) : t.params = s.params ∧ EmitsAtMostOne s t := by
  unfold engineStep at h
  split_ifs at h with hr
  · exact engineBuffer_emission hr h
  · exact engineApply_emission h

/-- The state the engine moves from differs from the step's in the schedule only. -/
theorem engineMoves_eq_withSchedule {s s₀ : State} (h : EngineMoves s s₀) : s₀ = { s with schedule := s₀.schedule } := by
  obtain ⟨-, rfl⟩ | ⟨rest, -, rfl⟩ | ⟨w, rest, -, -, rfl⟩ := h <;> rfl

/-- Settles O34: a push and a read leave all three alone, a reset keeps the parameters, and the engine emits at most one buffer. -/
theorem bufcntCountsTheBuffers : Obligations.BufcntCountsTheBuffers := by
  intro s t ht
  obtain ⟨s₀, hmoves, h⟩ | ⟨w, rest, -, -, h⟩ | ⟨a, rest, -, h⟩ | ⟨rest, hs, h⟩ := step_cases s <;> rw [h] at ht
  · obtain ⟨hparams, hemit⟩ := engineStep_emission ht
    rw [engineMoves_eq_withSchedule hmoves] at hparams hemit
    exact ⟨hparams, fun _ => hemit⟩
  · obtain rfl := Host.Outcome.next.inj ht
    exact ⟨rfl, fun _ => .inl ⟨rfl, rfl⟩⟩
  · obtain rfl := Host.Outcome.next.inj ht
    exact ⟨rfl, fun _ => .inl ⟨rfl, rfl⟩⟩
  · obtain rfl := Host.Outcome.next.inj ht
    exact ⟨rfl, fun noReset => absurd hs (noReset rest)⟩

end Sys2Proof.Machine
end

section
/-! PROOFS. The state of the block (spec 10): the reset state, the writers of the control registers, and the invariants, kept by
every command and by every step. -/

namespace Sys2Proof.Machine

open Sys2Proof.Claims

/-! ## The reset state (10 R44) -/

theorem resetWith_allZero (p : Params) : AllZero (State.resetWith p) :=
  ⟨Grid.get_empty, rfl, rfl, rfl, rfl, rfl, rfl, rfl, rfl, rfl, rfl, rfl, rfl, rfl, rfl⟩

/-- A root in the grid is always activated (43 R170). -/
theorem exec_activate_root {s : State} {r : Coord} (hrow : r.toNat < s.params.rows) (hcols : 0 < s.params.cols) :
    ∃ t, exec (.activate r 0#8) s = .next t ∧
      t.grid.get (r.toNat, 0) = activatedCell s r 0#8 (s.grid.get (r.toNat, 0)) := by
  have hin : inGrid s.params r 0#8 = true := (inGrid_iff _ _ _).mpr ⟨hrow, hcols⟩
  have hmay : mayActivate s r 0#8 = true := (mayActivate_iff _ _ _).mpr (.inl rfl)
  refine ⟨activateCell r 0#8 s, congrArg Host.Outcome.next (checkRange_pos hin), ?_⟩
  rw [activateCell_get hmay]
  exact if_pos rfl

theorem snapshotVol_gridMode {s : State} (hmode : s.modeAdd = false) (r c : Coord) : snapshotVol s r c = s.ctlVol := by
  simp [snapshotVol, hmode]

theorem mixSample_zero_gain (sum : Int) (n : Nat) : mixSample sum 0#16 n = 0 := by
  simp [mixSample]

theorem mixBuffer_zero_gain {s : State} (hgain : mixGain s = 0#16) (ws : List (List Int)) :
    mixBuffer s ws = List.replicate s.params.bufLen 0 := by
  simp [mixBuffer, hgain, mixSample_zero_gain]

/-- Settles O12: an activated root takes its shape and volume from registers that are 0 after reset; a mix under gain 0 is 0. -/
theorem resetLeavesEverythingZero : Obligations.ResetLeavesEverythingZero := by
  refine ⟨resetWith_allZero _, resetWith_allZero, fun r hr => ?root, fun s ws hmode hmaster => ?mix⟩
  case root =>
    obtain ⟨t, ht, hcell⟩ := exec_activate_root (s := State.reset) hr (by decide)
    refine ⟨t, ht, ?_⟩
    rw [hcell, activatedCell_vol, snapshotVol_gridMode rfl]
    exact ⟨rfl, rfl, rfl⟩
  case mix =>
    have hgain : mixGain s = 0#16 := by simp [mixGain, hmode, hmaster]
    exact mixBuffer_zero_gain hgain ws

theorem resetWith_inv {p : Params} (hp : p.Legal) : Inv (State.resetWith p) where
  legal := hp
  grid := Grid.Inv.empty p
  ctlVol := by simp
  ctlMaster := by simp
  queue := by simp

theorem Params.default_legal : Params.default.Legal := by
  unfold Params.Legal; decide

/-- Settles O31: the empty grid has its invariants, every register is 0 and the queue is empty. -/
theorem resetHasTheInvariants : Obligations.ResetHasTheInvariants :=
  ⟨resetWith_inv Params.default_legal, fun _ => resetWith_inv⟩

/-! ## What holds after a checked command

Each check either flags the command or carries it out (45 R221), and a live command writes an active cell or nothing (45 R231). -/

section Checks
variable {P : State → Prop} {i : Instr} {f : State → State} {s : State}

theorem checkRange_induct {ok : Bool} (flagged : P (flagError .range (encode i) s)) (done : ok = true → P (f s)) :
    P (checkRange i ok f s) := by
  cases ok with
  | true => rw [checkRange_pos rfl]; exact done rfl
  | false => rw [checkRange_neg rfl]; exact flagged

theorem checkVolume_induct {v : VolumeWord} (flagged : P (flagError .illegal (encode i) s))
    (done : v.toNat ≤ 0x8000 → P (f s)) : P (checkVolume i v f s) := by
  by_cases hv : v.toNat ≤ 0x8000
  · rw [checkVolume_pos hv]; exact done hv
  · rw [checkVolume_neg hv]; exact flagged

theorem onActive_induct {r c : Coord} {f : Cell → Cell} (inactive : P s)
    (active : (s.grid.get (r.toNat, c.toNat)).active = true → P (s.modifyCell r.toNat c.toNat f)) :
    P (onActive r c f s) := by
  cases ha : (s.cell r.toNat c.toNat).active with
  | true => rw [onActive_pos ha]; exact active ha
  | false => rw [onActive_neg ha]; exact inactive

theorem deactivateFrom_induct {r c : Coord} (inactive : P s)
    (active : (s.grid.get (r.toNat, c.toNat)).active = true →
      P { s with grid := cascade r.toNat c.toNat (s.params.cols - c.toNat) s.grid }) :
    P (deactivateFrom r c s) := by
  cases ha : (s.cell r.toNat c.toNat).active with
  | true => rw [deactivateFrom_pos ha]; exact active ha
  | false => rw [deactivateFrom_neg ha]; exact inactive

end Checks

/-! ## The writers of the control registers (10 R29, R30) -/

/-- `t` has the control registers, the mode and the run bit of `s`. -/
structure ControlsKept (s t : State) : Prop where
  ctlFreq   : t.ctlFreq = s.ctlFreq
  ctlVol    : t.ctlVol = s.ctlVol
  ctlShape  : t.ctlShape = s.ctlShape
  ctlModidx : t.ctlModidx = s.ctlModidx
  ctlMaster : t.ctlMaster = s.ctlMaster
  modeAdd   : t.modeAdd = s.modeAdd
  run       : t.run = s.run

theorem ControlsKept.refl (s : State) : ControlsKept s s := ⟨rfl, rfl, rfl, rfl, rfl, rfl, rfl⟩

theorem ControlsKept.grid (s : State) (g : Grid) : ControlsKept s { s with grid := g } :=
  ⟨rfl, rfl, rfl, rfl, rfl, rfl, rfl⟩

theorem ControlsKept.flag (e : ErrKind) (w : CommandWord) (s : State) : ControlsKept s (flagError e w s) := by
  constructor <;> simp

theorem ControlsKept.range {i : Instr} {ok : Bool} {f : State → State} {s : State} (h : ControlsKept s (f s)) :
    ControlsKept s (checkRange i ok f s) :=
  checkRange_induct (.flag _ _ _) fun _ => h

theorem ControlsKept.volume {i : Instr} {v : VolumeWord} {f : State → State} {s : State} (h : ControlsKept s (f s)) :
    ControlsKept s (checkVolume i v f s) :=
  checkVolume_induct (.flag _ _ _) fun _ => h

theorem ControlsKept.active (r c : Coord) (f : Cell → Cell) (s : State) : ControlsKept s (onActive r c f s) :=
  onActive_induct (.refl s) fun _ => .grid _ _

theorem ControlsKept.activate (r c : Coord) (s : State) : ControlsKept s (activateCell r c s) := by
  rw [activateCell_eq]; exact .grid _ _

theorem ControlsKept.deactivate (r c : Coord) (s : State) : ControlsKept s (deactivateFrom r c s) :=
  deactivateFrom_induct (.refl s) fun _ => .grid _ _

theorem ControlsKept.link (w : CommandWord) (r c mr mc : Coord) (s : State) : ControlsKept s (linkCells w r c mr mc s) := by
  obtain ⟨h, -⟩ | ⟨-, -, -, ⟨-, h⟩ | ⟨-, h⟩⟩ := linkCells_cases w r c mr mc s <;> rw [h]
  · exact .refl s
  · exact .flag _ _ _
  · exact .grid _ _

theorem ControlsKept.unlink (r c : Coord) (s : State) : ControlsKept s (unlinkCell r c s) := by
  obtain ⟨h, -⟩ | ⟨-, -, h⟩ := unlinkCell_cases r c s <;> rw [h]
  · exact .refl s
  · exact .grid _ _

/-- What a command can do to the control registers, the mode and the run bit: its own command writes one of them and nothing else of the
state, and every other case leaves them all (45 R229). -/
inductive ControlEffect (s : State) : Instr → State → Prop where
  | setFreq (x : TuningWord) : ControlEffect s (.setFreq x) { s with ctlFreq := x }
  | setVol {x : VolumeWord} (hx : x.toNat ≤ 0x8000) : ControlEffect s (.setVol x) { s with ctlVol := x }
  | setShape (x : ShapeCode) : ControlEffect s (.setShape x) { s with ctlShape := x }
  | setModIdx (x : IndexWord) : ControlEffect s (.setModIdx x) { s with ctlModidx := x }
  | setMaster {x : VolumeWord} (hx : x.toNat ≤ 0x8000) : ControlEffect s (.setMaster x) { s with ctlMaster := x }
  | setMode (x : BitVec 1) : ControlEffect s (.setMode x) { s with modeAdd := x.getLsbD 0 }
  | start : ControlEffect s .start { s with run := true }
  | stop : ControlEffect s .stop { s with run := false }
  | kept {i : Instr} {t : State} (h : ControlsKept s t) : ControlEffect s i t

/-- A volume register is written with a legal volume, or the command is flagged and writes no register. -/
theorem ControlEffect.volume {i : Instr} {v : VolumeWord} {f : State → State} {s : State}
    (h : v.toNat ≤ 0x8000 → ControlEffect s i (f s)) : ControlEffect s i (checkVolume i v f s) :=
  checkVolume_induct (.kept (.flag _ _ _)) h

theorem exec_controlEffect {i : Instr} {s t : State} (h : exec i s = .next t) : ControlEffect s i t := by
  cases i <;> obtain rfl := Host.Outcome.next.inj h
  case nop => exact .kept (.refl s)
  case setFreq x => exact .setFreq x
  case setVol x => exact .volume .setVol
  case setShape x => exact .setShape x
  case setModIdx x => exact .setModIdx x
  case setMaster x => exact .volume .setMaster
  case setMode x => exact .setMode x
  case activate r c => exact .kept (.range (.activate r c s))
  case deactivate r c => exact .kept (.range (.deactivate r c s))
  case link r c mr mc => exact .kept (.range (.link _ r c mr mc s))
  case unlink r c => exact .kept (.range (.unlink r c s))
  case opFreq r c x => exact .kept (.range (.active r c _ s))
  case opVol r c x => exact .kept (.volume (.range (.active r c _ s)))
  case opShape r c x => exact .kept (.range (.active r c _ s))
  case opModIdx r c x => exact .kept (.range (.active r c _ s))
  case start => exact .start
  case stop => exact .stop
  case clrErr m => exact .kept ⟨rfl, rfl, rfl, rfl, rfl, rfl, rfl⟩

/-- Settles O19: the registers by what a command can do to them, the rest by the frame every command keeps. -/
theorem eachRegisterHasItsWriters : Obligations.EachRegisterHasItsWriters := by
  intro i s t h
  obtain ⟨params, cmdq, out, bufcnt, schedule, reads⟩ := exec_engineFrame h
  simp only [params, cmdq, out, bufcnt, schedule, reads, and_true]
  cases exec_controlEffect h
  case kept hk => simp [hk.ctlFreq, hk.ctlVol, hk.ctlShape, hk.ctlModidx, hk.ctlMaster, hk.modeAdd, hk.run]
  all_goals simp

/-! ## Every command keeps the invariants (10 R43, 43 R178) -/

section GridOfCommands
variable {s : State} {r c : Coord}

theorem checkRange_gridInv {i : Instr} {ok : Bool} {f : State → State} (hg : s.grid.Inv s.params)
    (h : ok = true → (f s).grid.Inv s.params) : (checkRange i ok f s).grid.Inv s.params :=
  checkRange_induct (P := fun t => t.grid.Inv s.params) (by rw [flagError_grid]; exact hg) h

theorem checkVolume_gridInv {i : Instr} {v : VolumeWord} {f : State → State} (hg : s.grid.Inv s.params)
    (h : v.toNat ≤ 0x8000 → (f s).grid.Inv s.params) : (checkVolume i v f s).grid.Inv s.params :=
  checkVolume_induct (P := fun t => t.grid.Inv s.params) (by rw [flagError_grid]; exact hg) h

/-- Writing a field of one cell, outside activity and references, with volumes kept in range. -/
theorem onActive_gridInv {f : Cell → Cell} (hg : s.grid.Inv s.params) (hact : ∀ x, (f x).active = x.active)
    (hvol : ∀ x, x.vol.toNat ≤ 0x8000 → (f x).vol.toNat ≤ 0x8000)
    (href : ∀ x, (f x).modv = x.modv ∧ (f x).modrow = x.modrow ∧ (f x).modcol = x.modcol) :
    (onActive r c f s).grid.Inv s.params :=
  onActive_induct (P := fun t => t.grid.Inv s.params) hg
    fun ha => hg.modify_field ha (hact _) (hvol _ (hg.range _).1) (href _)

theorem deactivateFrom_gridInv (hg : s.grid.Inv s.params) (hc : c.toNat < s.params.cols) :
    (deactivateFrom r c s).grid.Inv s.params :=
  deactivateFrom_induct (P := fun t => t.grid.Inv s.params) hg fun _ => cascade_inv hg hc

/-- The tail condition looks at columns of the grid only; beyond them no cell is active. -/
theorem right_inactive_of_tail (hg : s.grid.Inv s.params) (h : hasActiveRight s r c = false) :
    (s.grid.get (r.toNat, c.toNat + 1)).active = false := by
  by_contra hne
  have hact : (s.grid.get (r.toNat, c.toNat + 1)).active = true := by simpa using hne
  have hright := (hasActiveRight_iff s r c).mpr ⟨(hg.inGrid_of_active hact).2, hact⟩
  exact absurd (h.symm.trans hright) Bool.false_ne_true

theorem linkCells_gridInv {w : CommandWord} {mr mc : Coord} (hg : s.grid.Inv s.params) :
    (linkCells w r c mr mc s).grid.Inv s.params := by
  obtain ⟨h, -⟩ | ⟨ha, hb, htail, ⟨-, h⟩ | ⟨hno, h⟩⟩ := linkCells_cases w r c mr mc s <;> rw [h]
  · exact hg
  · rw [flagError_grid]; exact hg
  · exact link_inv hg ha hb (right_inactive_of_tail hg htail) hno

theorem unlinkCell_gridInv (hg : s.grid.Inv s.params) : (unlinkCell r c s).grid.Inv s.params := by
  obtain ⟨h, -⟩ | ⟨ha, htail, h⟩ := unlinkCell_cases r c s <;> rw [h]
  · exact hg
  · exact unlink_inv hg ha (right_inactive_of_tail hg htail)

end GridOfCommands

theorem exec_gridInv {i : Instr} {s t : State} (hs : Inv s) (h : exec i s = .next t) : t.grid.Inv s.params := by
  have hg := hs.grid
  cases i <;> obtain rfl := Host.Outcome.next.inj h
  case setVol => exact checkVolume_gridInv hg fun _ => hg
  case setMaster => exact checkVolume_gridInv hg fun _ => hg
  case activate r c => exact checkRange_gridInv hg (activateCell_inv hs)
  case deactivate r c =>
    exact checkRange_gridInv hg fun hin => deactivateFrom_gridInv hg ((inGrid_iff _ _ _).mp hin).2
  case link r c mr mc => exact checkRange_gridInv hg fun _ => linkCells_gridInv hg
  case unlink r c => exact checkRange_gridInv hg fun _ => unlinkCell_gridInv hg
  case opFreq r c x =>
    exact checkRange_gridInv hg fun _ => onActive_gridInv hg (fun _ => rfl) (fun _ => id) (fun _ => ⟨rfl, rfl, rfl⟩)
  case opVol r c x =>
    exact checkVolume_gridInv hg fun hx => checkRange_gridInv hg fun _ =>
      onActive_gridInv hg (fun _ => rfl) (fun _ _ => hx) (fun _ => ⟨rfl, rfl, rfl⟩)
  case opShape r c x =>
    exact checkRange_gridInv hg fun _ => onActive_gridInv hg (fun _ => rfl) (fun _ => id) (fun _ => ⟨rfl, rfl, rfl⟩)
  case opModIdx r c x =>
    exact checkRange_gridInv hg fun _ => onActive_gridInv hg (fun _ => rfl) (fun _ => id) (fun _ => ⟨rfl, rfl, rfl⟩)
  all_goals exact hg

/-- The two volume registers stay legal (INV-RANGE, 10 R38). -/
theorem ControlEffect.volumes_le {i : Instr} {s t : State} (h : ControlEffect s i t) (hv : s.ctlVol.toNat ≤ 0x8000)
    (hm : s.ctlMaster.toNat ≤ 0x8000) : t.ctlVol.toNat ≤ 0x8000 ∧ t.ctlMaster.toNat ≤ 0x8000 := by
  cases h
  case setVol hx => exact ⟨hx, hm⟩
  case setMaster hx => exact ⟨hv, hx⟩
  case kept hk => rw [hk.ctlVol, hk.ctlMaster]; exact ⟨hv, hm⟩
  all_goals exact ⟨hv, hm⟩

/-- A change outside the parameters and the queue keeps the invariants where it keeps those of the grid and of the volumes. -/
theorem EngineFrame.inv {s t : State} (hf : EngineFrame s t) (hs : Inv s) (hg : t.grid.Inv s.params)
    (hv : t.ctlVol.toNat ≤ 0x8000) (hm : t.ctlMaster.toNat ≤ 0x8000) : Inv t where
  legal := hf.params ▸ hs.legal
  grid := hf.params ▸ hg
  ctlVol := hv
  ctlMaster := hm
  queue := by rw [hf.cmdq, hf.params]; exact hs.queue

theorem exec_inv {i : Instr} {s t : State} (hs : Inv s) (h : exec i s = .next t) : Inv t := by
  obtain ⟨hv, hm⟩ := (exec_controlEffect h).volumes_le hs.ctlVol hs.ctlMaster
  exact (exec_engineFrame h).inv hs (exec_gridInv hs h) hv hm

/-- Settles O32: the parameters and the queue stay, and the grid and the two volume registers keep their own invariants. -/
theorem commandsKeepTheInvariants : Obligations.CommandsKeepTheInvariants :=
  fun _ _ _ => exec_inv

/-! ## Every step keeps the invariants (10 R43) -/

theorem Inv.flagError {s : State} (hs : Inv s) (e : ErrKind) (w : CommandWord) : Inv (flagError e w s) :=
  (EngineFrame.flag e w s).inv hs (by simpa using hs.grid) (by simpa using hs.ctlVol) (by simpa using hs.ctlMaster)

theorem applyWord_inv {w : CommandWord} {s t : State} (hs : Inv s) (h : applyWord w s = .next t) : Inv t := by
  unfold applyWord at h
  split at h
  · exact exec_inv hs h
  · obtain rfl := Host.Outcome.next.inj h; exact hs.flagError _ _

theorem Inv.withSchedule {s : State} (hs : Inv s) (turns : List Turn) : Inv { s with schedule := turns } :=
  ⟨hs.legal, hs.grid, hs.ctlVol, hs.ctlMaster, hs.queue⟩

theorem Inv.withQueue {s : State} (hs : Inv s) {q : List CommandWord} (hq : q.length ≤ s.params.qdepth) :
    Inv { s with cmdq := q } :=
  ⟨hs.legal, hs.grid, hs.ctlVol, hs.ctlMaster, hq⟩

/-- The state from which a head command is applied. -/
theorem Inv.pop {s : State} (hs : Inv s) {w : CommandWord} {q : List CommandWord} (hq : s.cmdq = w :: q) :
    Inv { s with cmdq := q } := by
  have hlen := hs.queue
  rw [hq, List.length_cons] at hlen
  exact hs.withQueue (Nat.le_of_succ_le hlen)

theorem emitBuffer_inv {s : State} (hs : Inv s) : Inv (emitBuffer s) := by
  rw [emitBuffer_eq hs.legal hs.grid]
  exact ⟨hs.legal, advanceAll_inv hs.grid, hs.ctlVol, hs.ctlMaster, hs.queue⟩

theorem engineApply_inv {s t : State} (hs : Inv s) (h : engineApply s = .next t) : Inv t := by
  cases hq : s.cmdq with
  | nil =>
    obtain rfl := Host.Outcome.next.inj ((applyHead_nil hq).symm.trans h)
    exact hs
  | cons w q => exact applyWord_inv (hs.pop hq) ((applyHead_cons hq).symm.trans h)

theorem engineBuffer_inv {s t : State} (hr : s.run = true) (hs : Inv s) (h : engineBuffer s = .next t) : Inv t := by
  refine engineBuffer_induct (P := fun s t => Inv s → Inv t) ?emit ?stop ?more hr h hs
  case emit => exact fun _ _ _ => emitBuffer_inv
  case stop => exact fun _ _ _ _ _ hq ht _ hs => applyWord_inv (hs.pop hq) ht
  case more => exact fun _ _ _ _ _ _ hq hu _ ih hs => ih (applyWord_inv (hs.pop hq) hu)

theorem engineStep_inv {s t : State} (hs : Inv s) (h : engineStep s = .next t) : Inv t := by
  unfold engineStep at h
  split_ifs at h with hr
  · exact engineBuffer_inv hr hs h
  · exact engineApply_inv hs h

theorem hostPush_inv {s : State} (hs : Inv s) (room : s.cmdq.length < s.params.qdepth) (w : CommandWord) :
    Inv (hostPush w s) :=
  hs.withQueue (by simpa using room)

theorem hostRead_inv {s : State} (hs : Inv s) (a : ReadAddr) : Inv (hostRead a s) :=
  ⟨hs.legal, hs.grid, hs.ctlVol, hs.ctlMaster, hs.queue⟩

theorem hostReset_inv {s : State} (hs : Inv s) : Inv (hostReset s) :=
  (resetWith_inv hs.legal).withSchedule _

theorem step_inv {s t : State} (hs : Inv s) (ht : step s = .next t) : Inv t := by
  obtain ⟨s₀, hmoves, h⟩ | ⟨w, rest, -, room, h⟩ | ⟨a, rest, -, h⟩ | ⟨rest, -, h⟩ := step_cases s <;> rw [h] at ht
  · have hs₀ : Inv s₀ := engineMoves_eq_withSchedule hmoves ▸ hs.withSchedule _
    exact engineStep_inv hs₀ ht
  · obtain rfl := Host.Outcome.next.inj ht
    exact hostPush_inv (hs.withSchedule rest) room w
  · obtain rfl := Host.Outcome.next.inj ht
    exact hostRead_inv (hs.withSchedule rest) a
  · obtain rfl := Host.Outcome.next.inj ht
    exact hostReset_inv (hs.withSchedule rest)

/-- Settles O33: by the four kinds of step; the engine's are commands applied in turn and at most one buffer. -/
theorem stepKeepsTheInvariants : Obligations.StepKeepsTheInvariants :=
  fun _ _ => step_inv

end Sys2Proof.Machine
end

section
/-! PROOFS. Memory (spec 20): the push and the command queue, the drain that ends at a `STOP`, the frames of a buffer, and the words of
the read space. -/

namespace Sys2Proof.Machine

open Sys2Proof.Claims

/-! ## The step of each agent, by the head of the schedule (44 R210) -/

theorem step_of_engineMoves {s s₀ : State} (h : EngineMoves s s₀) : step s = engineStep s₀ := by
  obtain ⟨hs, rfl⟩ | ⟨rest, hs, rfl⟩ | ⟨w, rest, hs, hfull, rfl⟩ := h
  · simp only [step, takeTurn, hs]
  · simp only [step, takeTurn, hs]
  · have hready : cmdReady s₀ = false := by simpa [cmdReady] using hfull
    simp [step, takeTurn, hs, hready]

theorem step_hostPush {s : State} {w : CommandWord} {rest : List Turn} (hs : s.schedule = .hostPush w :: rest)
    (room : s.cmdq.length < s.params.qdepth) : step s = .next (hostPush w { s with schedule := rest }) := by
  have hready : cmdReady s = true := by simpa [cmdReady] using room
  simp [step, takeTurn, hs, hready]

theorem step_hostRead {s : State} {a : ReadAddr} {rest : List Turn} (hs : s.schedule = .hostRead a :: rest) :
    step s = .next (hostRead a { s with schedule := rest }) := by
  simp only [step, takeTurn, hs]

/-! ## What a buffer step consumes (20 R85, 44 R209) -/

/-- Of all commands only `STOP` stops a running block. -/
theorem exec_stops_iff {i : Instr} {s t : State} (h : exec i s = .next t) (hr : s.run = true) :
    t.run = false ↔ i = .stop := by
  constructor
  · intro ht
    cases exec_controlEffect h
    case stop => rfl
    case kept hk => simp [hk.run, hr] at ht
    all_goals simp [hr] at ht
  · rintro rfl
    obtain rfl := Host.Outcome.next.inj h
    rfl

theorem applyWord_stops_iff {w : CommandWord} {s t : State} (h : applyWord w s = .next t) (hr : s.run = true) :
    t.run = false ↔ decode w = .ok .stop := by
  unfold applyWord at h
  split at h
  next i hi => simpa [hi] using exec_stops_iff h hr
  next hi =>
    obtain rfl := Host.Outcome.next.inj h
    simp [hi, hr]

/-- How a buffer step from `s` to `t` ends: at the first `STOP` of the queue, with nothing emitted, or, where the queue holds none, with
the queue empty and one buffer emitted. -/
inductive BufferStepEnds (s t : State) : Prop where
  | stopped (run : t.run = false) (out : t.out = s.out) (bufcnt : t.bufcnt = s.bufcnt) (before : List CommandWord)
      (stop : CommandWord) (queue : s.cmdq = before ++ stop :: t.cmdq) (isStop : decode stop = .ok .stop)
      (noneBefore : ∀ w ∈ before, decode w ≠ .ok .stop)
  | emitted (run : t.run = true) (queue : t.cmdq = []) (bufcnt : t.bufcnt = s.bufcnt + 1) (buffer : List OutWord)
      (out : t.out = s.out ++ [buffer]) (noStop : ∀ w ∈ s.cmdq, decode w ≠ .ok .stop)

/-- A command other than `STOP` applied first changes nothing of how the step ends. -/
theorem BufferStepEnds.cons {s t u : State} {w : CommandWord} (hq : s.cmdq = w :: t.cmdq) (hw : decode w ≠ .ok .stop)
    (hout : t.out = s.out) (hcnt : t.bufcnt = s.bufcnt) (h : BufferStepEnds t u) : BufferStepEnds s u := by
  cases h with
  | stopped run out bufcnt before stop queue isStop noneBefore =>
    exact .stopped run (out.trans hout) (bufcnt.trans hcnt) (w :: before) stop (by rw [hq, queue, List.cons_append]) isStop
      (List.forall_mem_cons.mpr ⟨hw, noneBefore⟩)
  | emitted run queue bufcnt buffer out noStop =>
    exact .emitted run queue (by rw [bufcnt, hcnt]) buffer (by rw [out, hout])
      (by rw [hq]; exact List.forall_mem_cons.mpr ⟨hw, noStop⟩)

theorem engineBuffer_ends {s t : State} (h : engineBuffer s = .next t) (hr : s.run = true) : BufferStepEnds s t := by
  refine engineBuffer_induct (P := BufferStepEnds) ?emit ?stop ?more hr h
  case emit =>
    intro s hr hq
    exact .emitted hr hq rfl _ rfl (by simp [hq])
  case stop =>
    intro s w q t hr hq ht htr
    have hf := applyWord_engineFrame ht
    refine .stopped htr hf.out hf.bufcnt [] w ?_ ((applyWord_stops_iff ht hr).mp htr) (by simp)
    rw [hq, hf.cmdq, List.nil_append]
  case more =>
    intro s w q t u hr hq ht htr ih
    have hf := applyWord_engineFrame ht
    have hw : decode w ≠ .ok .stop := fun hstop => by simp [(applyWord_stops_iff ht hr).mpr hstop] at htr
    exact ih.cons (by rw [hq, hf.cmdq]) hw hf.out hf.bufcnt

/-- Settles O20: the engine's step from a running state is a buffer step, and the two ways it ends are told apart by `RUN`. -/
theorem stopInTheDrainEndsTheStep : Obligations.StopInTheDrainEndsTheStep := by
  intro s s₀ t hmoves hr ht
  rw [step_of_engineMoves hmoves, engineMoves_eq_withSchedule hmoves, engineStep, if_pos hr] at ht
  cases engineBuffer_ends ht hr with
  | stopped run out bufcnt before stop queue isStop noneBefore =>
    exact ⟨fun _ => ⟨out, bufcnt, before, stop, queue, isStop, noneBefore⟩, fun htr => by simp [run] at htr⟩
  | emitted run queue bufcnt buffer out noStop =>
    exact ⟨fun htr => by simp [run] at htr, fun _ => ⟨queue, bufcnt, ⟨buffer, out⟩, noStop⟩⟩

/-! ## The push (20 R62, R63) -/

theorem engineBuffer_schedule {s t : State} (hr : s.run = true) (h : engineBuffer s = .next t) : t.schedule = s.schedule := by
  refine engineBuffer_induct (P := fun s t => t.schedule = s.schedule) ?emit ?stop ?more hr h
  case emit => exact fun _ _ _ => rfl
  case stop => exact fun _ _ _ _ _ _ ht _ => (applyWord_engineFrame ht).schedule
  case more => exact fun _ _ _ _ _ _ _ ht _ ih => ih.trans (applyWord_engineFrame ht).schedule

theorem BufferStepEnds.queue_shorter {s t : State} (h : BufferStepEnds s t) (hq : 0 < s.cmdq.length) :
    t.cmdq.length < s.cmdq.length := by
  cases h with
  | stopped _ _ _ before stop queue =>
    rw [queue, List.length_append, List.length_cons]
    omega
  | emitted _ queue => rwa [queue]

/-- The engine's step leaves the schedule alone and takes at least one word from a queue that holds any. -/
theorem engineStep_queue {s t : State} (hq : 0 < s.cmdq.length) (h : engineStep s = .next t) :
    t.schedule = s.schedule ∧ t.cmdq.length < s.cmdq.length := by
  unfold engineStep at h
  split_ifs at h with hr
  · exact ⟨engineBuffer_schedule hr h, (engineBuffer_ends h hr).queue_shorter hq⟩
  · obtain ⟨w, q, hw⟩ := List.exists_cons_of_length_pos hq
    have hf : EngineFrame { s with cmdq := q } t := applyWord_engineFrame ((applyHead_cons hw).symm.trans h)
    exact ⟨hf.schedule, by simp [hf.cmdq, hw]⟩

/-- Settles O10: with room the step is the push; into a full queue the engine moves, and its step takes a word from the queue. -/
theorem pushesAppendOrWait : Obligations.PushesAppendOrWait := by
  intro s w rest hs
  refine ⟨fun room => step_hostPush hs room, fun t hlegal hfull ht => ?_⟩
  have hpos : 0 < s.cmdq.length := by
    obtain ⟨-, -, -, -, -, hdepth⟩ := hlegal
    omega
  rw [step_of_engineMoves (.inr (.inr ⟨w, rest, hs, hfull.ge, rfl⟩))] at ht
  obtain ⟨hschedule, hshorter⟩ := engineStep_queue hpos ht
  have hparams : t.params = s.params := (engineStep_emission ht).1
  have hroom : t.cmdq.length < s.params.qdepth := hfull ▸ hshorter
  exact ⟨by simp [cmdReady, hfull], hschedule, hroom, by simpa [cmdReady, hparams] using hroom⟩

/-! ## The frames of a buffer (20 R64, R65) -/

theorem length_bufferWords (p : Params) (samples : List Int) :
    (bufferWords p samples).length = samples.length * p.channels.count := by
  simp [bufferWords, frameWords, List.length_flatMap, List.map_const', List.sum_replicate]

theorem bufferWords_cons (p : Params) (x : Int) (samples : List Int) :
    bufferWords p (x :: samples) = List.replicate p.channels.count (f32 x) ++ bufferWords p samples := rfl

/-- Word `j` of frame `i` is the word of sample `i`. -/
theorem getElem?_bufferWords (p : Params) (samples : List Int) (i : Nat) {j : Nat} (hj : j < p.channels.count) :
    (bufferWords p samples)[i * p.channels.count + j]? = samples[i]?.map f32 := by
  induction samples generalizing i with
  | nil => simp [bufferWords]
  | cons x xs ih =>
    rw [bufferWords_cons]
    cases i with
    | zero =>
      rw [Nat.zero_mul, Nat.zero_add, List.getElem?_append_left (by simpa using hj)]
      simp [hj]
    | succ i =>
      have hindex : (i + 1) * p.channels.count + j = p.channels.count + (i * p.channels.count + j) := by ring
      rw [hindex, List.getElem?_append_right (by simp), List.length_replicate, Nat.add_sub_cancel_left, ih]
      simp

theorem outBeats_cons (w : OutWord) {rest : List OutWord} (h : rest ≠ []) : outBeats (w :: rest) = (w, false) :: outBeats rest := by
  rw [outBeats]
  exact h

theorem length_outBeats (b : List OutWord) : (outBeats b).length = b.length := by
  induction b using outBeats.induct with
  | case1 => rfl
  | case2 w => rfl
  | case3 w rest hrest ih => rw [outBeats_cons w hrest, List.length_cons, List.length_cons, ih]

/-- Beat `i` carries word `i`, with `out_last` exactly where no word follows. -/
theorem getElem?_outBeats (b : List OutWord) (i : Nat) :
    (outBeats b)[i]? = b[i]?.map fun w => (w, decide (i + 1 = b.length)) := by
  induction b using outBeats.induct generalizing i with
  | case1 => simp [outBeats]
  | case2 w => cases i <;> simp [outBeats]
  | case3 w rest hrest ih =>
    rw [outBeats_cons w hrest]
    cases i with
    | zero => simpa using hrest
    | succ i => simp [ih]

/-- Settles O56: frame by frame, and beat by beat. -/
theorem framesCarryEqualWords : Obligations.FramesCarryEqualWords := by
  refine ⟨fun p samples => ⟨length_bufferWords p samples, fun i j _ hj => getElem?_bufferWords p samples i hj⟩, fun b i => ?_⟩
  refine ⟨length_outBeats b, fun w hw => ?_⟩
  rw [getElem?_outBeats, hw, Option.map_some]

/-! ## Read addresses and read words as numbers (20 R70, R71) -/

theorem toNat_append_eq_add {n m : Nat} (x : BitVec n) (y : BitVec m) : (x ++ y).toNat = x.toNat * 2 ^ m + y.toNat := by
  rw [BitVec.toNat_append, ← Nat.shiftLeft_add_eq_or_of_lt y.isLt, Nat.shiftLeft_eq]

theorem toNat_ofNat_of_lt {n k : Nat} (hk : k < 2 ^ n) : (BitVec.ofNat n k).toNat = k := by
  rw [BitVec.toNat_ofNat, Nat.mod_eq_of_lt hk]

theorem toNat_zeroExtended {n : Nat} (x : BitVec n) (hn : n ≤ 32) : (x.setWidth 32 : ReadWord).toNat = x.toNat :=
  BitVec.toNat_setWidth_of_le hn

theorem toNat_highHalf (w : CommandWord) : (w.extractLsb' 32 32).toNat = w.toNat / 2 ^ 32 := by
  rw [BitVec.extractLsb'_toNat, Nat.shiftRight_eq_div_pow]
  exact Nat.mod_eq_of_lt (Nat.div_lt_of_lt_mul w.isLt)

theorem addrIsCell_iff (a : ReadAddr) : addrIsCell a = true ↔ 0x80000 ≤ a.toNat := by
  have hmsb : addrIsCell a = a.msb := rfl
  rw [hmsb, BitVec.msb_eq_decide, decide_eq_true_iff]

theorem toNat_addrRow (a : ReadAddr) : (addrRow a).toNat = a.toNat / 0x800 % 256 := by
  rw [addrRow, BitVec.extractLsb'_toNat, Nat.shiftRight_eq_div_pow]

theorem toNat_addrCol (a : ReadAddr) : (addrCol a).toNat = a.toNat / 8 % 256 := by
  rw [addrCol, BitVec.extractLsb'_toNat, Nat.shiftRight_eq_div_pow]

theorem toNat_addrWord (a : ReadAddr) : (addrWord a).toNat = a.toNat % 8 := by
  rw [addrWord, BitVec.extractLsb'_toNat, Nat.shiftRight_zero]

theorem toNat_geomWord {p : Params} (hp : p.Legal) :
    (geomWord p).toNat = (p.rows - 1) + (p.cols - 1) * 256 + (p.channels.count - 1) * 65536 := by
  obtain ⟨-, hrows, -, hcols, -, -⟩ := hp
  have hchannels : p.channels.count ≤ 2 := by cases p.channels <;> decide
  simp only [geomWord, toNat_append_eq_add, BitVec.toNat_ofNat]
  omega

theorem toNat_statusWord (s : State) :
    (statusWord s).toNat = s.run.toNat + 2 * s.modeAdd.toNat + 16 * s.errIllegal.toNat + 32 * s.errRange.toNat +
      64 * s.errCycle.toNat := by
  simp only [statusWord, toNat_append_eq_add, BitVec.toNat_ofNat, BitVec.toNat_ofBool]
  omega

theorem toNat_cfgWord (x : Cell) :
    (cfgWord x).toNat =
      x.active.toNat + 2 * x.shape.toNat + 16 * x.modv.toNat + 256 * x.modcol.toNat + 65536 * x.modrow.toNat := by
  simp only [cfgWord, toNat_append_eq_add, BitVec.toNat_ofNat, BitVec.toNat_ofBool]
  omega

/-! ## The read space (20 R69 to R72) -/

theorem regRead_global {a : ReadAddr} (ha : a.toNat < 0x80000) (s : State) : regRead a s = readGlobal a s := by
  have hcell : ¬addrIsCell a = true := by rw [addrIsCell_iff]; omega
  rw [regRead, if_neg hcell]

theorem regRead_cell {a : ReadAddr} (ha : 0x80000 ≤ a.toNat) (s : State) :
    regRead a s =
      if inGrid s.params (addrRow a) (addrCol a) then readCellWord (s.target (addrRow a) (addrCol a)) (addrWord a) else 0#32 := by
  rw [regRead, if_pos ((addrIsCell_iff a).mpr ha)]

/-- Settles O58: each address selects its word, and the packed words are added up field by field. -/
theorem globalReadWords : Obligations.GlobalReadWords := by
  intro s hs hbufLen hqdepth
  have hcmdq : s.cmdq.length < 2 ^ 32 := hs.queue.trans_lt hqdepth
  exact ⟨rfl, toNat_geomWord hs.legal, toNat_ofNat_of_lt hbufLen, toNat_ofNat_of_lt hqdepth, toNat_statusWord s,
    toNat_ofNat_of_lt hcmdq, rfl, BitVec.extractLsb'_toNat .., toNat_highHalf s.errcmd, rfl,
    toNat_zeroExtended s.ctlVol (by decide), toNat_zeroExtended s.ctlShape (by decide),
    toNat_zeroExtended s.ctlModidx (by decide), toNat_zeroExtended s.ctlMaster (by decide),
    (toNat_zeroExtended _ (by decide)).trans (BitVec.toNat_ofBool s.modeAdd)⟩

/-- The address of word `k` of a cell reads that word of that cell. -/
theorem regRead_cellWord {s : State} {r c : Coord} (hin : Within s.params r c) {k : Nat} (hk : k < 8) :
    regRead (BitVec.ofNat 20 (0x80000 + r.toNat * 0x800 + c.toNat * 8 + k)) s =
      readCellWord (s.grid.get (r.toNat, c.toNat)) (BitVec.ofNat 3 k) := by
  generalize ha : BitVec.ofNat 20 (0x80000 + r.toNat * 0x800 + c.toNat * 8 + k) = a
  have hr := r.isLt
  have hc := c.isLt
  have hnum : a.toNat = 0x80000 + r.toNat * 0x800 + c.toNat * 8 + k := by
    rw [← ha]; exact toNat_ofNat_of_lt (by omega)
  have hrow : addrRow a = r := BitVec.eq_of_toNat_eq (by rw [toNat_addrRow]; omega)
  have hcol : addrCol a = c := BitVec.eq_of_toNat_eq (by rw [toNat_addrCol]; omega)
  have hword : addrWord a = BitVec.ofNat 3 k :=
    BitVec.eq_of_toNat_eq (by rw [toNat_addrWord, toNat_ofNat_of_lt hk]; omega)
  rw [regRead_cell (by omega), hrow, hcol, hword, if_pos ((inGrid_iff _ _ _).mpr hin)]
  rfl

/-- Settles O59: the address leads to the cell's word `k`, which is one field of the cell or the packed `CFG`. -/
theorem cellReadWords : Obligations.CellReadWords := by
  intro s r c hin x word
  have hword : ∀ {k : Nat}, k < 8 → word k = readCellWord x (BitVec.ofNat 3 k) := fun hk => regRead_cellWord hin hk
  refine ⟨?cfg, hword (by decide), ?vol, ?modidx, hword (by decide), hword (by decide), hword (by decide), hword (by decide)⟩
  case cfg => rw [hword (by decide)]; exact toNat_cfgWord x
  case vol => rw [hword (by decide)]; exact toNat_zeroExtended _ (by decide)
  case modidx => rw [hword (by decide)]; exact toNat_zeroExtended _ (by decide)

theorem readGlobal_unmapped {a : ReadAddr} (ha : (9 ≤ a.toNat ∧ a.toNat ≤ 0xF) ∨ 0x16 ≤ a.toNat) (s : State) :
    readGlobal a s = 0#32 := by
  unfold readGlobal
  split
  case h_16 => rfl
  all_goals omega

theorem readCellWord_unused {k : BitVec 3} (hk : 5 ≤ k.toNat) (x : Cell) : readCellWord x k = 0#32 := by
  unfold readCellWord
  split
  case h_6 => rfl
  all_goals omega

theorem regRead_withSchedule (a : ReadAddr) (s : State) (turns : List Turn) :
    regRead a { s with schedule := turns } = regRead a s := rfl

/-- Settles O60: a global address in a gap, a place outside the grid, an unused word of a cell; a read's step writes the record only. -/
theorem readsOutsideTheMapGiveZero : Obligations.ReadsOutsideTheMapGiveZero := by
  refine ⟨fun s a h => ?zero, fun s a rest hs => ?record⟩
  case zero =>
    obtain ⟨hlo, hhi⟩ | ⟨hlo, hhi⟩ | ⟨hcell, hout⟩ := h
    · rw [regRead_global (by omega), readGlobal_unmapped (.inl ⟨hlo, hhi⟩)]
    · rw [regRead_global (by omega), readGlobal_unmapped (.inr hlo)]
    · rw [regRead_cell hcell]
      split_ifs with hin
      · rw [inGrid_iff, toNat_addrRow, toNat_addrCol] at hin
        have ha := a.isLt
        exact readCellWord_unused (by rw [toNat_addrWord]; omega) _
      · rfl
  case record =>
    rw [step_hostRead hs, hostRead, regRead_withSchedule]

end Sys2Proof.Machine
end

section
/-! PROOFS. The encoding (spec 30): decoding and encoding agree both ways, the illegal words are those of the opcode map, and the
operands of a decoded word are its fields. -/

namespace Sys2Proof.Machine

open Sys2Proof.Claims

/-! ## The fields of a word as numbers (30 R90, R91) -/

theorem toNat_opcOf (w : CommandWord) : (opcOf w).toNat = w.toNat / 2 ^ 56 := by
  rw [opcOf, BitVec.extractLsb'_toNat, Nat.shiftRight_eq_div_pow]
  exact Nat.mod_eq_of_lt (Nat.div_lt_of_lt_mul w.isLt)

theorem toNat_rsvOf (w : CommandWord) : (rsvOf w).toNat = w.toNat / 2 ^ 32 % 256 := by
  rw [rsvOf, BitVec.extractLsb'_toNat, Nat.shiftRight_eq_div_pow]

theorem rowField_eq (w : CommandWord) : rowField w = (rowOf w).toNat := by
  rw [rowField, rowOf, BitVec.extractLsb'_toNat, Nat.shiftRight_eq_div_pow]

theorem colField_eq (w : CommandWord) : colField w = (colOf w).toNat := by
  rw [colField, colOf, BitVec.extractLsb'_toNat, Nat.shiftRight_eq_div_pow]

theorem immField_eq (w : CommandWord) : immField w = (immOf w).toNat := by
  rw [immField, immOf, BitVec.extractLsb'_toNat, Nat.shiftRight_zero]

/-- The checks of 30 R97 on the word's own fields. -/
theorem rowAllows_iff (row : MapRow) (w : CommandWord) :
    RowAllows row w ↔ (opcOf w).toNat = row.opc ∧ rsvOf w = 0#8 ∧
      (row.format = .Z ∨ row.format = .I → rowOf w = 0#8 ∧ colOf w = 0#8) ∧ (immOf w).toNat ≤ row.maxImm := by
  have hzero : ∀ x : BitVec 8, x.toNat = 0 ↔ x = 0#8 := fun x => BitVec.toNat_inj (y := 0#8)
  simp only [RowAllows, rowField_eq, colField_eq, immField_eq, ← toNat_opcOf, ← toNat_rsvOf, hzero]

/-! ## Encoding, then decoding (30 R99) -/

theorem checkNoCell_packImm {opc : BitVec 8} {imm : BitVec 32} {m : Nat} (hm : imm.toNat ≤ m) (i : Instr) :
    checkNoCell (packImm opc imm) m i = .ok i := by
  simp [checkNoCell_ok, packImm, hm]

theorem checkRsvImm_packCell {opc : BitVec 8} {r c : Coord} {imm : BitVec 32} {m : Nat} (hm : imm.toNat ≤ m) (i : Instr) :
    checkRsvImm (packCell opc r c imm) m i = .ok i := by
  simp [checkRsvImm_ok, packCell, hm]

@[simp] theorem opcOf_packImm (opc : BitVec 8) (imm : BitVec 32) : opcOf (packImm opc imm) = opc := opcOf_packFields ..
@[simp] theorem immOf_packImm (opc : BitVec 8) (imm : BitVec 32) : immOf (packImm opc imm) = imm := immOf_packFields ..
@[simp] theorem opcOf_packCell (opc : BitVec 8) (r c : Coord) (imm : BitVec 32) : opcOf (packCell opc r c imm) = opc :=
  opcOf_packFields ..
@[simp] theorem rowOf_packCell (opc : BitVec 8) (r c : Coord) (imm : BitVec 32) : rowOf (packCell opc r c imm) = r :=
  rowOf_packFields ..
@[simp] theorem colOf_packCell (opc : BitVec 8) (r c : Coord) (imm : BitVec 32) : colOf (packCell opc r c imm) = c :=
  colOf_packFields ..
@[simp] theorem immOf_packCell (opc : BitVec 8) (r c : Coord) (imm : BitVec 32) : immOf (packCell opc r c imm) = imm :=
  immOf_packFields ..

/-- An operand is carried in the low bits of the immediate, so that it is bounded as itself. -/
theorem zeroExtended_le {n m : Nat} {x : BitVec n} (hx : x.toNat ≤ m) : (x.setWidth 32).toNat ≤ m :=
  (BitVec.toNat_setWidth 32 x ▸ Nat.mod_le ..).trans hx

theorem decode_encode {i : Instr} (h : i.wellFormed = true) : decode (encode i) = .ok i := by
  cases i
  all_goals
    simp only [encode, decode, opcOf_packImm, immOf_packImm, opcOf_packCell, rowOf_packCell, colOf_packCell, immOf_packCell,
      BitVec.toNat_ofNat, Nat.reducePow, Nat.reduceMod, Nat.reduceLeDiff, extractLsb'_setWidth, mrow_linkImm, mcol_linkImm]
  case nop | start | stop => exact checkNoCell_packImm (Nat.le_refl 0) _
  case activate | deactivate | unlink => exact checkRsvImm_packCell (Nat.le_refl 0) _
  case setFreq x => exact checkNoCell_packImm (Nat.le_of_lt_succ x.isLt) _
  case opFreq x => exact checkRsvImm_packCell (Nat.le_of_lt_succ x.isLt) _
  case setVol | setMaster => exact checkNoCell_packImm (zeroExtended_le (of_decide_eq_true h)) _
  case opVol => exact checkRsvImm_packCell (zeroExtended_le (of_decide_eq_true h)) _
  case setShape x | setModIdx x | setMode x | clrErr x =>
    exact checkNoCell_packImm (zeroExtended_le (Nat.le_of_lt_succ x.isLt)) _
  case opShape x | opModIdx x => exact checkRsvImm_packCell (zeroExtended_le (Nat.le_of_lt_succ x.isLt)) _
  case link mr mc => exact checkRsvImm_packCell (zeroExtended_le (Nat.le_of_lt_succ (mr ++ mc).isLt)) _

/-! ## Decoding, then encoding (30 R94, R99) -/

/-- What a word that decodes to `i` has: a row of the opcode map that allows it and is the command's row, and `i`'s own word. -/
structure DecodesAt (w : CommandWord) (i : Instr) (row : MapRow) : Prop where
  allows : RowAllows row w
  mnemonic : i.mnemonic = row.mnemonic
  format : i.format = row.format
  wellFormed : i.wellFormed = true
  encode : encode i = w

section Rows
variable {w : CommandWord} {i j : Instr} {n m : Nat}

theorem packCell_fields (hopc : (opcOf w).toNat = n) (hrsv : rsvOf w = 0#8) :
    packCell (BitVec.ofNat 8 n) (rowOf w) (colOf w) (immOf w) = w := by
  rw [packCell, ← hopc, BitVec.ofNat_toNat, BitVec.setWidth_eq, ← hrsv, packFields_fields]

theorem packImm_fields (hopc : (opcOf w).toNat = n) (hrow : rowOf w = 0#8) (hcol : colOf w = 0#8) (hrsv : rsvOf w = 0#8) :
    packImm (BitVec.ofNat 8 n) (immOf w) = w := by
  have h := packCell_fields hopc hrsv
  rwa [hrow, hcol] at h

theorem decodesAt_of_checkNoCell (hopc : (opcOf w).toNat = n) (h : checkNoCell w m j = .ok i)
    (hmap : ⟨n, j.mnemonic, j.format, m⟩ ∈ opcodeMap)
    (himm : (immOf w).toNat ≤ m → j.wellFormed = true ∧ encode j = packImm (BitVec.ofNat 8 n) (immOf w)) :
    ∃ row ∈ opcodeMap, DecodesAt w i row := by
  obtain ⟨hrow, hcol, hrsv, hle, rfl⟩ := checkNoCell_ok.mp h
  obtain ⟨hwf, henc⟩ := himm hle
  exact ⟨_, hmap, (rowAllows_iff _ w).mpr ⟨hopc, hrsv, fun _ => ⟨hrow, hcol⟩, hle⟩, rfl, rfl, hwf,
    henc.trans (packImm_fields hopc hrow hcol hrsv)⟩

theorem decodesAt_of_checkRsvImm (hopc : (opcOf w).toNat = n) (h : checkRsvImm w m j = .ok i)
    (hmap : ⟨n, j.mnemonic, j.format, m⟩ ∈ opcodeMap) (hformat : j.format = .C ∨ j.format = .CI)
    (himm : (immOf w).toNat ≤ m →
      j.wellFormed = true ∧ encode j = packCell (BitVec.ofNat 8 n) (rowOf w) (colOf w) (immOf w)) :
    ∃ row ∈ opcodeMap, DecodesAt w i row := by
  obtain ⟨hrsv, hle, rfl⟩ := checkRsvImm_ok.mp h
  obtain ⟨hwf, henc⟩ := himm hle
  have hcell : ¬(j.format = .Z ∨ j.format = .I) := by
    obtain hf | hf := hformat <;> simp [hf]
  exact ⟨_, hmap, (rowAllows_iff _ w).mpr ⟨hopc, hrsv, fun hnone => absurd hnone hcell, hle⟩, rfl, rfl, hwf,
    henc.trans (packCell_fields hopc hrsv)⟩

theorem immOf_eq_zero (h : (immOf w).toNat ≤ 0) : 0#32 = immOf w := (BitVec.eq_of_toNat_eq (Nat.le_zero.mp h)).symm

theorem volume_legal {imm : BitVec 32} (h : imm.toNat ≤ 0x8000) : VolumeWord.legal (imm.extractLsb' 0 16) = true := by
  rw [VolumeWord.legal, BitVec.extractLsb'_toNat]
  exact decide_eq_true ((Nat.mod_le ..).trans h)

end Rows

theorem decodesAt_of_decode {w : CommandWord} {i : Instr} (h : decode w = .ok i) : ∃ row ∈ opcodeMap, DecodesAt w i row := by
  unfold decode at h
  split at h
  case h_1 hopc | h_16 hopc | h_17 hopc => -- `NOP`, `START`, `STOP`
    exact decodesAt_of_checkNoCell hopc h (List.mem_of_elem_eq_true rfl) fun hm =>
      ⟨rfl, congrArg (packImm _) (immOf_eq_zero hm)⟩
  case h_2 hopc => -- `SETFREQ`
    exact decodesAt_of_checkNoCell hopc h (List.mem_of_elem_eq_true rfl) fun _ => ⟨rfl, rfl⟩
  case h_3 hopc | h_6 hopc => -- `SETVOL`, `SETMASTER`
    exact decodesAt_of_checkNoCell hopc h (List.mem_of_elem_eq_true rfl) fun hm =>
      ⟨volume_legal hm, congrArg (packImm _) (setWidth_extractLsb'_of_lt _ (by decide) (hm.trans_lt (by decide)))⟩
  case h_4 hopc | h_5 hopc | h_7 hopc | h_18 hopc => -- `SETSHAPE`, `SETMODIDX`, `SETMODE`, `CLRERR`
    exact decodesAt_of_checkNoCell hopc h (List.mem_of_elem_eq_true rfl) fun hm =>
      ⟨rfl, congrArg (packImm _) (setWidth_extractLsb'_of_lt _ (by decide) (Nat.lt_succ_of_le hm))⟩
  case h_8 hopc | h_9 hopc | h_11 hopc => -- `ACTIVATE`, `DEACTIVATE`, `UNLINK`
    exact decodesAt_of_checkRsvImm hopc h (List.mem_of_elem_eq_true rfl) (.inl rfl) fun hm =>
      ⟨rfl, congrArg (packCell _ _ _) (immOf_eq_zero hm)⟩
  case h_10 hopc => -- `LINK`
    exact decodesAt_of_checkRsvImm hopc h (List.mem_of_elem_eq_true rfl) (.inr rfl) fun hm =>
      ⟨rfl, congrArg (packCell _ _ _) (linkImm_of_lt _ hm)⟩
  case h_12 hopc => -- `OPFREQ`
    exact decodesAt_of_checkRsvImm hopc h (List.mem_of_elem_eq_true rfl) (.inr rfl) fun _ => ⟨rfl, rfl⟩
  case h_13 hopc => -- `OPVOL`
    exact decodesAt_of_checkRsvImm hopc h (List.mem_of_elem_eq_true rfl) (.inr rfl) fun hm =>
      ⟨volume_legal hm, congrArg (packCell _ _ _) (setWidth_extractLsb'_of_lt _ (by decide) (hm.trans_lt (by decide)))⟩
  case h_14 hopc | h_15 hopc => -- `OPSHAPE`, `OPMODIDX`
    exact decodesAt_of_checkRsvImm hopc h (List.mem_of_elem_eq_true rfl) (.inr rfl) fun hm =>
      ⟨rfl, congrArg (packCell _ _ _) (setWidth_extractLsb'_of_lt _ (by decide) (Nat.lt_succ_of_le hm))⟩
  case h_19 => cases h

theorem decode_of_rowAllows {w : CommandWord} {row : MapRow} (hmap : row ∈ opcodeMap) (h : RowAllows row w) :
    ∃ i, decode w = .ok i := by
  obtain ⟨hopc, hrsv, hcell, hle⟩ := (rowAllows_iff row w).mp h
  fin_cases hmap
  all_goals simp [decode, hopc, checkNoCell_ok, checkRsvImm_ok, hrsv, hle, hcell]

/-- Settles O1: a command is read back from its word's fields, and a word is packed from the fields that decoding reads. -/
theorem decodeAndEncodeAgree : Obligations.DecodeAndEncodeAgree := by
  refine ⟨fun i h => decode_encode h, fun w i h => ?_⟩
  obtain ⟨row, -, hrow⟩ := decodesAt_of_decode h
  exact ⟨hrow.wellFormed, hrow.encode⟩

/-! ## Illegal words (30 R97) -/

theorem decode_illegal_iff (w : CommandWord) : (∃ why, decode w = .illegal why) ↔ ∀ row ∈ opcodeMap, ¬RowAllows row w := by
  constructor
  · rintro ⟨why, hwhy⟩ row hmap hallows
    obtain ⟨i, hi⟩ := decode_of_rowAllows hmap hallows
    cases hwhy.symm.trans hi
  · intro hnone
    cases hw : decode w with
    | ok i =>
      obtain ⟨row, hmap, hrow⟩ := decodesAt_of_decode hw
      exact absurd hrow.allows (hnone row hmap)
    | illegal why => exact ⟨why, rfl⟩

theorem applyWord_illegal {w : CommandWord} {why : Illegal} (h : decode w = .illegal why) (s : State) :
    applyWord w s = .next (flagError .illegal w s) := by
  simp only [applyWord, h]

theorem decode_eq_nop_iff (w : CommandWord) : decode w = .ok .nop ↔ w = 0#64 := by
  constructor
  · intro h
    obtain ⟨row, -, hrow⟩ := decodesAt_of_decode h
    exact hrow.encode.symm
  · rintro rfl
    exact decode_encode (i := .nop) rfl

/-- Settles O2: a row of the map allows a word exactly when it decodes; an illegal word is flagged, and only `NOP`'s word is 0. -/
theorem illegalWordsAreThoseOfTheMap : Obligations.IllegalWordsAreThoseOfTheMap := by
  refine fun w => ⟨decode_illegal_iff w, fun hnone s q hq => ?_, decode_eq_nop_iff w⟩
  obtain ⟨why, hwhy⟩ := (decode_illegal_iff w).mpr hnone
  rw [applyHead_cons hq, applyWord_illegal hwhy]
  rfl

/-! ## Operands (30 R91, R93) -/

theorem operandFields_encode (i : Instr) :
    operandFields i =
      (if i.format = .C ∨ i.format = .CI then rowField (encode i) else 0,
        if i.format = .C ∨ i.format = .CI then colField (encode i) else 0, immField (encode i)) := by
  rw [rowField_eq, colField_eq, immField_eq]
  cases i
  case link => simp [operandFields, Instr.format, encode, toNat_linkImm, -BitVec.toNat_setWidth]
  all_goals simp [operandFields, Instr.format, encode, toNat_zeroExtended, -BitVec.toNat_setWidth]

/-- Settles O3: a decoded word is the encoding of its command, whose fields are the operands; `LINK`'s bytes follow from `IMM`. -/
theorem decodedOperandsAreTheFields : Obligations.DecodedOperandsAreTheFields := by
  refine ⟨fun w i h => ?_, by decide⟩
  obtain ⟨row, hmap, hrow⟩ := decodesAt_of_decode h
  have hops := operandFields_encode i
  rw [hrow.encode] at hops
  refine ⟨⟨row, hmap, hrow.allows, hrow.mnemonic, hrow.format⟩, hops, ?_⟩
  rintro r c mr mc rfl
  have himm : mr.toNat * 256 + mc.toNat = w.toNat % 2 ^ 32 := congrArg (fun fields => fields.2.2) hops
  omega

/-- Settles O4: the nine words are decoded by computation. -/
theorem sampleWordsDecode : Obligations.SampleWordsDecode := by
  unfold Obligations.SampleWordsDecode
  decide

end Sys2Proof.Machine
end

section
/-! PROOFS. The waveform generator (spec 40): the symmetries of the full-wave table, the interpolated sine between neighbouring
entries, the square, the two ramps and the silent shapes, and the range, period and resolution of them all. -/

namespace Sys2Proof.Machine

open Sys2Proof.Claims

/-! ## The quadrants with both end points (40 R124)

Each quadrant's formula also holds at the first index of the next quadrant, so that neither a mirrored index nor the neighbour of an
index needs a case of its own. -/

theorem qsin_zero : qsin 0 = 0 := rfl

theorem fullSine_quad0_closed {j : Nat} (h : j ≤ 256) : fullSine j = qsin j := by
  obtain hlt | rfl := h.lt_or_eq
  · exact fullSine_quad0 hlt
  · exact fullSine_quad1 (j := 0) (by decide)

theorem fullSine_quad1_closed {j : Nat} (h : j ≤ 256) : fullSine (256 + j) = qsin (256 - j) := by
  obtain hlt | rfl := h.lt_or_eq
  · exact fullSine_quad1 hlt
  · rw [fullSine_quad2 (j := 0) (by decide), Nat.sub_self, qsin_zero, neg_zero]

theorem fullSine_quad2_closed {j : Nat} (h : j ≤ 256) : fullSine (512 + j) = -qsin j := by
  obtain hlt | rfl := h.lt_or_eq
  · exact fullSine_quad2 hlt
  · exact fullSine_quad3 (j := 0) (by decide)

theorem fullSine_quad3_closed {j : Nat} (h : j ≤ 256) : fullSine ((768 + j) % 1024) = -qsin (256 - j) := by
  obtain hlt | rfl := h.lt_or_eq
  · rw [Nat.mod_eq_of_lt (by omega), fullSine_quad3 hlt]
  · rw [Nat.sub_self, qsin_zero, neg_zero]
    exact fullSine_quad0 (j := 0) (by decide)

theorem fullSine_odd {k : Nat} (h : k < 1024) : fullSine ((1024 - k) % 1024) = -fullSine k := by
  obtain ⟨j, hj, rfl | rfl | rfl | rfl⟩ := quadrant_cases h
  · rw [fullSine_quad0 hj, show 1024 - k = 768 + (256 - k) by omega, fullSine_quad3_closed (by omega),
      Nat.sub_sub_self hj.le]
  · rw [fullSine_quad1 hj, show (1024 - (256 + j)) % 1024 = 512 + (256 - j) by omega, fullSine_quad2_closed (by omega)]
  · rw [fullSine_quad2 hj, show (1024 - (512 + j)) % 1024 = 256 + (256 - j) by omega, fullSine_quad1_closed (by omega),
      Nat.sub_sub_self hj.le, neg_neg]
  · rw [fullSine_quad3 hj, show (1024 - (768 + j)) % 1024 = 256 - j by omega, fullSine_quad0_closed (by omega), neg_neg]

theorem fullSine_halfWave {k : Nat} (h : k < 1024) : fullSine ((k + 512) % 1024) = -fullSine k := by
  obtain ⟨j, hj, rfl | rfl | rfl | rfl⟩ := quadrant_cases h
  · rw [fullSine_quad0 hj, show (k + 512) % 1024 = 512 + k by omega, fullSine_quad2 hj]
  · rw [fullSine_quad1 hj, show (256 + j + 512) % 1024 = 768 + j by omega, fullSine_quad3 hj]
  · rw [fullSine_quad2 hj, show (512 + j + 512) % 1024 = j by omega, fullSine_quad0 hj, neg_neg]
  · rw [fullSine_quad3 hj, show (768 + j + 512) % 1024 = 256 + j by omega, fullSine_quad1 hj, neg_neg]

/-- Settles O35: by quadrant, the named values being read from the table. -/
theorem fullWaveTableIsSymmetric : Obligations.FullWaveTableIsSymmetric :=
  ⟨fun _ hj => ⟨fullSine_quad0 hj, fullSine_quad1 hj, fullSine_quad2 hj, fullSine_quad3 hj⟩, by decide, by decide, by decide,
    by decide, by decide, fun _ hk => ⟨fullSine_odd hk, fullSine_halfWave hk⟩⟩

/-! ## The interpolated sine (40 R125) -/

/-- Neighbours are neighbours in one closed quadrant, where the quarter table rises by at most 201. -/
theorem fullSine_step {k : Nat} (h : k < 1024) :
    -201 ≤ fullSine ((k + 1) % 1024) - fullSine k ∧ fullSine ((k + 1) % 1024) - fullSine k ≤ 201 := by
  obtain ⟨j, hj, rfl | rfl | rfl | rfl⟩ := quadrant_cases h
  · have hrise := qsin_rise hj
    rw [fullSine_quad0 hj, Nat.mod_eq_of_lt (by omega), fullSine_quad0_closed (j := k + 1) hj]
    omega
  · have hrise := qsin_rise (j := 255 - j) (by omega)
    rw [fullSine_quad1 hj, show (256 + j + 1) % 1024 = 256 + (j + 1) by omega, fullSine_quad1_closed hj,
      show 256 - (j + 1) = 255 - j by omega, show 256 - j = 255 - j + 1 by omega]
    omega
  · have hrise := qsin_rise hj
    rw [fullSine_quad2 hj, show (512 + j + 1) % 1024 = 512 + (j + 1) by omega, fullSine_quad2_closed (j := j + 1) hj]
    omega
  · have hrise := qsin_rise (j := 255 - j) (by omega)
    rw [fullSine_quad3 hj, Nat.add_assoc, fullSine_quad3_closed hj, show 256 - (j + 1) = 255 - j by omega,
      show 256 - j = 255 - j + 1 by omega]
    omega

/-- A floored interpolation over a rise `d ≥ 0` stays below the end of the rise. -/
theorem floor_rising {d f : Int} (hd : 0 ≤ d) (hf : 0 ≤ f) (hf' : f < 4096) :
    0 ≤ d * f / 4096 ∧ (d * f / 4096 < d ∨ d * f / 4096 = d ∧ d = 0) := by
  have hlo : 0 ≤ d * f := mul_nonneg hd hf
  have hhi : d * f ≤ d * 4095 := mul_le_mul_of_nonneg_left (by omega) hd
  omega

/-- A floored interpolation over a fall `d ≤ 0` may reach the end of the fall. -/
theorem floor_falling {d f : Int} (hd : d ≤ 0) (hf : 0 ≤ f) (hf' : f < 4096) :
    d ≤ d * f / 4096 ∧ d * f / 4096 ≤ 0 := by
  have hlo : d * 4095 ≤ d * f := mul_le_mul_of_nonpos_left (by omega) hd
  have hhi : d * f ≤ 0 := mul_nonpos_of_nonpos_of_nonneg hd hf
  omega

theorem tableIndex_lt (theta : PhaseWord) : theta.toNat / 2 ^ 22 < 1024 := by
  have := theta.isLt
  omega

/-- Settles O36: the sample is `s0` plus the floor of the product, with the fraction below 1. -/
theorem sineInterpolatesBetweenNeighbours : Obligations.SineInterpolatesBetweenNeighbours := by
  intro theta k fr s0 s1 y
  have hy : y = s0 + (s1 - s0) * fr / 4096 := wave_sine theta
  have hfr : 0 ≤ fr ∧ fr < 4096 := by omega
  have hstep : -201 ≤ s1 - s0 ∧ s1 - s0 ≤ 201 := fullSine_step (tableIndex_lt theta)
  clear_value y s0 s1 fr
  refine ⟨by omega, by omega, fun hrise => ?rising, fun hfall => ?falling, hstep⟩
  case rising =>
    have := floor_rising (d := s1 - s0) (by omega) hfr.1 hfr.2
    omega
  case falling =>
    have := floor_falling (d := s1 - s0) (by omega) hfr.1 hfr.2
    omega

/-- Refutes O37: at `0x40000400` the step down from 32768 to 32767, scaled by 1/4096, is floored to a whole step. -/
theorem not_fallingSineNeverReachesTheNextEntry : ¬ Obligations.FallingSineNeverReachesTheNextEntry := by
  intro h
  have hfall : fullSine 257 < fullSine 256 := by decide
  have hreached : wave 1#3 0x40000400#32 = fullSine 257 := by decide
  exact absurd (h 0x40000400#32 hfall).1 (hreached ▸ lt_irrefl _)

/-! ## The square and the ramps (40 R126 to R128) -/

/-- Settles O38: the three values are cases of the first clause. -/
theorem squareFollowsTheTopBit : Obligations.SquareFollowsTheTopBit :=
  ⟨wave_square, wave_square _, wave_square _, wave_square _⟩

/-- Settles O39: the quotient of the phase by `2^16` is below `2^16` and is a floor. -/
theorem sawtoothIsTheTruncatedRamp : Obligations.SawtoothIsTheTruncatedRamp := by
  refine ⟨fun theta => ?_, wave_sawtooth _, wave_sawtooth _⟩
  have hlt := theta.isLt
  rw [wave_sawtooth]
  refine ⟨rfl, ?_⟩
  omega

theorem wave_triangle_rising {theta : PhaseWord} (h : theta.toNat < 2 ^ 31) :
    wave 4#3 theta = ((theta.toNat / 2 ^ 15 : Nat) : Int) - 32768 := by
  rw [wave_triangle, if_pos (by omega)]

theorem wave_triangle_falling {theta : PhaseWord} (h : 2 ^ 31 ≤ theta.toNat) :
    wave 4#3 theta = 98304 - ((theta.toNat / 2 ^ 15 : Nat) : Int) := by
  rw [wave_triangle, if_neg (by omega)]

/-- At twice the phase a sawtooth loses the phase's top bit and takes one bit more at the bottom. -/
theorem wave_sawtooth_double (theta : PhaseWord) :
    wave 3#3 (2#32 * theta) = ((theta.toNat / 2 ^ 15 % 2 ^ 16 : Nat) : Int) - 32768 := by
  have hdouble : (2#32 * theta).toNat = 2 * theta.toNat % 2 ^ 32 := BitVec.toNat_mul ..
  rw [wave_sawtooth, hdouble]
  omega

/-- Settles O40: each half is one of the two ramps, and at twice the phase the top bit, which tells the halves apart, is gone. -/
theorem triangleIsASawtoothOfTwiceThePhase : Obligations.TriangleIsASawtoothOfTwiceThePhase := by
  refine ⟨fun theta => ⟨fun hrise => ?rising, fun hfall => ?falling, fun hlast => ?last⟩, wave_triangle_rising (by decide),
    wave_triangle_rising (by decide), wave_triangle_falling (by decide), wave_triangle_falling (by decide)⟩
  case rising =>
    rw [wave_triangle_rising hrise, wave_sawtooth_double]
    refine ⟨rfl, ?_⟩
    omega
  case falling =>
    have hlt := theta.isLt
    rw [wave_triangle_falling hfall, wave_sawtooth_double]
    refine ⟨rfl, ?_⟩
    omega
  case last =>
    have hlt := theta.isLt
    rw [wave_triangle_falling (by omega)]
    omega

/-! ## Range, period and resolution (40 R130, R131) -/

/-- Every code is one of the four shapes or silent (40 R129). -/
theorem shape_cases (shape : ShapeCode) :
    shape = 1#3 ∨ shape = 2#3 ∨ shape = 3#3 ∨ shape = 4#3 ∨ shape.toNat = 0 ∨ 5 ≤ shape.toNat := by
  revert shape
  decide

/-- The interpolated sine lies between two table entries. -/
theorem wave_sine_bounds (theta : PhaseWord) : -32768 ≤ wave 1#3 theta ∧ wave 1#3 theta ≤ 32768 := by
  have hs0 := fullSine_bounds (tableIndex_lt theta)
  have hs1 := fullSine_bounds (Nat.mod_lt (theta.toNat / 2 ^ 22 + 1) (by decide : 0 < 1024))
  obtain ⟨-, -, hrise, hfall, -, -⟩ := sineInterpolatesBetweenNeighbours theta
  omega

theorem wave_bounds (shape : ShapeCode) (theta : PhaseWord) : -32768 ≤ wave shape theta ∧ wave shape theta ≤ 32768 := by
  obtain rfl | rfl | rfl | rfl | hsilent := shape_cases shape
  · exact wave_sine_bounds theta
  · rw [wave_square]; split_ifs <;> decide
  · obtain ⟨-, hlo, hhi, -⟩ := sawtoothIsTheTruncatedRamp.1 theta
    omega
  · have hlt := theta.isLt
    rw [wave_triangle]; split_ifs <;> omega
  · rw [wave_silent hsilent]; decide

/-- At the start of a table interval the sine is the table's entry. -/
theorem wave_sine_entry {theta : PhaseWord} (h : theta.toNat / 2 ^ 10 % 4096 = 0) :
    wave 1#3 theta = fullSine (theta.toNat / 2 ^ 22) := by
  rw [wave_sine, h, Nat.cast_zero, mul_zero, Int.zero_ediv, add_zero]

/-- Whole cycles are lost in the phase word. -/
theorem ofInt_add_cycles (theta : PhaseWord) (n : Int) : BitVec.ofInt 32 (theta.toNat + n * 2 ^ 32) = theta := by
  refine BitVec.eq_of_toNat_eq ?_
  rw [BitVec.toNat_ofInt]
  have hlt := theta.isLt
  omega

/-- Settles O42: the bounds shape by shape; the end points and the values at phase zero are computed from each shape's number. -/
theorem waveStaysInRange : Obligations.WaveStaysInRange := by
  refine ⟨wave_bounds, fun theta htop => ?top, ⟨0#32, wave_square _⟩, ⟨0x80000000#32, wave_triangle_falling (by decide)⟩,
    fun theta => ?sawtooth, ⟨0xC0000000#32, wave_sine_entry rfl⟩, ⟨0x80000000#32, wave_square _⟩, ⟨0#32, wave_sawtooth _⟩,
    ⟨0#32, wave_triangle_rising (by decide)⟩, fun shape theta n => ?period, wave_sine_entry rfl, wave_square _, wave_sawtooth _,
    wave_triangle_rising (by decide)⟩
  case top =>
    rw [wave_sine_entry (by omega), show theta.toNat / 2 ^ 22 = 256 by omega]
    rfl
  case sawtooth =>
    obtain ⟨-, -, hle, -⟩ := sawtoothIsTheTruncatedRamp.1 theta
    omega
  case period => rw [ofInt_add_cycles]

/-- Settles O43: each shape's number is a function of the phase's quotient; the sine's table index is a quotient of that quotient. -/
theorem waveDependsOnTopBitsOnly : Obligations.WaveDependsOnTopBitsOnly := by
  refine fun a b => ⟨fun h => ?sine, fun h => ?square, fun h => ?sawtooth, fun h => ?triangle⟩
  case sine =>
    have hindex : a.toNat / 2 ^ 22 = b.toNat / 2 ^ 22 := by omega
    rw [wave_sine, wave_sine, h, hindex]
  case square =>
    have hhalf : a.toNat < 2 ^ 31 ↔ b.toNat < 2 ^ 31 := by omega
    simp only [wave_square, hhalf]
  case sawtooth => rw [wave_sawtooth, wave_sawtooth, h]
  case triangle => rw [wave_triangle, wave_triangle, h]

/-! ## The silent shapes (40 R129) -/

/-- The flags are no part of the grid. -/
theorem flag_withGrid (s : State) (g : Grid) (e : ErrKind) : ({ s with grid := g } : State).flag e = s.flag e := by
  cases e <;> rfl

theorem flag_withCtlShape (s : State) (x : ShapeCode) (e : ErrKind) : ({ s with ctlShape := x } : State).flag e = s.flag e := by
  cases e <;> rfl

theorem onActive_flag (r c : Coord) (f : Cell → Cell) (s : State) (e : ErrKind) : (onActive r c f s).flag e = s.flag e :=
  onActive_induct (P := fun t => t.flag e = s.flag e) rfl fun _ => flag_withGrid s _ e

theorem activateCell_flag (r c : Coord) (s : State) (e : ErrKind) : (activateCell r c s).flag e = s.flag e := by
  rw [activateCell_eq, flag_withGrid]

theorem emitBuffer_flag (s : State) (e : ErrKind) : (emitBuffer s).flag e = s.flag e := by
  cases e <;> rfl

/-- Settles O41: in the grid the three commands pass their checks, and what they then write is no flag. -/
theorem silentShapesGiveZero : Obligations.SilentShapesGiveZero := by
  refine fun shape hsilent => ⟨wave_silent hsilent, emitBuffer_flag, fun s r c e hin => ?_⟩
  have hin : inGrid s.params r c = true := (inGrid_iff _ _ _).mpr hin
  refine ⟨⟨_, rfl, flag_withCtlShape s shape e⟩, ⟨_, rfl, ?opShape⟩, ⟨_, rfl, ?activate⟩⟩
  case opShape => rw [checkRange_pos hin, onActive_flag]
  case activate => rw [checkRange_pos hin, activateCell_flag, flag_withCtlShape]

end Sys2Proof.Machine
end

section
/-! PROOFS. The phase accumulator (spec 41): the progression of phases and its seams, which commands leave activity and phase alone, and
the advance of every active cell by one buffer and by any number of them. -/

namespace Sys2Proof.Machine

open Sys2Proof.Claims

/-! ## The progression of phases (41 R142, R143) -/

theorem toNat_basePhase (x : Cell) (i : Nat) : (basePhase x i).toNat = (x.phase.toNat + i * x.freq.toNat) % 2 ^ 32 := by
  simp [basePhase]

theorem basePhase_zero (x : Cell) : basePhase x 0 = x.phase := by
  simp [basePhase]

theorem basePhase_add (x : Cell) (i j : Nat) : basePhase x (i + j) = basePhase x i + BitVec.ofNat 32 j * x.freq := by
  simp only [basePhase, BitVec.ofNat_add, BitVec.add_mul, BitVec.add_assoc]

theorem basePhase_succ (x : Cell) (i : Nat) : basePhase x (i + 1) = basePhase x i + x.freq := by
  rw [basePhase_add, BitVec.one_mul]

/-- The accumulator after a buffer is the phase that sample `N` would have had. -/
theorem nextPhase_eq_basePhase (p : Params) (x : Cell) : nextPhase p x = basePhase x p.bufLen := rfl

theorem advanced_eq (n : Nat) (x : Cell) : advanced n x = { x with phase := basePhase x n } := by
  simp [advanced, basePhase, BitVec.ofNat_add, BitVec.ofNat_mul]

theorem advanced_phase (n : Nat) (x : Cell) : (advanced n x).phase = basePhase x n := by
  rw [advanced_eq]

theorem advanced_zero (x : Cell) : advanced 0 x = x := by
  rw [advanced_eq, basePhase_zero]

/-- Advancing by `m` and then by `n` samples is advancing by their sum: no drift (41 R144). -/
theorem advanced_advanced (n m : Nat) (x : Cell) : advanced n (advanced m x) = advanced (m + n) x := by
  simp only [advanced_eq, basePhase_add]
  rfl

theorem advanced_iterate (n k : Nat) (x : Cell) : (advanced n)^[k] x = advanced (k * n) x := by
  induction k with
  | zero => rw [Nat.zero_mul, advanced_zero]; rfl
  | succ k ih => rw [Function.iterate_succ_apply', ih, advanced_advanced, Nat.succ_mul]

/-- Sample `i` after an advance by `m` is sample `m + i` before it. -/
theorem basePhase_advanced (m i : Nat) (x : Cell) : basePhase (advanced m x) i = basePhase x (m + i) := by
  rw [advanced_eq, basePhase_add]
  rfl

/-- Settles O46: the accumulator after a buffer is sample `N` of the progression, so the next buffer goes on where it ended. -/
theorem seamContinuesTheProgression : Obligations.SeamContinuesTheProgression := by
  intro p x hN
  have hstore : (fun z : Cell => { z with phase := nextPhase p z }) = advanced p.bufLen :=
    funext fun z => (advanced_eq p.bufLen z).symm
  refine ⟨basePhase_succ x, ?seam, fun k i => ?buffers⟩
  case seam => rw [basePhase_zero, ← basePhase_succ, Nat.sub_add_cancel hN, nextPhase_eq_basePhase]
  case buffers => rw [hstore, advanced_iterate, basePhase_advanced, toNat_basePhase]

/-! ## The commands that leave activity and phase alone (41 R147, 43 R179) -/

/-- Every cell of `t` has the `ACTIVE` bit and the `PHASE` it has in `s`. -/
def ActivityPhaseKept (s t : State) : Prop :=
  ∀ l, (t.grid.get l).active = (s.grid.get l).active ∧ (t.grid.get l).phase = (s.grid.get l).phase

theorem ActivityPhaseKept.of_grid_eq {s t : State} (h : t.grid = s.grid) : ActivityPhaseKept s t :=
  fun _ => h ▸ ⟨rfl, rfl⟩

theorem ActivityPhaseKept.refl (s : State) : ActivityPhaseKept s s := .of_grid_eq rfl

theorem ActivityPhaseKept.flag (e : ErrKind) (w : CommandWord) (s : State) : ActivityPhaseKept s (flagError e w s) :=
  .of_grid_eq (flagError_grid e w s)

/-- A write to one cell that spares the two fields in it. -/
theorem ActivityPhaseKept.modifyCell {s : State} {r c : Nat} {f : Cell → Cell}
    (hf : ∀ x, (f x).active = x.active ∧ (f x).phase = x.phase) : ActivityPhaseKept s (s.modifyCell r c f) := by
  intro l
  rw [State.modifyCell_grid, Grid.get_modify]
  split_ifs with hl
  · rw [hl]; exact hf _
  · exact ⟨rfl, rfl⟩

theorem ActivityPhaseKept.range {i : Instr} {ok : Bool} {f : State → State} {s : State} (h : ActivityPhaseKept s (f s)) :
    ActivityPhaseKept s (checkRange i ok f s) :=
  checkRange_induct (.flag _ _ _) fun _ => h

theorem ActivityPhaseKept.volume {i : Instr} {v : VolumeWord} {f : State → State} {s : State}
    (h : ActivityPhaseKept s (f s)) : ActivityPhaseKept s (checkVolume i v f s) :=
  checkVolume_induct (.flag _ _ _) fun _ => h

theorem ActivityPhaseKept.active {s : State} {r c : Coord} {f : Cell → Cell}
    (hf : ∀ x, (f x).active = x.active ∧ (f x).phase = x.phase) : ActivityPhaseKept s (onActive r c f s) :=
  onActive_induct (.refl s) fun _ => .modifyCell hf

theorem ActivityPhaseKept.link (w : CommandWord) (r c mr mc : Coord) (s : State) :
    ActivityPhaseKept s (linkCells w r c mr mc s) := by
  obtain ⟨h, -⟩ | ⟨-, -, -, ⟨-, h⟩ | ⟨-, h⟩⟩ := linkCells_cases w r c mr mc s <;> rw [h]
  · exact .refl s
  · exact .flag _ _ _
  · exact .modifyCell fun _ => ⟨rfl, rfl⟩

theorem ActivityPhaseKept.unlink (r c : Coord) (s : State) : ActivityPhaseKept s (unlinkCell r c s) := by
  obtain ⟨h, -⟩ | ⟨-, -, h⟩ := unlinkCell_cases r c s <;> rw [h]
  · exact .refl s
  · exact .modifyCell fun _ => ⟨rfl, rfl⟩

/-- Settles O30: the live commands, `LINK` and `UNLINK` write other fields of one cell, and the rest write no cell. -/
theorem onlyActivationChangesActivityOrPhase : Obligations.OnlyActivationChangesActivityOrPhase := by
  intro i s t h hact hdeact
  change ActivityPhaseKept s t
  cases i <;> obtain rfl := Host.Outcome.next.inj h
  case activate r c => exact absurd rfl (hact r c)
  case deactivate r c => exact absurd rfl (hdeact r c)
  case setVol x => exact .volume (.of_grid_eq rfl)
  case setMaster x => exact .volume (.of_grid_eq rfl)
  case link r c mr mc => exact .range (.link _ r c mr mc s)
  case unlink r c => exact .range (.unlink r c s)
  case opFreq r c x => exact .range (.active fun _ => ⟨rfl, rfl⟩)
  case opVol r c x => exact .volume (.range (.active fun _ => ⟨rfl, rfl⟩))
  case opShape r c x => exact .range (.active fun _ => ⟨rfl, rfl⟩)
  case opModIdx r c x => exact .range (.active fun _ => ⟨rfl, rfl⟩)
  all_goals exact .of_grid_eq rfl

/-! ## The advance by one buffer (41 R143, R146) -/

theorem Cell.advance_eq_advanced (p : Params) (x : Cell) :
    x.advance p = if x.active = true then advanced p.bufLen x else x := by
  rw [advanced_eq]
  rfl

theorem emitBuffer_get {s : State} (hs : Inv s) (l : Loc) :
    (emitBuffer s).grid.get l =
      if (s.grid.get l).active = true then advanced s.params.bufLen (s.grid.get l) else s.grid.get l := by
  rw [emitBuffer_eq hs.legal hs.grid]
  exact (Grid.get_advanceAll _ _ _).trans (Cell.advance_eq_advanced _ _)

/-- With nothing to drain, the step of a running block is the emission. -/
theorem step_emits {s s₀ : State} (hmoves : EngineMoves s s₀) (hr : s.run = true) (hq : s.cmdq = []) :
    step s = .next (emitBuffer s₀) := by
  have hs₀ := engineMoves_eq_withSchedule hmoves
  have hr₀ : s₀.run = true := by rw [hs₀]; exact hr
  have hq₀ : s₀.cmdq = [] := by rw [hs₀]; exact hq
  rw [step_of_engineMoves hmoves, engineStep, if_pos hr₀, engineBuffer_nil hr₀ hq₀]

/-- Settles O49: the step is the emission, which advances every active cell of the grid and no other. -/
theorem everyActivePhaseAdvancesOnce : Obligations.EveryActivePhaseAdvancesOnce := by
  intro s s₀ hs hmoves hr hq
  refine ⟨_, step_emits hmoves hr hq, fun l => ?_⟩
  have hs₀ := engineMoves_eq_withSchedule hmoves
  rw [hs₀]
  exact emitBuffer_get (hs.withSchedule _) l

/-! ## The advance by any number of buffers (41 R144) -/

/-- The cell as a whole: over `k` buffers it advances by `k · N` samples and changes in nothing else. -/
theorem stepsTo_advanced (k : Nat) {s : State} {l : Loc} (hs : Inv s) (hr : s.run = true) (hq : s.cmdq = [])
    (hsched : s.schedule = []) (hact : (s.grid.get l).active = true) :
    ∃ t, StepsTo k s t ∧ t.grid.get l = advanced (k * s.params.bufLen) (s.grid.get l) ∧ t.out.length = s.out.length + k := by
  induction k generalizing s with
  | zero => exact ⟨s, rfl, by rw [Nat.zero_mul, advanced_zero], rfl⟩
  | succ k ih =>
    have hcell : (emitBuffer s).grid.get l = advanced s.params.bufLen (s.grid.get l) := by rw [emitBuffer_get hs, if_pos hact]
    have hparams : (emitBuffer s).params = s.params := rfl
    have hlen : (emitBuffer s).out.length = s.out.length + 1 := List.length_append
    obtain ⟨t, hsteps, ht, hout⟩ := ih (emitBuffer_inv hs) hr hq hsched (by rw [hcell]; exact hact)
    refine ⟨t, ⟨emitBuffer s, step_emits (.inl ⟨hsched, rfl⟩) hr hq, hsteps⟩, ?_, by omega⟩
    rw [ht, hparams, hcell, advanced_advanced, Nat.succ_mul, Nat.add_comm]

/-- Settles O53: an advance by `k · N` samples keeps activity and tuning word, and its phase is the progression's. -/
theorem phaseLawOverBuffers : Obligations.PhaseLawOverBuffers := by
  intro k s l hs hr hq hsched hact
  obtain ⟨t, hsteps, hcell, hout⟩ := stepsTo_advanced k hs hr hq hsched hact
  refine ⟨t, hsteps, ?_, ?_, ?_, hout⟩ <;> rw [hcell]
  · exact hact
  · rfl
  · rw [advanced_phase, toNat_basePhase]

end Sys2Proof.Machine
end

section
/-! PROOFS. Operator evaluation (spec 42): the arithmetic of a sample, one evaluation per operator and step, what an evaluation depends on
and touches, and the emitted buffer as a function of the grid. -/

namespace Sys2Proof.Machine

open Sys2Proof.Claims

/-! ## The arithmetic of a sample (42 R152, R156) -/

/-- A word times a sample is at most the word times the largest sample. -/
theorem abs_natCast_mul_le {w : Int} (k : Nat) (hlo : -32768 ≤ w) (hhi : w ≤ 32768) : |(k : Int) * w| ≤ k * 32768 := by
  rw [abs_mul, Nat.abs_cast]
  exact Int.mul_le_mul_of_nonneg_left (abs_le.mpr ⟨hlo, hhi⟩) (Int.natCast_nonneg k)

theorem applyVolume_full (w : Int) : applyVolume 0x8000#16 w = w := Int.mul_ediv_cancel_left w (by decide)

@[simp] theorem applyVolume_zero (w : Int) : applyVolume 0#16 w = 0 := by
  simp [applyVolume]

/-- Settles O44: the two bounds of a floor, and `VOL · w` is at most `32768 · 32768` in magnitude. -/
theorem volumeProductIsAFloor : Obligations.VolumeProductIsAFloor := by
  refine ⟨fun v w hv hlo hhi => ?_, fun w => ⟨applyVolume_full w, applyVolume_zero w⟩, by decide, by decide⟩
  have hprod := abs_le.mp (abs_natCast_mul_le v.toNat hlo hhi)
  unfold applyVolume
  omega

theorem toNat_modOffset (idx : IndexWord) (m : Int) : ((modOffset idx m).toNat : Int) = ((idx.toNat : Int) * m * 2 ^ 9) % 2 ^ 32 := by
  rw [modOffset, BitVec.toNat_ofInt, Int.toNat_of_nonneg (Int.emod_nonneg _ (by decide))]
  rfl

/-- Settles O45: the reduction is that of `BitVec.ofInt`, and the product is at most `65535 · 32768` in magnitude. -/
theorem modulationOffsetIsExact : Obligations.ModulationOffsetIsExact := by
  refine ⟨fun idx m hlo hhi => ?_, fun m => by simp [modOffset], fun idx => by simp [modOffset]⟩
  have hidx := idx.isLt
  have hprod := abs_natCast_mul_le idx.toNat hlo hhi
  refine ⟨toNat_modOffset idx m, by omega, ?_⟩
  rw [abs_mul, show |(2 ^ 9 : Int)| = 512 by decide]
  omega

/-! ## The memo (42 R158) -/

@[simp] theorem memoGet_cons_self (l : Loc) (y : List Int) (memo : Memo) : memoGet l ((l, y) :: memo) = some y := by
  simp [memoGet]

theorem memoGet_cons_ne {k l : Loc} (h : k ≠ l) (y : List Int) (memo : Memo) : memoGet l ((k, y) :: memo) = memoGet l memo := by
  simp [memoGet, h]

theorem evalCell_of_memo (p : Params) (n : Nat) {l : Loc} {ctx : Grid × Memo} {y : List Int} (h : memoGet l ctx.2 = some y) :
    evalCell p (n + 1) l ctx = (y, ctx) := by
  simp [evalCell, h]

theorem evalCell_of_inactive (p : Params) (n : Nat) {l : Loc} {ctx : Grid × Memo} (h : memoGet l ctx.2 = none)
    (hact : (ctx.1.get l).active = false) : evalCell p (n + 1) l ctx = (silence p, ctx) := by
  simp [evalCell, h, hact]

/-- An active operator outside the memo is memoised with its samples in front of what its modulator's evaluation left there. -/
theorem evalCell_memo_of_active (p : Params) (n : Nat) {l : Loc} {ctx : Grid × Memo} (h : memoGet l ctx.2 = none)
    (hact : (ctx.1.get l).active = true) :
    (evalCell p (n + 1) l ctx).2.2 =
      (l, (evalCell p (n + 1) l ctx).1) :: (modulatorSignal p (evalCell p n) (ctx.1.get l) ctx).2.2 := by
  simp [evalCell, h, hact]

/-- An evaluation keeps every entry of the memo, whatever the grid: an operator that has one is not evaluated again, so no new
entry stands in front of it. -/
theorem evalCell_keeps_memo {p : Params} {l : Loc} {y : List Int} (n : Nat) (k : Loc) (ctx : Grid × Memo)
    (h : memoGet l ctx.2 = some y) : memoGet l (evalCell p n k ctx).2.2 = some y := by
  induction n generalizing k ctx with
  | zero => exact h
  | succ n ih =>
    cases hk : memoGet k ctx.2 with
    | some z => rwa [evalCell_of_memo p n hk]
    | none =>
      cases hact : (ctx.1.get k).active with
      | false => rwa [evalCell_of_inactive p n hk hact]
      | true =>
        have hkl : k ≠ l := by rintro rfl; simp [h] at hk
        rw [evalCell_memo_of_active p n hk hact, memoGet_cons_ne hkl]
        unfold modulatorSignal
        split
        · exact ih _ ctx h
        · exact h

/-- After a call of `Eval` that did not end at an inactive operator, its samples are in the memo. -/
theorem evalCell_memoises {p : Params} (n : Nat) {l : Loc} {ctx : Grid × Memo}
    (h : memoGet l ctx.2 ≠ none ∨ (ctx.1.get l).active = true) :
    memoGet l (evalCell p (n + 1) l ctx).2.2 = some (evalCell p (n + 1) l ctx).1 := by
  cases hm : memoGet l ctx.2 with
  | some y => simpa [evalCell_of_memo p n hm] using hm
  | none =>
    have hact := h.resolve_left (fun hne => hne hm)
    rw [evalCell_memo_of_active p n hm hact, memoGet_cons_self]

/-- Settles O47: the first call memoises the samples, the calls in between keep them there, and a later call finds them. -/
theorem evaluationHappensOnce : Obligations.EvaluationHappensOnce := by
  intro p l between ctx hpos hcall first later
  obtain ⟨n, hn⟩ : ∃ n, p.cells = n + 1 := ⟨p.cells - 1, by omega⟩
  have hfirst : memoGet l first.2.2 = some first.1 := by
    simp only [first, eval, hn]
    exact evalCell_memoises n hcall
  have hlater : memoGet l later.2 = some first.1 :=
    List.foldlRecOn (motive := fun c : Grid × Memo => memoGet l c.2 = some first.1) between _ hfirst
      (fun c hc k _ => evalCell_keeps_memo p.cells k c hc)
  rw [eval, hn]
  exact evalCell_of_memo p n hlater

/-! ## What an evaluation depends on and touches (42 R161) -/

/-- The two grids agree on every cell reachable from `l` in the first. -/
def AgreeFrom (g h : Grid) (l : Loc) : Prop := ∀ k m, g.walk k l = some m → h.get m = g.get m

theorem AgreeFrom.here {g h : Grid} {l : Loc} (ha : AgreeFrom g h l) : h.get l = g.get l := ha 0 l rfl

theorem AgreeFrom.next {g h : Grid} {l l' : Loc} (ha : AgreeFrom g h l) (hl : (g.get l).modulator = some l') : AgreeFrom g h l' :=
  fun k m hk => ha (k + 1) m (by rw [Grid.walk_succ, hl]; exact hk)

/-- Grids that agree on what is reachable from `l` have the same walks from `l`. -/
theorem AgreeFrom.walk {g h : Grid} (k : Nat) {l : Loc} (ha : AgreeFrom g h l) : h.walk k l = g.walk k l := by
  induction k generalizing l with
  | zero => rfl
  | succ k ih =>
    rw [Grid.walk_succ, Grid.walk_succ, ha.here]
    cases hl : (g.get l).modulator with
    | none => rfl
    | some l' => exact ih (ha.next hl)

theorem Grid.signal_succ (p : Params) (g : Grid) (n : Nat) (l : Loc) :
    g.signal p (n + 1) l =
      if (g.get l).active = true then
        operatorSamples p (g.get l) (((g.get l).modulator.map (g.signal p n)).getD (silence p))
      else silence p := rfl

/-- Grids that agree on what is reachable from `l` give `l` the same signal. -/
theorem AgreeFrom.signal {g h : Grid} (p : Params) (n : Nat) {l : Loc} (ha : AgreeFrom g h l) : h.signal p n l = g.signal p n l := by
  induction n generalizing l with
  | zero => rfl
  | succ n ih =>
    have hmod : (g.get l).modulator.map (h.signal p n) = (g.get l).modulator.map (g.signal p n) :=
      Option.map_congr fun l' hl => ih (ha.next hl)
    rw [Grid.signal_succ, Grid.signal_succ, ha.here, hmod]

section Evaluation
variable {p : Params} {g : Grid} {l : Loc} (hp : p.Legal) (hg : g.Inv p) (hact : (g.get l).active = true)
include hp hg hact

/-- The first evaluation of a step. -/
theorem eval_done : EvalDone p g l (g, []) (eval p l (g, [])) :=
  evalCell_spec hp hg p.cells l (g, []) (EvalOk.start p hg.wf) hact (walk_cells_none hp hg l)

/-- Every cell reachable from the operator is evaluated with it, and so advanced. -/
theorem eval_get_reachable {k : Nat} {m : Loc} (hm : g.walk k l = some m) :
    (eval p l (g, [])).2.1.get m = (g.get m).advance p := by
  have d := eval_done hp hg hact
  have hkept : memoGet l (eval p l (g, [])).2.2 ≠ none := by simp [d.kept]
  obtain ⟨y, hy⟩ := Option.ne_none_iff_exists'.mp (d.ok.closed_walk k l m hkept hm)
  exact (d.ok.done m y hy).2.2

theorem eval_get_unreachable {m : Loc} (hm : ∀ k, g.walk k l ≠ some m) : (eval p l (g, [])).2.1.get m = g.get m := by
  have d := eval_done hp hg hact
  refine d.ok.fresh m (by_contra fun hne => ?_)
  obtain h | ⟨j, hj⟩ := d.onlyChain m hne
  · exact h rfl
  · exact hm j hj

end Evaluation

/-- Settles O48: the samples are the operator's signal, which agreeing grids share; the cells reachable from it are advanced, and
no other. -/
theorem evaluationIsLocal : Obligations.EvaluationIsLocal := by
  intro p g h l hp hg hh hact hagree
  have ha : AgreeFrom g h l := hagree
  have hact' : (h.get l).active = true := by rw [ha.here]; exact hact
  refine ⟨?samples, fun k m hm => ?reachable, fun m hm => eval_get_unreachable hp hg hact hm⟩
  case samples => rw [(eval_done hp hg hact).value, (eval_done hp hh hact').value, ha.signal]
  case reachable =>
    have hm' : h.walk k l = some m := by rw [ha.walk]; exact hm
    rw [eval_get_reachable hp hg hact hm, eval_get_reachable hp hh hact' hm', ha k m hm]

/-! ## The emitted buffer (44 R200 to R207 over 42 R150 to R156) -/

/-- The phase argument by integer arithmetic with one reduction (42 R153). -/
theorem phaseArg_eq_ofInt (x : Cell) (i : Nat) (m : Int) :
    phaseArg x i m = BitVec.ofInt 32 (x.phase.toNat + i * x.freq.toNat + x.modidx.toNat * m * 512) := by
  have hbase : BitVec.ofInt 32 (x.phase.toNat + i * x.freq.toNat) = basePhase x i := by
    rw [← advanced_phase, advanced, ← BitVec.ofInt_natCast]
    push_cast
    rfl
  rw [BitVec.ofInt_add, hbase]
  rfl

theorem sampleAt_succ (g : Grid) (n : Nat) (l : Loc) (i : Nat) :
    sampleAt g (n + 1) l i =
      operatorSample (g.get l) i (((g.get l).modulator.map (fun l' => sampleAt g n l' i)).getD 0) := by
  rw [operatorSample, phaseArg_eq_ofInt]
  rfl

/-- `ZEROCELL`, and so every inactive cell, has sample 0: its volume is 0. -/
theorem sampleAt_inactive {g : Grid} (hz : g.InvZero) {l : Loc} (h : (g.get l).active = false) (n i : Nat) : sampleAt g n l i = 0 := by
  cases n with
  | zero => rfl
  | succ n =>
    rw [sampleAt_succ, hz l h]
    exact applyVolume_zero _

/-- An operator's signal, sample by sample, is the exact arithmetic of its chain. -/
theorem signal_eq_map_sampleAt {g : Grid} (p : Params) (hz : g.InvZero) (n : Nat) (l : Loc) :
    g.signal p n l = (List.range p.bufLen).map (sampleAt g n l) := by
  induction n generalizing l with
  | zero => exact silence_eq_map p
  | succ n ih =>
    cases hact : (g.get l).active with
    | false =>
      rw [Grid.signal_inactive hact, silence_eq_map]
      exact List.map_congr_left fun i _ => (sampleAt_inactive hz hact _ i).symm
    | true =>
      have hmod : ((g.get l).modulator.map (g.signal p n)).getD (silence p) =
          (List.range p.bufLen).map (fun i => ((g.get l).modulator.map (fun l' => sampleAt g n l' i)).getD 0) := by
        cases (g.get l).modulator with
        | none => exact silence_eq_map p
        | some l' => exact ih l'
      rw [Grid.signal_succ, if_pos hact, hmod, operatorSamples_map]
      exact List.map_congr_left fun i _ => (sampleAt_succ g n l i).symm

/-- Sample `i` of the sum is the sum of the voices' samples (44 R202). -/
theorem voiceSum_voiceSignals {s : State} (hz : s.grid.InvZero) {i : Nat} (hi : i < s.params.bufLen) :
    voiceSum (voiceSignals s) i = ((soundingRows s).map (fun r => sampleAt s.grid s.params.cells (r, 0) i)).sum := by
  rw [voiceSum, voiceSignals, List.map_map]
  refine congrArg List.sum (List.map_congr_left fun r _ => ?_)
  simp [signal_eq_map_sampleAt s.params hz, hi]

theorem mixGain_toNat (s : State) : ((mixGain s).toNat : Int) = if s.modeAdd then 32768 else (s.ctlMaster.toNat : Int) := by
  unfold mixGain
  split <;> rfl

/-- The mix of the active voices, sample by sample (44 R203 to R205). -/
theorem mixBuffer_voiceSignals {s : State} (hz : s.grid.InvZero) :
    mixBuffer s (voiceSignals s) = (List.range s.params.bufLen).map (mixedAt s) := by
  refine List.map_congr_left fun i hi => ?_
  have hlen : (voiceSignals s).length = (soundingRows s).length := List.length_map _
  rw [mixSample, hlen, mixGain_toNat, voiceSum_voiceSignals hz (List.mem_range.mp hi)]
  rfl

theorem bufferWords_voiceSignals {s : State} (hz : s.grid.InvZero) :
    bufferWords s.params (mixBuffer s (voiceSignals s)) = expectedBuffer s := by
  rw [mixBuffer_voiceSignals hz, bufferWords, List.flatMap_map]
  rfl

/-- Settles O50: the step is the emission, of the mix of the voices' signals; nothing of it reads the schedule. -/
theorem emittedBufferIsTheScaledMean : Obligations.EmittedBufferIsTheScaledMean := by
  intro s s₀ hs hmoves hr hq
  refine ⟨_, step_emits hmoves hr hq, ?_⟩
  have hs₀ := engineMoves_eq_withSchedule hmoves
  have hinv : Inv s₀ := by rw [hs₀]; exact hs.withSchedule _
  rw [emitBuffer_eq hinv.legal hinv.grid, bufferWords_voiceSignals hinv.grid.zero, hs₀]
  rfl

end Sys2Proof.Machine
end

section
/-! PROOFS. The matrix commands (spec 43): what `ACTIVATE`, `DEACTIVATE`, `LINK` and `UNLINK` do in the grid, place by place, the
harmonics of additive mode, and the exactness of the cycle check. -/

namespace Sys2Proof.Machine

open Sys2Proof.Claims

/-! ## Commands that name cells of the grid pass the range check (45 R221) -/

section WithinTheGrid
variable {s : State} {r c mr mc : Coord}

theorem inGrid_of_within (hin : Within s.params r c) : inGrid s.params r c = true :=
  (inGrid_iff _ _ _).mpr hin

theorem exec_activate_within (hin : Within s.params r c) : exec (.activate r c) s = .next (activateCell r c s) :=
  congrArg Host.Outcome.next (checkRange_pos (inGrid_of_within hin))

theorem exec_deactivate_within (hin : Within s.params r c) : exec (.deactivate r c) s = .next (deactivateFrom r c s) :=
  congrArg Host.Outcome.next (checkRange_pos (inGrid_of_within hin))

theorem exec_link_within (hin : Within s.params r c) (hmod : Within s.params mr mc) :
    exec (.link r c mr mc) s = .next (linkCells (encode (.link r c mr mc)) r c mr mc s) := by
  have hboth : (inGrid s.params r c && inGrid s.params mr mc) = true := by
    rw [inGrid_of_within hin, inGrid_of_within hmod]; rfl
  exact congrArg Host.Outcome.next (checkRange_pos hboth)

theorem exec_unlink_within (hin : Within s.params r c) : exec (.unlink r c) s = .next (unlinkCell r c s) :=
  congrArg Host.Outcome.next (checkRange_pos (inGrid_of_within hin))

end WithinTheGrid

/-! ## ACTIVATE (43 R170) -/

theorem Coord.toNat_pos {c : Coord} (hc : c ≠ 0#8) : 0 < c.toNat :=
  Nat.pos_of_ne_zero fun h0 => hc ((Coord.toNat_eq_zero_iff c).mpr h0)

theorem activateCell_refused {s : State} {r c : Coord} (h : mayActivate s r c = false) : activateCell r c s = s := by
  simp [activateCell, h]

/-- A root in additive mode takes the harmonic of its row (43 R172). -/
theorem snapshot_additiveRoot {s : State} {r c : Coord} (h : s.modeAdd = true ∧ c = 0#8) :
    (snapshotFreq s r c).toNat = s.ctlFreq.toNat * 2 ^ r.toNat % 2 ^ 32 ∧
      (snapshotVol s r c).toNat = s.ctlMaster.toNat / 2 ^ r.toNat := by
  obtain ⟨hmode, rfl⟩ := h
  simp [snapshotFreq, snapshotVol, hmode, Nat.shiftLeft_eq, Nat.shiftRight_eq_div_pow]

/-- Every other cell takes the control registers as they are. -/
theorem snapshot_ordinary {s : State} {r c : Coord} (h : ¬(s.modeAdd = true ∧ c = 0#8)) :
    snapshotFreq s r c = s.ctlFreq ∧ snapshotVol s r c = s.ctlVol := by
  simp [snapshotFreq, snapshotVol, h]

theorem activatedCell_fresh {s : State} {r c : Coord} {old : Cell} (h : old.active = false) :
    activatedCell s r c old = { Cell.zero with
      active := true, freq := snapshotFreq s r c, vol := snapshotVol s r c, shape := s.ctlShape } := by
  simp [activatedCell, Cell.zero, h]

theorem activatedCell_again {s : State} {r c : Coord} {old : Cell} (h : old.active = true) :
    activatedCell s r c old = { old with
      freq := snapshotFreq s r c, vol := snapshotVol s r c, shape := s.ctlShape, phase := 0 } := by
  simp [activatedCell, h]

section Activated
variable {s : State} {r c : Coord} (h : mayActivate s r c = true)
include h

theorem activateCell_get_self :
    (activateCell r c s).grid.get (r.toNat, c.toNat) = activatedCell s r c (s.grid.get (r.toNat, c.toNat)) := by
  rw [activateCell_get h, if_pos rfl]

theorem activateCell_get_predecessor (hc : c ≠ 0#8) :
    (activateCell r c s).grid.get (r.toNat, c.toNat - 1) =
      (s.grid.get (r.toNat, c.toNat - 1)).setRef r c s.ctlModidx := by
  have hne : (r.toNat, c.toNat - 1) ≠ (r.toNat, c.toNat) :=
    fun h => Nat.pred_ne_self (Coord.toNat_pos hc).ne' (Prod.mk.inj h).2
  rw [activateCell_get h, if_neg hne, if_pos ⟨hc, rfl⟩]

theorem activateCell_get_other {l : Loc} (hself : l ≠ (r.toNat, c.toNat))
    (hpred : ¬(c ≠ 0#8 ∧ l = (r.toNat, c.toNat - 1))) : (activateCell r c s).grid.get l = s.grid.get l := by
  rw [activateCell_get h, if_neg hself, if_neg hpred]

end Activated

/-- Settles O22: without a predecessor nothing happens; with one, the new cell, the predecessor and the rest are read off in turn. -/
theorem activateBuildsTheOperator : Obligations.ActivateBuildsTheOperator := by
  intro s r c hin
  rw [exec_activate_within hin]
  refine ⟨fun hc hpred => ?refused, fun hpred => ⟨_, rfl, activateCell_eq r c s, ?built⟩⟩
  case refused =>
    have hmay : mayActivate s r c = false :=
      Bool.eq_false_of_not_eq_true fun h => ((mayActivate_iff s r c).mp h).elim hc hpred
    rw [activateCell_refused hmay]
  case built =>
    have hmay : mayActivate s r c = true := (mayActivate_iff s r c).mpr hpred
    refine ⟨?self, activateCell_get_predecessor hmay, fun l => activateCell_get_other hmay⟩
    rw [activateCell_get_self hmay]
    refine ⟨rfl, rfl, rfl, snapshot_additiveRoot, snapshot_ordinary, fun hfresh => ?_, fun hactive => ?_⟩
    · rw [activatedCell_fresh hfresh]; exact ⟨rfl, rfl, rfl, rfl⟩
    · rw [activatedCell_again hactive]; exact ⟨rfl, rfl, rfl, rfl⟩

/-! ## Additive mode (43 R172) -/

/-- Thirty-two doublings shift every bit of the tuning word out. -/
theorem harmonicFreq_eq_zero (x n : Nat) (hn : 32 ≤ n) : x * 2 ^ n % 2 ^ 32 = 0 :=
  Nat.mod_eq_zero_of_dvd ((Nat.pow_dvd_pow 2 hn).mul_left x)

/-- Sixteen halvings shift every bit of the volume out. -/
theorem harmonicVol_eq_zero (v : VolumeWord) (n : Nat) (hn : 16 ≤ n) : v.toNat / 2 ^ n = 0 :=
  Nat.div_eq_of_lt (lt_of_lt_of_le v.isLt (Nat.pow_le_pow_right (by decide) hn))

/-- In columns above 0 the mode is not read. -/
theorem activateCell_grid_withMode {s : State} {r c : Coord} (hc : c ≠ 0#8) (b : Bool) :
    (activateCell r c { s with modeAdd := b }).grid = (activateCell r c s).grid := by
  have hcell : activatedCell { s with modeAdd := b } r c = activatedCell s r c := by
    funext old
    simp [activatedCell, snapshotFreq, snapshotVol, hc]
  have hmay : mayActivate { s with modeAdd := b } r c = mayActivate s r c := rfl
  simp only [activateCell, linkPredecessor, hcell, hmay, hc, ↓reduceIte]
  split <;> rfl

theorem exec_activate_grid_withMode {s t : State} {r c : Coord} (hc : c ≠ 0#8) {b : Bool}
    (h : exec (.activate r c) { s with modeAdd := b } = .next t) :
    t.grid = if inGrid s.params r c then (activateCell r c s).grid else s.grid := by
  obtain rfl := Host.Outcome.next.inj h
  by_cases hin : inGrid s.params r c = true
  · rw [checkRange_pos hin, if_pos hin, activateCell_grid_withMode hc]
  · rw [checkRange_neg (Bool.eq_false_of_not_eq_true hin), if_neg hin, flagError_grid]

/-- The registers of a later root are written without touching the cells. -/
theorem exec_registerCommand_grid {i : Instr} {s t : State}
    (hi : (∃ x, i = .setFreq x) ∨ (∃ x, i = .setMaster x) ∨ ∃ x, i = .setMode x) (h : exec i s = .next t) :
    t.grid = s.grid := by
  obtain ⟨x, rfl⟩ | ⟨x, rfl⟩ | ⟨x, rfl⟩ := hi <;> obtain rfl := Host.Outcome.next.inj h
  case inr.inl => exact checkVolume_induct (P := fun t => t.grid = s.grid) (flagError_grid _ _ _) fun _ => rfl
  all_goals rfl

/-- Settles O23: the harmonic is the snapshot of an additive root, and its worked values are that formula's. -/
theorem additiveRootsAreHarmonics : Obligations.AdditiveRootsAreHarmonics := by
  refine ⟨fun s t r hmode hrow hcols h => ?root, fun _ _ _ => exec_registerCommand_grid, fun s t t' r c hc h h' => ?column⟩
  case root =>
    obtain ⟨t', ht', hcell⟩ := exec_activate_root hrow hcols
    obtain rfl := Host.Outcome.next.inj (h.symm.trans ht')
    obtain ⟨hfreq, hvol⟩ : (t.grid.get (r.toNat, 0)).freq.toNat = s.ctlFreq.toNat * 2 ^ r.toNat % 2 ^ 32 ∧
        (t.grid.get (r.toNat, 0)).vol.toNat = s.ctlMaster.toNat / 2 ^ r.toNat := by
      rw [hcell]; exact snapshot_additiveRoot ⟨hmode, rfl⟩
    refine ⟨hfreq, hvol, fun hr => ?_, fun hr => ?_, fun hF hM => ?worked⟩
    · exact BitVec.eq_of_toNat_eq (hfreq.trans (harmonicFreq_eq_zero _ _ hr))
    · exact BitVec.eq_of_toNat_eq (hvol.trans (harmonicVol_eq_zero _ _ hr))
    case worked =>
      rw [hF] at hfreq
      rw [hM] at hvol
      refine ⟨?_, ?_, ?_, ?_⟩ <;> rintro rfl <;>
        exact ⟨BitVec.eq_of_toNat_eq hfreq, BitVec.eq_of_toNat_eq hvol⟩
  case column => rw [exec_activate_grid_withMode hc h, exec_activate_grid_withMode hc h']

/-! ## Re-activation (43 R171) -/

/-- A cell whose modulator is already `r, c` changes under a renewed reference in its index only. -/
theorem setRef_of_modulator {x : Cell} {r c : Coord} (h : x.modulator = some (r.toNat, c.toNat)) (idx : IndexWord) :
    x.setRef r c idx = { x with modidx := idx } := by
  obtain ⟨hmodv, hplace⟩ := Cell.modulator_eq_some.mp h
  obtain ⟨hrow, hcol⟩ := Prod.mk.inj hplace
  rw [Cell.setRef, ← hmodv, ← BitVec.eq_of_toNat_eq hrow, ← BitVec.eq_of_toNat_eq hcol]

/-- An active cell above column 0 is its predecessor's modulator, by INV-PREFIX and INV-CHAIN (10 R39, R40). -/
theorem predecessor_of_active {p : Params} {g : Grid} (hg : g.Inv p) {r c : Coord}
    (hact : (g.get (r.toNat, c.toNat)).active = true) (hc : c ≠ 0#8) :
    (g.get (r.toNat, c.toNat - 1)).active = true ∧
      (g.get (r.toNat, c.toNat - 1)).modulator = some (r.toNat, c.toNat) := by
  have hprefix := hg.chainPrefix r.toNat (c.toNat - 1)
  have hchain := hg.chain r.toNat (c.toNat - 1)
  rw [Nat.sub_add_cancel (Coord.toNat_pos hc)] at hprefix hchain
  exact ⟨hprefix hact, hchain hact⟩

/-- Settles O24: the predecessor of an active cell is active and refers to it, so activation succeeds and renews that reference. -/
theorem reactivationKeepsTheChain : Obligations.ReactivationKeepsTheChain := by
  intro s t r c hs hact h
  have hmay : mayActivate s r c = true := by
    by_cases hc : c = 0#8
    · exact (mayActivate_iff s r c).mpr (.inl hc)
    · exact (mayActivate_iff s r c).mpr (.inr (predecessor_of_active hs.grid hact hc).1)
  obtain rfl := Host.Outcome.next.inj ((exec_activate_within (hs.grid.inGrid_of_active hact)).symm.trans h)
  refine ⟨⟨snapshotFreq s r c, snapshotVol s r c, ?self, fun hord => snapshot_ordinary ?_⟩, fun hc => ?pred,
    fun l => activateCell_get_other hmay⟩
  case self => rw [activateCell_get_self hmay, activatedCell_again hact]
  case pred =>
    rw [activateCell_get_predecessor hmay hc, setRef_of_modulator (predecessor_of_active hs.grid hact hc).2]
  · rintro ⟨hmode, rfl⟩
    simp [hmode] at hord

/-! ## DEACTIVATE (43 R173, R174) -/

/-- The cascade of `DEACTIVATE r, c` runs over the columns from `c` to the last of the grid. -/
theorem inCascade_iff_removed {s : State} {r c : Nat} (hc : c ≤ s.params.cols) (l : Loc) :
    InCascade r c (s.params.cols - c) s.grid l ↔ Removed s r c l := by
  unfold InCascade Removed
  rw [Nat.add_sub_cancel' hc]

/-- Settles O25: the cascade, with its columns counted to the end of the row. -/
theorem deactivateRemovesTheRestOfTheRow : Obligations.DeactivateRemovesTheRestOfTheRow := by
  intro s r c hin
  rw [exec_deactivate_within hin]
  refine ⟨fun hact => ?inactive, fun hact => ?active⟩
  case inactive => rw [deactivateFrom_neg (Bool.eq_false_of_not_eq_true hact)]
  case active =>
    rw [deactivateFrom_pos hact]
    refine ⟨_, rfl, rfl, fun l => ?_⟩
    obtain ⟨hzero, hcleared, hkept⟩ := cascade_get r.toNat c.toNat (s.params.cols - c.toNat) s.grid l
    simp only [inCascade_iff_removed (Nat.le_of_lt hin.2)] at hzero hcleared hkept
    exact ⟨hzero, fun hl => ⟨hcleared hl, hkept hl⟩⟩

/-! ## The cycle check (43 R177) -/

/-- In a grid with the invariants `Reaches` decides whether a walk leads to a place of the grid, of whatever length. -/
theorem reaches_iff_exists_walk {p : Params} {g : Grid} (hg : g.Inv p) {a : Loc} (ha : a.1 < p.rows ∧ a.2 < p.cols)
    (b : Loc) : reaches g a p.cells b = true ↔ ∃ k, g.walk k b = some a := by
  constructor
  · intro h
    obtain ⟨k, -, hk⟩ := (reaches_iff_walk g a p.cells b).mp h
    exact ⟨k, hk⟩
  · rintro ⟨k, hk⟩
    exact reaches_complete hg ha hk

/-- Grids whose references differ at `a` only have the same walks as far as these have not left `a`. -/
theorem Grid.walk_eq_of_avoids {g h : Grid} {a : Loc} (hm : ∀ l, l ≠ a → (h.get l).modulator = (g.get l).modulator)
    {k : Nat} {l : Loc} (hav : ∀ j, j < k → g.walk j l ≠ some a) : h.walk k l = g.walk k l := by
  induction k with
  | zero => rfl
  | succ k ih =>
    rw [Grid.walk_succ_last, Grid.walk_succ_last, ih fun j hj => hav j (Nat.lt_succ_of_lt hj)]
    cases hk : g.walk k l with
    | none => rfl
    | some m => exact hm m fun hma => hav k (Nat.lt_succ_self k) (hma ▸ hk)

/-- A new reference `a → b` closes a cycle when a walk of the acyclic graph leads from `b` to `a`: the walk visits `a` at its end
only, so the new reference does not cut it. -/
theorem Grid.not_acyclic_of_new_edge {g h : Grid} (ha : g.InvAcyclic) {a b : Loc}
    (hm : ∀ l, l ≠ a → (h.get l).modulator = (g.get l).modulator) (hab : (h.get a).modulator = some b)
    {k : Nat} (hk : g.walk k b = some a) : ¬h.InvAcyclic := by
  intro hacyclic
  have hav : ∀ j, j < k → g.walk j b ≠ some a := fun j hj hja => absurd (Grid.walk_injective ha hja hk) (Nat.ne_of_lt hj)
  refine hacyclic k a ?_
  calc h.walk (k + 1) a = h.walk k b := by rw [Grid.walk_succ, hab]; rfl
    _ = g.walk k b := Grid.walk_eq_of_avoids hm hav
    _ = some a := hk

/-- Settles O27: the new edge closes a cycle exactly when a walk leads back over it, and `Reaches` decides that. -/
theorem cycleCheckIsExact : Obligations.CycleCheckIsExact := by
  intro s r c mr mc idx hs hin
  have hm : ∀ l, l ≠ place r c →
      ((s.grid.modify (place r c) (Cell.setRef mr mc idx)).get l).modulator = (s.grid.get l).modulator :=
    fun l hl => by rw [Grid.get_modify_ne _ _ hl]
  have hself : ((s.grid.modify (place r c) (Cell.setRef mr mc idx)).get (place r c)).modulator = some (place mr mc) := by
    rw [Grid.get_modify_self]; rfl
  rw [← Bool.not_eq_true, reaches_iff_exists_walk hs.grid (a := place r c) hin]
  constructor
  · rintro hacyclic ⟨k, hk⟩
    exact Grid.not_acyclic_of_new_edge hs.grid.acyclic hm hself hk hacyclic
  · intro hno
    refine hs.grid.acyclic.of_new_edge (fun l l' hl h => (hm l hl).symm.trans h) (fun l' h => ?_) (fun k hk => hno ⟨k, hk⟩)
    exact Option.some.inj (h.symm.trans hself)

/-! ## LINK and UNLINK (43 R175, R176) -/

theorem State.modifyCell_get (s : State) (r c : Nat) (f : Cell → Cell) (l : Loc) :
    (s.modifyCell r c f).grid.get l = if l = (r, c) then f (s.grid.get l) else s.grid.get l := by
  rw [State.modifyCell_grid, Grid.get_modify]
  split_ifs with h
  · rw [h]
  · rfl

theorem hasActiveRight_eq_false_iff (s : State) (r c : Coord) : hasActiveRight s r c = false ↔ ¬RightActive s r c := by
  rw [← Bool.not_eq_true, hasActiveRight_iff]
  rfl

theorem linkCells_noop {w : CommandWord} {s : State} {r c mr mc : Coord}
    (h : ¬ActiveAt s r.toNat c.toNat ∨ ¬ActiveAt s mr.toNat mc.toNat ∨ RightActive s r c) :
    linkCells w r c mr mc s = s := by
  obtain ⟨hnoop, -⟩ | ⟨hcar, hmod, htail, -⟩ := linkCells_cases w r c mr mc s
  · exact hnoop
  · obtain h | h | h := h
    · exact absurd hcar h
    · exact absurd hmod h
    · exact absurd h ((hasActiveRight_eq_false_iff s r c).mp htail)

/-- `LINK` of two active cells whose carrier is a tail is decided by the cycle check. -/
theorem linkCells_tail {w : CommandWord} {s : State} {r c mr mc : Coord} (hcar : ActiveAt s r.toNat c.toNat)
    (hmod : ActiveAt s mr.toNat mc.toNat) (htail : ¬RightActive s r c) :
    linkCells w r c mr mc s = if reaches s.grid (place r c) s.params.cells (place mr mc) then flagError .cycle w s
      else s.modifyCell r.toNat c.toNat (Cell.setRef mr mc s.ctlModidx) := by
  have hcar : (s.target r c).active = true := hcar
  have hmod : (s.target mr mc).active = true := hmod
  simp [linkCells, hcar, hmod, (hasActiveRight_eq_false_iff s r c).mpr htail]

/-- Settles O26: the cycle check is a walk's existence. -/
theorem linkSetsTheModulatorOfATail : Obligations.LinkSetsTheModulatorOfATail := by
  intro s r c mr mc hs hin hmodin
  rw [exec_link_within hin hmodin]
  refine ⟨fun hnoop => by rw [linkCells_noop hnoop], fun hcar hmod htail => ?_⟩
  have hreach := reaches_iff_exists_walk hs.grid (a := place r c) hin (place mr mc)
  rw [linkCells_tail hcar hmod htail]
  refine ⟨fun hwalk => ?cycle, fun hnone => ?linked⟩
  case cycle => rw [if_pos (hreach.mpr hwalk)]; rfl
  case linked =>
    rw [if_neg fun h => (hreach.mp h).elim hnone]
    exact ⟨_, rfl, rfl, State.modifyCell_get s _ _ _⟩

theorem unlinkCell_noop {s : State} {r c : Coord} (h : ¬ActiveAt s r.toNat c.toNat ∨ RightActive s r c) :
    unlinkCell r c s = s := by
  obtain ⟨hnoop, -⟩ | ⟨hact, htail, -⟩ := unlinkCell_cases r c s
  · exact hnoop
  · obtain h | h := h
    · exact absurd hact h
    · exact absurd h ((hasActiveRight_eq_false_iff s r c).mp htail)

theorem unlinkCell_tail {s : State} {r c : Coord} (hact : ActiveAt s r.toNat c.toNat) (htail : ¬RightActive s r c) :
    unlinkCell r c s = s.modifyCell r.toNat c.toNat Cell.clearRef := by
  have hact : (s.target r c).active = true := hact
  simp [unlinkCell, hact, (hasActiveRight_eq_false_iff s r c).mpr htail]

theorem Cell.clearRef_of_no_reference {x : Cell} (hmodv : x.modv = false) (hrow : x.modrow = 0) (hcol : x.modcol = 0) :
    x.clearRef = x := by
  cases x
  cases hmodv; cases hrow; cases hcol
  rfl

/-- Under INV-RANGE a cell without a modulator has nothing to clear (10 R38). -/
theorem clearRef_of_no_modulator {p : Params} {g : Grid} (hg : g.InvRange p) {l : Loc} (h : (g.get l).modv = false) :
    (g.get l).clearRef = g.get l := by
  obtain ⟨-, hzero, -⟩ := hg l
  obtain ⟨hrow, hcol⟩ := hzero h
  exact Cell.clearRef_of_no_reference h hrow hcol

theorem Grid.modify_of_fixed {g : Grid} (hw : g.wf = true) {l : Loc} {f : Cell → Cell} (hf : f (g.get l) = g.get l) :
    g.modify l f = g := by
  refine Grid.eq_of_get (Grid.wf_modify hw _ _) hw fun l' => ?_
  rw [Grid.get_modify]
  split_ifs with h
  · rw [h, hf]
  · rfl

theorem unlinkCell_of_no_modulator {s : State} {r c : Coord} (hg : s.grid.Inv s.params)
    (h : (s.grid.get (r.toNat, c.toNat)).modv = false) : unlinkCell r c s = s := by
  obtain ⟨hnoop, -⟩ | ⟨-, -, hclear⟩ := unlinkCell_cases r c s
  · exact hnoop
  · rw [hclear, State.modifyCell, Grid.modify_of_fixed hg.wf (clearRef_of_no_modulator hg.range h)]

/-- Settles O28: the two outcomes of `UNLINK`, and that clearing no reference changes nothing. -/
theorem unlinkClearsTheReference : Obligations.UnlinkClearsTheReference := by
  intro s r c hin
  rw [exec_unlink_within hin]
  refine ⟨fun hnoop => by rw [unlinkCell_noop hnoop], fun hact htail => ?cleared, fun hs hmodv => ?bare⟩
  case cleared =>
    rw [unlinkCell_tail hact htail]
    exact ⟨_, rfl, rfl, State.modifyCell_get s _ _ _⟩
  case bare => rw [unlinkCell_of_no_modulator hs.grid hmodv]

end Sys2Proof.Machine
end

section
/-! PROOFS. The mixer and the buffer step (spec 44): the engine's step from a stopped and from a running state, the quotient of the mixer,
the conversion to binary32, the bounds of an emitted buffer, and the independence of the mix from the order of the voices. -/

namespace Sys2Proof.Machine

open Sys2Proof.Claims

/-! ## The engine's step (44 R208, R209) -/

theorem applyWord_ok {w : CommandWord} {i : Instr} (h : decode w = .ok i) (s : State) : applyWord w s = exec i s := by
  simp only [applyWord, h]

theorem engineStep_running {s : State} (hr : s.run = true) : engineStep s = engineBuffer s := if_pos hr

theorem engineStep_stopped_nil {s : State} (hr : s.run = false) (hq : s.cmdq = []) : engineStep s = .next s := by
  rw [engineStep, if_neg (by simp [hr]), engineApply, applyHead_nil hq]

theorem engineStep_stopped_cons {s : State} {w : CommandWord} {q : List CommandWord} (hr : s.run = false) (hq : s.cmdq = w :: q) :
    engineStep s = applyWord w { s with cmdq := q } := by
  rw [engineStep, if_neg (by simp [hr]), engineApply, applyHead_cons hq]

/-- Where the engine moves, its state has the `RUN` bit and the queue of the step's. -/
theorem engineMoves_run_cmdq {s s₀ : State} (h : EngineMoves s s₀) : s₀.run = s.run ∧ s₀.cmdq = s.cmdq := by
  rw [engineMoves_eq_withSchedule h]
  exact ⟨rfl, rfl⟩

/-- Settles O6: a stopped engine applies the head of the queue, which decodes to a command or is flagged. -/
theorem stoppedEngineRunsTheHeadCommand : Obligations.StoppedEngineRunsTheHeadCommand := by
  intro s s₀ hmoves hr
  obtain ⟨hrun, hqueue⟩ := engineMoves_run_cmdq hmoves
  have hr₀ : s₀.run = false := hrun.trans hr
  rw [step_of_engineMoves hmoves]
  refine ⟨fun hq => engineStep_stopped_nil hr₀ (hqueue.trans hq), fun w q i hq hw => ?command, fun w q why hq hw => ?illegal⟩
  case command => rw [engineStep_stopped_cons hr₀ (hqueue.trans hq), applyWord_ok hw]
  case illegal =>
    rw [engineStep_stopped_cons hr₀ (hqueue.trans hq), applyWord_illegal hw]
    rfl

/-- Settles O7: the drain taken one command at a time, which is the buffer step's own recursion. -/
theorem runningEngineAppliesThenEmits : Obligations.RunningEngineAppliesThenEmits := by
  intro s s₀ hmoves hr
  refine ⟨step_emits hmoves hr, fun w q hq => ?_⟩
  obtain ⟨hrun, hqueue⟩ := engineMoves_run_cmdq hmoves
  obtain ⟨t, ht⟩ := applyWord_next w { s₀ with cmdq := q }
  have hstep : step s = if t.run then engineBuffer t else .next t := by
    rw [step_of_engineMoves hmoves, engineStep_running (hrun.trans hr), engineBuffer_cons (hqueue.trans hq) ht]
  refine ⟨t, ht, (applyWord_engineFrame ht).cmdq, fun htr => ?_, fun htr => ?_⟩
  · rw [hstep, if_neg (by simp [htr])]
  · rw [hstep, if_pos htr, engineStep_running htr]

theorem tableWord_toNat (w : CommandWord) : tableWord 64 w.toNat = w := by
  rw [tableWord, Nat.mod_eq_of_lt w.isLt, BitVec.ofNat_toNat, BitVec.setWidth_eq]

/-- Settles O8: the placed word stands at the head of the queue, the turn is the engine's, and the word decodes to its command. -/
theorem placedCommandRunsNext : Obligations.PlacedCommandRunsNext := by
  intro s i hr hi
  have hmoves : EngineMoves (placeCommand (encode i) s) { s with cmdq := encode i :: s.cmdq.tail } :=
    .inr (.inl ⟨s.schedule, rfl, rfl⟩)
  calc step (s.withFetchWord 64 (encode i).toNat)
      = step (placeCommand (encode i) s) := by rw [State.withFetchWord, tableWord_toNat]
    _ = engineStep { s with cmdq := encode i :: s.cmdq.tail } := step_of_engineMoves hmoves
    _ = applyWord (encode i) { s with cmdq := s.cmdq.tail } := engineStep_stopped_cons hr rfl
    _ = exec i { s with cmdq := s.cmdq.tail } := applyWord_ok (decode_encode hi) _

/-! ## The quotient of the mixer (44 R203) -/

theorem mixSample_eq_ediv (sum : Int) (gain : VolumeWord) {n : Nat} (hn : 1 ≤ n) :
    mixSample sum gain n = sum * gain.toNat / (n * 32768) := if_neg (by omega)

/-- A sum of `n` samples times a gain is at most `n · 32768` times the largest gain. -/
theorem abs_sum_mul_gain_le {sum : Int} {gain : VolumeWord} {n : Nat} (hgain : gain.toNat ≤ 0x8000) (hsum : |sum| ≤ n * 32768) :
    |sum * gain.toNat| ≤ n * 32768 * 32768 := by
  rw [abs_mul, Nat.abs_cast]
  exact mul_le_mul hsum (by exact_mod_cast hgain) (by positivity) (by positivity)

theorem abs_mixSample_le {sum : Int} {gain : VolumeWord} {n : Nat} (hn : 1 ≤ n) (hgain : gain.toNat ≤ 0x8000)
    (hsum : |sum| ≤ n * 32768) : |mixSample sum gain n| ≤ 32768 := by
  have hpos : (0 : Int) < n * 32768 := by positivity
  obtain ⟨hlo, hhi⟩ := abs_le.mp (abs_sum_mul_gain_le hgain hsum)
  rw [mixSample_eq_ediv _ _ hn, abs_le]
  exact ⟨(Int.le_ediv_iff_mul_le hpos).mpr (by linarith), Int.ediv_le_of_le_mul hpos (by linarith)⟩

theorem mixSample_unitGain (sum : Int) {n : Nat} (hn : 1 ≤ n) : mixSample sum 0x8000#16 n = sum / n := by
  rw [mixSample_eq_ediv _ _ hn]
  exact Int.mul_ediv_mul_of_pos_left sum n (by decide)

/-- Settles O54: the two bounds of a floor, and the bound of its dividend. -/
theorem mixIsTheFlooredMean : Obligations.MixIsTheFlooredMean := by
  intro sum gain n hn hgain hsum
  have hpos : (0 : Int) < n * 32768 := by positivity
  refine ⟨?below, ?above, abs_mixSample_le hn hgain hsum, fun hvoices => ?product, ?unit, ?single⟩
  case below =>
    rw [mixSample_eq_ediv _ _ hn]
    exact Int.ediv_mul_le _ hpos.ne'
  case above =>
    rw [mixSample_eq_ediv _ _ hn]
    exact Int.lt_ediv_add_one_mul_self _ hpos
  case product =>
    have hprod := abs_sum_mul_gain_le hgain hsum
    omega
  case unit =>
    rintro rfl
    exact mixSample_unitGain sum hn
  case single =>
    rintro rfl rfl
    rw [mixSample_unitGain sum hn, Nat.cast_one, Int.ediv_one]

/-! ## The conversion to binary32 (44 R206) -/

/-- The three fields of a binary32 word, side by side. -/
def floatFields (sign exponent fraction : Nat) : Nat := sign * 2 ^ 31 + exponent * 2 ^ 23 + fraction

theorem f32_eq_floatFields {x : Int} (hx : x ≠ 0) :
    f32 x = BitVec.ofNat 32 (floatFields (if x < 0 then 1 else 0) (112 + x.natAbs.log2)
      ((x.natAbs - 2 ^ x.natAbs.log2) * 2 ^ (23 - x.natAbs.log2))) := if_neg hx

/-- Fields in their ranges are read back from the word. -/
theorem toNat_floatFields {sign exponent fraction : Nat} (hs : sign ≤ 1) (he : exponent < 256) (hf : fraction < 2 ^ 23) :
    (BitVec.ofNat 32 (floatFields sign exponent fraction)).toNat / 2 ^ 31 = sign ∧
    (BitVec.ofNat 32 (floatFields sign exponent fraction)).toNat / 2 ^ 23 % 256 = exponent ∧
    (BitVec.ofNat 32 (floatFields sign exponent fraction)).toNat % 2 ^ 23 = fraction := by
  rw [BitVec.toNat_ofNat]
  unfold floatFields
  omega

/-- The fraction field with its hidden bit is the number scaled to 24 bits: no bit of it is lost. -/
theorem hiddenBit_add_fraction {a e : Nat} (he : e ≤ 23) (ha : 2 ^ e ≤ a) : 2 ^ 23 + (a - 2 ^ e) * 2 ^ (23 - e) = a * 2 ^ (23 - e) := by
  have hsplit : 2 ^ 23 = 2 ^ e * 2 ^ (23 - e) := by rw [← Nat.pow_add, Nat.add_sub_cancel' he]
  rw [hsplit, ← Nat.add_mul, Nat.add_sub_cancel' ha]

theorem f32_binary32Is {x : Int} (hx : x ≠ 0) (hlo : -32768 ≤ x) (hhi : x ≤ 32768) : Binary32Is (f32 x) x := by
  have ha : x.natAbs ≠ 0 := Int.natAbs_ne_zero.mpr hx
  have hlow : 2 ^ x.natAbs.log2 ≤ x.natAbs := Nat.log2_self_le ha
  have hhigh : x.natAbs < 2 ^ (x.natAbs.log2 + 1) := Nat.lt_log2_self
  have he : x.natAbs.log2 < 16 := (Nat.log2_lt ha).mpr (by omega)
  rw [f32_eq_floatFields hx]
  generalize x.natAbs.log2 = e at *
  have hhidden := hiddenBit_add_fraction (by omega) hlow
  have hscaled : x.natAbs * 2 ^ (23 - e) < 2 ^ 24 := by
    calc x.natAbs * 2 ^ (23 - e) < 2 ^ (e + 1) * 2 ^ (23 - e) := Nat.mul_lt_mul_of_pos_right hhigh (by positivity)
      _ = 2 ^ 24 := by rw [← Nat.pow_add]; congr 1; omega
  obtain ⟨hs, hexp, hfrac⟩ := toNat_floatFields (sign := if x < 0 then 1 else 0) (exponent := 112 + e)
    (fraction := (x.natAbs - 2 ^ e) * 2 ^ (23 - e)) (by split <;> omega) (by omega) (by omega)
  unfold Binary32Is
  rw [hs, hexp, hfrac, hhidden]
  refine ⟨by simp, by omega, by omega, ?_⟩
  rw [Nat.mul_assoc, ← Nat.pow_add]
  congr 2
  omega

/-- Settles O55: the fields of the word are sign, `112 + log2 |s|` and the bits of `|s|` below the first. -/
theorem binary32ConversionIsExact : Obligations.Binary32ConversionIsExact :=
  ⟨fun _ => f32_binary32Is, by decide⟩

/-! ## Silence (44 R204) -/

theorem mixBuffer_nil (s : State) : mixBuffer s [] = silence s.params := by
  rw [silence_eq_map]
  rfl

theorem bufferWords_silence (p : Params) :
    bufferWords p (silence p) = List.replicate (p.bufLen * p.channels.count) 0#32 := by
  simp [bufferWords, silence, frameWords, List.flatMap_replicate, List.flatten_replicate_replicate, f32]

/-- With no voice nothing is evaluated and the mix is silent. -/
theorem emitBuffer_noVoice {s : State} (h : voiceSet s = []) :
    emitBuffer s = { s with
      out := s.out ++ [List.replicate (s.params.bufLen * s.params.channels.count) 0#32], bufcnt := s.bufcnt + 1 } := by
  rw [← bufferWords_silence, ← mixBuffer_nil s, emitBuffer, h]
  rfl

/-- Settles O51: the step is the emission, and with no active root the voice set is empty. -/
theorem noVoiceEmitsSilence : Obligations.NoVoiceEmitsSilence := by
  intro s s₀ hmoves hr hq hsilent
  have hs₀ := engineMoves_eq_withSchedule hmoves
  have hvoices : voiceSet s₀ = [] := by
    rw [hs₀, List.eq_nil_iff_forall_not_mem]
    intro r hmem
    obtain ⟨hrow, hact⟩ := mem_voiceSet.mp hmem
    exact hsilent r hrow hact
  rw [step_emits hmoves hr hq, emitBuffer_noVoice hvoices, hs₀]

/-! ## The bounds of a buffer (44 R207, R213) -/

theorem abs_operatorSample_le {x : Cell} (hv : x.vol.toNat ≤ 0x8000) (i : Nat) (m : Int) : |operatorSample x i m| ≤ 32768 := by
  obtain ⟨hlo, hhi⟩ := wave_bounds x.shape (phaseArg x i m)
  obtain ⟨-, -, hbounds⟩ := volumeProductIsAFloor.1 x.vol _ hv hlo hhi
  exact abs_le.mpr hbounds

theorem abs_sampleAt_le {p : Params} {g : Grid} (hg : g.InvRange p) (n : Nat) (l : Loc) (i : Nat) : |sampleAt g n l i| ≤ 32768 := by
  cases n with
  | zero => simp [sampleAt]
  | succ n =>
    rw [sampleAt_succ]
    exact abs_operatorSample_le (hg l).1 i _

theorem abs_listSum_le {b : Int} (xs : List Int) (h : ∀ x ∈ xs, |x| ≤ b) : |xs.sum| ≤ xs.length * b := by
  have hlo := List.card_nsmul_le_sum xs (-b) fun x hx => (abs_le.mp (h x hx)).1
  have hhi := List.sum_le_card_nsmul xs b fun x hx => (abs_le.mp (h x hx)).2
  rw [nsmul_eq_mul] at hlo hhi
  exact abs_le.mpr ⟨by linarith, hhi⟩

theorem mixGain_le {s : State} (hs : Inv s) : (mixGain s).toNat ≤ 0x8000 := by
  unfold mixGain
  split
  · decide
  · exact hs.ctlMaster

theorem mixedAt_eq_mixSample (s : State) (i : Nat) :
    mixedAt s i = mixSample ((soundingRows s).map fun r => sampleAt s.grid s.params.cells (r, 0) i).sum (mixGain s)
      (soundingRows s).length := by
  rw [mixSample, mixGain_toNat]
  rfl

theorem abs_mixedAt_le {s : State} (hs : Inv s) (i : Nat) : |mixedAt s i| ≤ 32768 := by
  have hsamples : ∀ x ∈ (soundingRows s).map fun r => sampleAt s.grid s.params.cells (r, 0) i, |x| ≤ 32768 :=
    List.forall_mem_map.mpr fun r _ => abs_sampleAt_le hs.grid.range _ _ _
  have hsum := abs_listSum_le _ hsamples
  rw [List.length_map] at hsum
  rw [mixedAt_eq_mixSample]
  by_cases hn : (soundingRows s).length = 0
  · simp [mixSample, hn]
  · exact abs_mixSample_le (by omega) (mixGain_le hs) hsum

theorem length_expectedBuffer (s : State) : (expectedBuffer s).length = s.params.bufLen * s.params.channels.count := by
  simp [expectedBuffer, List.length_flatMap, List.map_const', List.sum_replicate]

theorem mem_expectedBuffer {s : State} {w : OutWord} (h : w ∈ expectedBuffer s) : ∃ i, w = f32 (mixedAt s i) := by
  obtain ⟨i, -, hw⟩ := List.mem_flatMap.mp h
  exact ⟨i, List.eq_of_mem_replicate hw⟩

theorem emitBuffer_out {s : State} (hs : Inv s) : (emitBuffer s).out = s.out ++ [expectedBuffer s] := by
  rw [emitBuffer_eq hs.legal hs.grid, bufferWords_voiceSignals hs.grid.zero]

/-- From `s` to `t` nothing is appended to `OUT`, or the buffer of a state with the invariants, reached from `s` without a change
to the parameters. -/
def AppendsExpectedBuffer (s t : State) : Prop :=
  t.out = s.out ∨ ∃ u, Inv u ∧ u.params = s.params ∧ t.out = s.out ++ [expectedBuffer u]

theorem EngineFrame.appendsExpectedBuffer_trans {s u t : State} (h : EngineFrame s u) (ht : AppendsExpectedBuffer u t) :
    AppendsExpectedBuffer s t := by
  unfold AppendsExpectedBuffer at ht
  rwa [h.out, h.params] at ht

theorem engineBuffer_appends {s t : State} (hr : s.run = true) (hs : Inv s) (h : engineBuffer s = .next t) :
    AppendsExpectedBuffer s t := by
  refine engineBuffer_induct (P := fun s t => Inv s → AppendsExpectedBuffer s t) ?emit ?stop ?more hr h hs
  case emit => exact fun s _ _ hs => .inr ⟨s, hs, rfl, emitBuffer_out hs⟩
  case stop => exact fun s w q t _ _ ht _ _ => .inl (applyWord_engineFrame ht).out
  case more =>
    intro s w q u t _ hq hu _ ih hs
    exact (applyWord_engineFrame hu).appendsExpectedBuffer_trans (ih (applyWord_inv (hs.pop hq) hu))

theorem engineApply_out {s t : State} (h : engineApply s = .next t) : t.out = s.out := by
  cases hq : s.cmdq with
  | nil =>
    obtain rfl := Host.Outcome.next.inj ((applyHead_nil hq).symm.trans h)
    rfl
  | cons w q => exact (applyWord_engineFrame ((applyHead_cons hq).symm.trans h)).out

theorem engineStep_appends {s t : State} (hs : Inv s) (h : engineStep s = .next t) : AppendsExpectedBuffer s t := by
  unfold engineStep at h
  split_ifs at h with hr
  · exact engineBuffer_appends hr hs h
  · exact .inl (engineApply_out h)

/-- A step that appends a buffer to `OUT` appends the mix of a state with the invariants: a reset empties `OUT`, and a push or a read
leaves it. -/
theorem step_appends {s t : State} {b : List OutWord} (hs : Inv s) (ht : step s = .next t) (hout : t.out = s.out ++ [b]) :
    ∃ u, Inv u ∧ u.params = s.params ∧ b = expectedBuffer u := by
  have hemit : AppendsExpectedBuffer s t := by
    obtain ⟨s₀, hmoves, h⟩ | ⟨w, rest, -, -, h⟩ | ⟨a, rest, -, h⟩ | ⟨rest, -, h⟩ := step_cases s <;> rw [h] at ht
    · rw [engineMoves_eq_withSchedule hmoves] at ht
      have hstep := engineStep_appends (hs.withSchedule _) ht
      exact hstep
    · exact .inl (Host.Outcome.next.inj ht ▸ rfl)
    · exact .inl (Host.Outcome.next.inj ht ▸ rfl)
    · obtain rfl := Host.Outcome.next.inj ht
      simp [hostReset] at hout
  obtain h | ⟨u, hu, hparams, h⟩ := hemit
  · simp [h] at hout
  · refine ⟨u, hu, hparams, ?_⟩
    simpa using hout.symm.trans h

/-- Settles O57: an emitted buffer is the mix of the state the drain left, each of whose samples is in range. -/
theorem emittedBuffersAreBounded : Obligations.EmittedBuffersAreBounded := by
  intro s t b hs ht hout
  obtain ⟨u, hu, hparams, rfl⟩ := step_appends hs ht hout
  refine ⟨by rw [length_expectedBuffer, hparams], fun w hw => ?_⟩
  obtain ⟨i, rfl⟩ := mem_expectedBuffer hw
  obtain ⟨hlo, hhi⟩ := abs_le.mp (abs_mixedAt_le hu i)
  exact ⟨mixedAt u i, hlo, hhi, rfl⟩

/-! ## Voices in any order (44 R211) -/

/-- The mix is a sum and a count, so it does not see the order of the voices' signals. -/
theorem mixBuffer_perm (s : State) {ws ws' : List (List Int)} (h : ws.Perm ws') : mixBuffer s ws = mixBuffer s ws' := by
  unfold mixBuffer
  refine List.map_congr_left fun i _ => ?_
  rw [voiceSum, voiceSum, (h.map _).sum_eq, h.length_eq]

/-- Once every active root is in the memo, every active cell has advanced, whatever the order: each hangs on the root of its row. -/
theorem EvalOk.grid_eq_advanceAll {p : Params} {g : Grid} {ctx : Grid × Memo} (hok : EvalOk p g ctx) (hg : g.Inv p)
    (hroots : ∀ r, (g.get (r, 0)).active = true → memoGet (r, 0) ctx.2 ≠ none) : ctx.1 = g.advanceAll p := by
  refine Grid.eq_of_get hok.wf (Grid.wf_mapCells hg.wf _) fun l => ?_
  rw [Grid.get_advanceAll]
  cases hm : memoGet l ctx.2 with
  | some y => exact (hok.done l y hm).2.2
  | none =>
    rw [hok.fresh l hm, Cell.advance_of_inactive]
    refine Bool.eq_false_iff.mpr fun hact => ?_
    obtain ⟨hroot, hchain⟩ := walk_row hg l.1 l.2 hact
    exact hok.closed_walk _ _ _ (hroots _ hroot) hchain hm

/-- The voices evaluated in any order: their signals in that order, and every active cell advanced once. -/
theorem evalVoices_of_perm {s : State} {rows : List Nat} (hs : Inv s) (h : rows.Perm (voiceSet s)) :
    (evalVoices s.params rows (s.grid, [])).1 = rows.map (fun r => s.grid.signal s.params s.params.cells (r, 0)) ∧
    (evalVoices s.params rows (s.grid, [])).2.1 = s.grid.advanceAll s.params := by
  obtain ⟨hsignals, hok, hmemo, -⟩ := evalVoices_spec hs.legal hs.grid rows (s.grid, []) (EvalOk.start _ hs.grid.wf)
    fun r hr => (mem_voiceSet.mp (h.mem_iff.mp hr)).2
  refine ⟨hsignals, hok.grid_eq_advanceAll hs.grid fun r hact => hmemo r (h.mem_iff.mpr ?_)⟩
  exact mem_voiceSet.mpr ⟨(hs.grid.inGrid_of_active hact).1, hact⟩

/-! ## Two rows exchanged (44 R211) -/

@[simp] theorem swapRow_swapRow (a b r : Nat) : swapRow a b (swapRow a b r) = r := by
  unfold swapRow
  split_ifs <;> omega

theorem swapRow_injective (a b : Nat) : Function.Injective (swapRow a b) :=
  Function.LeftInverse.injective (swapRow_swapRow a b)

theorem swapRow_lt {a b n : Nat} (ha : a < n) (hb : b < n) {r : Nat} (hr : r < n) : swapRow a b r < n := by
  unfold swapRow
  split_ifs <;> assumption

/-- The place of a cell after the exchange. -/
def swapLoc (a b : Nat) (l : Loc) : Loc := (swapRow a b l.1, l.2)

section Exchange
variable {a b : Nat} {g h : Grid} (hex : RowsExchanged a b g h)
include hex

/-- The exchanged cell differs at most in the row its reference names. -/
theorem get_swapLoc (l : Loc) : ∃ mr, h.get (swapLoc a b l) = { g.get l with modrow := mr } :=
  (hex l.1 l.2).imp fun _ hmr => hmr.1

theorem active_swapLoc (l : Loc) : (h.get (swapLoc a b l)).active = (g.get l).active := by
  obtain ⟨mr, hget⟩ := get_swapLoc hex l
  rw [hget]

/-- The exchanged reference leads to the exchanged modulator. -/
theorem modulator_swapLoc (l : Loc) : (h.get (swapLoc a b l)).modulator = (g.get l).modulator.map (swapLoc a b) := by
  obtain ⟨mr, hget, hmr, -⟩ := hex l.1 l.2
  rw [show swapLoc a b l = (swapRow a b l.1, l.2) from rfl, hget]
  cases hv : (g.get l).modv with
  | false => simp [Cell.modulator, hv]
  | true => simp [Cell.modulator, hv, swapLoc, hmr hv]

/-- Exchanged operators have the signals of the originals. -/
theorem signal_swapLoc (p : Params) (n : Nat) (l : Loc) : h.signal p n (swapLoc a b l) = g.signal p n l := by
  induction n generalizing l with
  | zero => rfl
  | succ n ih =>
    have hmod : (h.get (swapLoc a b l)).modulator.map (h.signal p n) = (g.get l).modulator.map (g.signal p n) := by
      rw [modulator_swapLoc hex, Option.map_map]
      exact Option.map_congr fun l' _ => ih l'
    have hsamples : ∀ m, operatorSamples p (h.get (swapLoc a b l)) m = operatorSamples p (g.get l) m := by
      obtain ⟨mr, hget⟩ := get_swapLoc hex l
      rw [hget]
      exact fun _ => rfl
    rw [Grid.signal_succ, Grid.signal_succ, active_swapLoc hex, hmod, hsamples]

end Exchange

theorem voiceSet_nodup (s : State) : (voiceSet s).Nodup := List.nodup_range.filter _

section ExchangedVoices
variable {s : State} {h : Grid} {a b : Nat} (ha : a < s.params.rows) (hb : b < s.params.rows) (hex : RowsExchanged a b s.grid h)
include ha hb hex

/-- The voices of the exchanged grid are the exchanged voices. -/
theorem voiceSet_exchanged : (voiceSet { s with grid := h }).Perm ((voiceSet s).map (swapRow a b)) := by
  have hroot : ∀ r, (h.get (swapRow a b r, 0)).active = (s.grid.get (r, 0)).active := fun r => active_swapLoc hex (r, 0)
  refine (List.perm_ext_iff_of_nodup (voiceSet_nodup _) ((voiceSet_nodup s).map (swapRow_injective a b))).mpr fun r => ?_
  rw [mem_voiceSet, List.mem_map]
  constructor
  · rintro ⟨hr, hact⟩
    refine ⟨swapRow a b r, mem_voiceSet.mpr ⟨swapRow_lt ha hb hr, ?_⟩, swapRow_swapRow a b r⟩
    rwa [← hroot, swapRow_swapRow]
  · rintro ⟨r, hr, rfl⟩
    obtain ⟨hr, hact⟩ := mem_voiceSet.mp hr
    exact ⟨swapRow_lt ha hb hr, (hroot r).trans hact⟩

theorem voiceSignals_exchanged : (voiceSignals { s with grid := h }).Perm (voiceSignals s) := by
  have hsignals : ((voiceSet s).map (swapRow a b)).map (fun r => h.signal s.params s.params.cells (r, 0)) = voiceSignals s := by
    rw [List.map_map]
    exact List.map_congr_left fun r _ => signal_swapLoc hex s.params s.params.cells (r, 0)
  rw [← hsignals]
  exact (voiceSet_exchanged ha hb hex).map _

end ExchangedVoices

/-- Settles O52: in any order the voices have the same signals and advance the same cells; exchanged rows give the same signals in
another order; and the mix does not see the order. -/
theorem mixIsIndependentOfOrder : Obligations.MixIsIndependentOfOrder := by
  refine ⟨fun s rows hs hperm => ?order, fun s h a b hs hh ha hb hex => ?exchange⟩
  case order =>
    obtain ⟨hsignals, hgrid⟩ := evalVoices_of_perm hs hperm
    obtain ⟨hsignals', hgrid'⟩ := evalVoices_of_perm hs (.refl (voiceSet s))
    exact ⟨hgrid.trans hgrid'.symm, by rw [hsignals, hsignals']; exact mixBuffer_perm s (hperm.map _)⟩
  case exchange =>
    have hmix : mixBuffer { s with grid := h } (voiceSignals { s with grid := h }) = mixBuffer s (voiceSignals s) :=
      mixBuffer_perm s (voiceSignals_exchanged ha hb hex)
    rw [emitBuffer_eq hs.legal hs.grid, emitBuffer_eq (s := { s with grid := h }) hs.legal hh, hmix]

end Sys2Proof.Machine
end

section
/-! PROOFS. The control commands (spec 45): `NOP`, the register commands, `START` and `STOP`, the live commands on a cell of the grid, and
`CLRERR`, which alone of all commands clears a flag. -/

namespace Sys2Proof.Machine

open Sys2Proof.Claims

/-! ## NOP (45 R222) -/

/-- Settles O16: the word 0 is the only one that decodes to `NOP`, so applying the head 0 is taking it from the queue. -/
theorem nopDoesNothing : Obligations.NopDoesNothing := by
  refine ⟨fun _ => rfl, decode_eq_nop_iff, fun s q hq => ?_⟩
  have hnop : decode 0#64 = .ok .nop := (decode_eq_nop_iff _).mpr rfl
  rw [applyHead_cons hq, applyWord_ok hnop]
  rfl

/-! ## The commands with a volume operand (45 R221 check 2) -/

section Volumes
variable {s : State} {r c : Coord} {v : VolumeWord}

theorem exec_setVol_of_le (hv : v.toNat ≤ 0x8000) : exec (.setVol v) s = .next { s with ctlVol := v } :=
  congrArg Host.Outcome.next (checkVolume_pos hv)

theorem exec_setMaster_of_le (hv : v.toNat ≤ 0x8000) : exec (.setMaster v) s = .next { s with ctlMaster := v } :=
  congrArg Host.Outcome.next (checkVolume_pos hv)

theorem exec_setVol_of_gt (hv : 0x8000 < v.toNat) : exec (.setVol v) s = .next (flagError .illegal (encode (.setVol v)) s) :=
  congrArg Host.Outcome.next (checkVolume_neg hv.not_ge)

theorem exec_setMaster_of_gt (hv : 0x8000 < v.toNat) :
    exec (.setMaster v) s = .next (flagError .illegal (encode (.setMaster v)) s) :=
  congrArg Host.Outcome.next (checkVolume_neg hv.not_ge)

theorem exec_opVol_of_gt (hv : 0x8000 < v.toNat) :
    exec (.opVol r c v) s = .next (flagError .illegal (encode (.opVol r c v)) s) :=
  congrArg Host.Outcome.next (checkVolume_neg hv.not_ge)

end Volumes

/-- Settles O17: a command without a volume operand is its write by definition; one with a volume writes or is flagged by the volume
check. -/
theorem registerCommandsWriteTheirRegister : Obligations.RegisterCommandsWriteTheirRegister := by
  intro s
  exact ⟨fun _ => rfl, fun _ => exec_setVol_of_le, fun _ => rfl, fun _ => rfl, fun _ => exec_setMaster_of_le, rfl, rfl, rfl, rfl,
    fun v r c hv => ⟨exec_setVol_of_gt hv, exec_setMaster_of_gt hv, exec_opVol_of_gt hv⟩⟩

/-! ## The live commands on a cell of the grid (45 R231 to R235) -/

section LiveCommands
variable {s : State} {r c : Coord}

theorem exec_opFreq_within (hin : Within s.params r c) (x : TuningWord) :
    exec (.opFreq r c x) s = .next (onActive r c (fun y => { y with freq := x }) s) :=
  congrArg Host.Outcome.next (checkRange_pos (inGrid_of_within hin))

theorem exec_opVol_within (hin : Within s.params r c) {v : VolumeWord} (hv : v.toNat ≤ 0x8000) :
    exec (.opVol r c v) s = .next (onActive r c (fun y => { y with vol := v }) s) :=
  congrArg Host.Outcome.next ((checkVolume_pos hv).trans (checkRange_pos (inGrid_of_within hin)))

theorem exec_opShape_within (hin : Within s.params r c) (x : ShapeCode) :
    exec (.opShape r c x) s = .next (onActive r c (fun y => { y with shape := x }) s) :=
  congrArg Host.Outcome.next (checkRange_pos (inGrid_of_within hin))

theorem exec_opModIdx_within (hin : Within s.params r c) (x : IndexWord) :
    exec (.opModIdx r c x) s = .next (onActive r c (fun y => { y with modidx := x }) s) :=
  congrArg Host.Outcome.next (checkRange_pos (inGrid_of_within hin))

variable {i : Instr} {f : Cell → Cell} (h : exec i s = .next (onActive r c f s))
include h

/-- A live command on an active cell writes `f` of the cell there and leaves the rest of the grid and of the state. -/
theorem exec_live_active (hact : ActiveAt s r.toNat c.toNat) :
    ∃ t, exec i s = .next t ∧ t = { s with grid := t.grid } ∧
      ∀ l, t.grid.get l = if l = (r.toNat, c.toNat) then f (s.grid.get l) else s.grid.get l :=
  ⟨s.modifyCell r.toNat c.toNat f, h.trans (congrArg _ (onActive_pos hact)), rfl, State.modifyCell_get s _ _ f⟩

theorem exec_live_inactive (hact : ¬ActiveAt s r.toNat c.toNat) : exec i s = .next s :=
  h.trans (congrArg _ (onActive_neg (eq_false_of_ne_true hact)))

end LiveCommands

/-- Settles O21: in the grid all four are a write to their cell if it is active. -/
theorem liveCommandsWriteOneField : Obligations.LiveCommandsWriteOneField := by
  intro s r c hin
  constructor
  · exact fun hact => ⟨fun x => exec_live_active (exec_opFreq_within hin x) hact,
      fun v hv => exec_live_active (exec_opVol_within hin hv) hact,
      fun x => exec_live_active (exec_opShape_within hin x) hact,
      fun x => exec_live_active (exec_opModIdx_within hin x) hact⟩
  · exact fun hact => ⟨fun x => exec_live_inactive (exec_opFreq_within hin x) hact,
      fun v hv => exec_live_inactive (exec_opVol_within hin hv) hact,
      fun x => exec_live_inactive (exec_opShape_within hin x) hact,
      fun x => exec_live_inactive (exec_opModIdx_within hin x) hact⟩

/-! ## CLRERR (45 R240) -/

/-- A masked flag, with the mask bit as a digit of the mask's number. -/
theorem and_not_getLsbD (flag : Bool) (m : BitVec 3) (k : Nat) :
    (flag && !m.getLsbD k) = if m.toNat / 2 ^ k % 2 = 1 then false else flag := by
  rw [← BitVec.testBit_toNat, Nat.testBit_eq_decide_div_mod_eq]
  split_ifs with h <;> simp [h]

theorem clearFlags_eq (m : BitVec 3) (s : State) :
    clearFlags m s = { s with
      errIllegal := if m.toNat % 2 = 1 then false else s.errIllegal
      errRange := if m.toNat / 2 % 2 = 1 then false else s.errRange
      errCycle := if m.toNat / 4 = 1 then false else s.errCycle } := by
  have htop : m.toNat / 2 ^ 2 % 2 = m.toNat / 4 := Nat.mod_eq_of_lt (by omega)
  simp only [clearFlags, and_not_getLsbD, htop, pow_zero, pow_one, Nat.div_one]

theorem clearFlags_none (s : State) : clearFlags 0#3 s = s := by
  simp [clearFlags]

/-! ## What clears no flag (45 R240) -/

/-- Every flag set in `s` is set in `t`. -/
def FlagsKept (s t : State) : Prop := ∀ e, s.flag e = true → t.flag e = true

theorem FlagsKept.of_eq {s t : State} (h : ∀ e, t.flag e = s.flag e) : FlagsKept s t :=
  fun e he => (h e).trans he

theorem FlagsKept.refl (s : State) : FlagsKept s s := fun _ => id

theorem FlagsKept.trans {s t u : State} (h : FlagsKept s t) (k : FlagsKept t u) : FlagsKept s u :=
  fun e he => k e (h e he)

theorem FlagsKept.grid (s : State) (g : Grid) : FlagsKept s { s with grid := g } := .of_eq (flag_withGrid s g)

theorem FlagsKept.flag (e : ErrKind) (w : CommandWord) (s : State) : FlagsKept s (flagError e w s) := by
  intro e' he
  cases e' <;> simp_all [State.flag]

theorem FlagsKept.range {i : Instr} {ok : Bool} {f : State → State} {s : State} (h : FlagsKept s (f s)) :
    FlagsKept s (checkRange i ok f s) :=
  checkRange_induct (.flag _ _ _) fun _ => h

theorem FlagsKept.volume {i : Instr} {v : VolumeWord} {f : State → State} {s : State} (h : FlagsKept s (f s)) :
    FlagsKept s (checkVolume i v f s) :=
  checkVolume_induct (.flag _ _ _) fun _ => h

theorem FlagsKept.link (w : CommandWord) (r c mr mc : Coord) (s : State) : FlagsKept s (linkCells w r c mr mc s) := by
  obtain ⟨h, -⟩ | ⟨-, -, -, ⟨-, h⟩ | ⟨-, h⟩⟩ := linkCells_cases w r c mr mc s <;> rw [h]
  · exact .refl s
  · exact .flag _ _ _
  · exact .grid _ _

theorem FlagsKept.unlink (r c : Coord) (s : State) : FlagsKept s (unlinkCell r c s) := by
  obtain ⟨h, -⟩ | ⟨-, -, h⟩ := unlinkCell_cases r c s <;> rw [h]
  · exact .refl s
  · exact .grid _ _

theorem FlagsKept.deactivate (r c : Coord) (s : State) : FlagsKept s (deactivateFrom r c s) :=
  deactivateFrom_induct (.refl s) fun _ => .grid _ _

theorem FlagsKept.active (r c : Coord) (f : Cell → Cell) (s : State) : FlagsKept s (onActive r c f s) :=
  .of_eq (onActive_flag r c f s)

theorem exec_flagsKept {i : Instr} {s t : State} (h : exec i s = .next t) (hi : ∀ m, i ≠ .clrErr m) : FlagsKept s t := by
  cases i <;> obtain rfl := Host.Outcome.next.inj h
  case clrErr m => exact absurd rfl (hi m)
  case setVol x => exact .volume (.refl s)
  case setMaster x => exact .volume (.refl s)
  case activate r c => exact .range (.of_eq (activateCell_flag r c s))
  case deactivate r c => exact .range (.deactivate r c s)
  case link r c mr mc => exact .range (.link _ r c mr mc s)
  case unlink r c => exact .range (.unlink r c s)
  case opFreq r c x => exact .range (.active r c _ s)
  case opVol r c x => exact .volume (.range (.active r c _ s))
  case opShape r c x => exact .range (.active r c _ s)
  case opModIdx r c x => exact .range (.active r c _ s)
  all_goals exact .refl s

theorem applyWord_flagsKept {w : CommandWord} {s t : State} (h : applyWord w s = .next t)
    (hw : ∀ m, decode w ≠ .ok (.clrErr m)) : FlagsKept s t := by
  cases hd : decode w with
  | ok i =>
    rw [applyWord_ok hd] at h
    exact exec_flagsKept h fun m hm => hw m (hm ▸ hd)
  | illegal why =>
    rw [applyWord_illegal hd] at h
    obtain rfl := Host.Outcome.next.inj h
    exact .flag _ _ _

/-- No word of the queue is a `CLRERR`. -/
def NoClrErr (q : List CommandWord) : Prop := ∀ w ∈ q, ∀ m, decode w ≠ .ok (.clrErr m)

theorem noClrErr_cons {w : CommandWord} {q : List CommandWord} :
    NoClrErr (w :: q) ↔ (∀ m, decode w ≠ .ok (.clrErr m)) ∧ NoClrErr q := List.forall_mem_cons

/-- Taking the head off a queue without `CLRERR` and applying it keeps the flags and leaves such a queue. -/
theorem applyWord_head_flagsKept {s t : State} {w : CommandWord} {q : List CommandWord} (hno : NoClrErr s.cmdq) (hq : s.cmdq = w :: q)
    (h : applyWord w { s with cmdq := q } = .next t) : FlagsKept s t ∧ NoClrErr t.cmdq := by
  rw [hq] at hno
  obtain ⟨hw, hrest⟩ := noClrErr_cons.mp hno
  have hkept : FlagsKept { s with cmdq := q } t := applyWord_flagsKept h hw
  exact ⟨hkept, (applyWord_engineFrame h).cmdq ▸ hrest⟩

theorem engineBuffer_flagsKept {s t : State} (hr : s.run = true) (h : engineBuffer s = .next t) :
    NoClrErr s.cmdq → FlagsKept s t := by
  refine engineBuffer_induct (P := fun s t => NoClrErr s.cmdq → FlagsKept s t) ?emit ?stop ?more hr h
  case emit => exact fun s _ _ _ => .of_eq (emitBuffer_flag s)
  case stop => exact fun s w q t _ hq ht _ hno => (applyWord_head_flagsKept hno hq ht).1
  case more =>
    intro s w q t u _ hq ht _ ih hno
    obtain ⟨hkept, hrest⟩ := applyWord_head_flagsKept hno hq ht
    exact hkept.trans (ih hrest)

theorem engineStep_flagsKept {s t : State} (h : engineStep s = .next t) (hno : NoClrErr s.cmdq) : FlagsKept s t := by
  cases hr : s.run with
  | true => exact engineBuffer_flagsKept hr ((engineStep_running hr).symm.trans h) hno
  | false =>
    cases hq : s.cmdq with
    | nil =>
      obtain rfl := Host.Outcome.next.inj ((engineStep_stopped_nil hr hq).symm.trans h)
      exact .refl s
    | cons w q => exact (applyWord_head_flagsKept hno hq ((engineStep_stopped_cons hr hq).symm.trans h)).1

theorem step_flagsKept {s t : State} (h : step s = .next t) (hreset : ∀ rest, s.schedule ≠ .reset :: rest)
    (hno : NoClrErr s.cmdq) : FlagsKept s t := by
  obtain ⟨s₀, hmoves, hs⟩ | ⟨w, rest, -, -, hs⟩ | ⟨a, rest, -, hs⟩ | ⟨rest, hsched, -⟩ := step_cases s
  · rw [hs, engineMoves_eq_withSchedule hmoves] at h
    have hkept : FlagsKept { s with schedule := s₀.schedule } t := engineStep_flagsKept h hno
    exact hkept
  · obtain rfl := Host.Outcome.next.inj (hs.symm.trans h)
    exact .refl s
  · obtain rfl := Host.Outcome.next.inj (hs.symm.trans h)
    exact .refl s
  · exact absurd hsched (hreset rest)

/-- Settles O18: `CLRERR` masks the flags; every other command, and a step that neither resets nor finds a `CLRERR` in the queue, keeps
each flag that is set. -/
theorem onlyClrErrClearsFlags : Obligations.OnlyClrErrClearsFlags := by
  refine ⟨fun m s => congrArg _ (clearFlags_eq m s), fun s => congrArg _ (clearFlags_none s),
    fun i s t e h hset hclear => ?command, fun s t e h hset hclear => ?step⟩
  case command =>
    by_contra! hi
    exact absurd (exec_flagsKept h hi e hset) (by simp [hclear])
  case step =>
    by_contra! ⟨hreset, hno⟩
    exact absurd (step_flagsKept h hreset hno e hset) (by simp [hclear])

end Sys2Proof.Machine
end

section
/-! PROOFS. Exceptions (spec 60): the range error, what a flagged command leaves alone, the flags that gate nothing, and the commands that
fail silently. -/

namespace Sys2Proof.Machine

open Sys2Proof.Claims

/-! ## The flags gate nothing (60 R269) -/

/-- No part of `F`'s result outside the flags, `ERRCMD` and the record of reads depends on these. -/
def FlagBlind (F : State → Result) : Prop :=
  ∀ s s' t t', withoutErrors s = withoutErrors s' → F s = .next t → F s' = .next t' → withoutErrors t = withoutErrors t'

/-- It is enough to compare each state with its own blanked form. -/
theorem FlagBlind.of_blanked {F : State → Result} (hnext : ∀ s, ∃ t, F s = .next t)
    (h : ∀ s t u, F s = .next t → F (withoutErrors s) = .next u → withoutErrors t = withoutErrors u) : FlagBlind F := by
  intro s s' t t' hs ht ht'
  obtain ⟨u, hu⟩ := hnext (withoutErrors s)
  exact (h s t u ht hu).trans (h s' t' u ht' (hs ▸ hu)).symm

@[simp] theorem withoutErrors_flagError (e : ErrKind) (w : CommandWord) (s : State) :
    withoutErrors (flagError e w s) = withoutErrors s := by
  cases e <;> rfl

theorem withoutErrors_checkRange {i : Instr} {ok : Bool} {f : State → State} {s : State}
    (h : withoutErrors (f s) = withoutErrors (f (withoutErrors s))) :
    withoutErrors (checkRange i ok f s) = withoutErrors (checkRange i ok f (withoutErrors s)) := by
  cases ok with
  | true => rw [checkRange_pos rfl, checkRange_pos rfl, h]
  | false => rw [checkRange_neg rfl, checkRange_neg rfl, withoutErrors_flagError, withoutErrors_flagError]; rfl

theorem withoutErrors_checkVolume {i : Instr} {v : VolumeWord} {f : State → State} {s : State}
    (h : withoutErrors (f s) = withoutErrors (f (withoutErrors s))) :
    withoutErrors (checkVolume i v f s) = withoutErrors (checkVolume i v f (withoutErrors s)) := by
  by_cases hv : v.toNat ≤ 0x8000
  · rw [checkVolume_pos hv, checkVolume_pos hv, h]
  · rw [checkVolume_neg hv, checkVolume_neg hv, withoutErrors_flagError, withoutErrors_flagError]; rfl

theorem withoutErrors_onActive (r c : Coord) (f : Cell → Cell) (s : State) :
    withoutErrors (onActive r c f s) = withoutErrors (onActive r c f (withoutErrors s)) := by
  simp only [onActive, apply_ite withoutErrors]
  rfl

theorem withoutErrors_activateCell (r c : Coord) (s : State) :
    withoutErrors (activateCell r c s) = withoutErrors (activateCell r c (withoutErrors s)) := by
  simp only [activateCell, linkPredecessor, apply_ite withoutErrors]
  rfl

theorem withoutErrors_deactivateFrom (r c : Coord) (s : State) :
    withoutErrors (deactivateFrom r c s) = withoutErrors (deactivateFrom r c (withoutErrors s)) := by
  simp only [deactivateFrom, apply_ite withoutErrors]
  rfl

theorem withoutErrors_linkCells (w : CommandWord) (r c mr mc : Coord) (s : State) :
    withoutErrors (linkCells w r c mr mc s) = withoutErrors (linkCells w r c mr mc (withoutErrors s)) := by
  simp only [linkCells, apply_ite withoutErrors, withoutErrors_flagError]
  rfl

theorem withoutErrors_unlinkCell (r c : Coord) (s : State) :
    withoutErrors (unlinkCell r c s) = withoutErrors (unlinkCell r c (withoutErrors s)) := by
  simp only [unlinkCell, apply_ite withoutErrors]
  rfl

theorem exec_flagBlind (i : Instr) : FlagBlind (exec i) := by
  refine .of_blanked (exec_next i) fun s t u ht hu => ?_
  cases i <;> obtain rfl := Host.Outcome.next.inj ht <;> obtain rfl := Host.Outcome.next.inj hu
  case setVol | setMaster => exact withoutErrors_checkVolume rfl
  case activate r c => exact withoutErrors_checkRange (withoutErrors_activateCell r c s)
  case deactivate r c => exact withoutErrors_checkRange (withoutErrors_deactivateFrom r c s)
  case link r c mr mc => exact withoutErrors_checkRange (withoutErrors_linkCells _ r c mr mc s)
  case unlink r c => exact withoutErrors_checkRange (withoutErrors_unlinkCell r c s)
  case opFreq r c x | opShape r c x | opModIdx r c x => exact withoutErrors_checkRange (withoutErrors_onActive r c _ s)
  case opVol r c x =>
    exact withoutErrors_checkVolume (withoutErrors_checkRange (withoutErrors_onActive r c _ s))
  all_goals rfl

theorem applyWord_flagBlind (w : CommandWord) : FlagBlind (applyWord w) := by
  intro s s' t t' hs ht ht'
  cases hd : decode w with
  | ok i =>
    rw [applyWord_ok hd] at ht ht'
    exact exec_flagBlind i s s' t t' hs ht ht'
  | illegal why =>
    rw [applyWord_illegal hd] at ht ht'
    obtain rfl := Host.Outcome.next.inj ht
    obtain rfl := Host.Outcome.next.inj ht'
    rw [withoutErrors_flagError, withoutErrors_flagError, hs]

theorem run_eq_of_withoutErrors {s s' : State} (h : withoutErrors s = withoutErrors s') : s.run = s'.run :=
  (congrArg State.run h :)

theorem cmdq_eq_of_withoutErrors {s s' : State} (h : withoutErrors s = withoutErrors s') : s.cmdq = s'.cmdq :=
  (congrArg State.cmdq h :)

theorem withoutErrors_withQueue {s s' : State} (h : withoutErrors s = withoutErrors s') (q : List CommandWord) :
    withoutErrors { s with cmdq := q } = withoutErrors { s' with cmdq := q } :=
  congrArg (fun x : State => { x with cmdq := q }) h

/-- The buffer is computed from the grid, the mode, the master volume and the parameters alone. -/
theorem withoutErrors_emitBuffer (s : State) : withoutErrors (emitBuffer s) = emitBuffer (withoutErrors s) := rfl

theorem engineBuffer_flagBlind {s s' t t' : State} (hs : withoutErrors s = withoutErrors s') (hr : s.run = true)
    (ht : engineBuffer s = .next t) (ht' : engineBuffer s' = .next t') : withoutErrors t = withoutErrors t' := by
  have hr' : s'.run = true := (run_eq_of_withoutErrors hs).symm.trans hr
  induction hq : s.cmdq generalizing s s' with
  | nil =>
    have hq' : s'.cmdq = [] := (cmdq_eq_of_withoutErrors hs).symm.trans hq
    obtain rfl := Host.Outcome.next.inj ((engineBuffer_nil hr hq).symm.trans ht)
    obtain rfl := Host.Outcome.next.inj ((engineBuffer_nil hr' hq').symm.trans ht')
    rw [withoutErrors_emitBuffer, withoutErrors_emitBuffer, hs]
  | cons w q ih =>
    have hq' : s'.cmdq = w :: q := (cmdq_eq_of_withoutErrors hs).symm.trans hq
    obtain ⟨u, hu⟩ := applyWord_next w { s with cmdq := q }
    obtain ⟨u', hu'⟩ := applyWord_next w { s' with cmdq := q }
    have hsame : withoutErrors u = withoutErrors u' :=
      applyWord_flagBlind w _ _ u u' (withoutErrors_withQueue hs q) hu hu'
    have hrun : u.run = u'.run := run_eq_of_withoutErrors hsame
    rw [engineBuffer_cons hq hu] at ht
    rw [engineBuffer_cons hq' hu', ← hrun] at ht'
    split_ifs at ht ht' with hur
    · exact ih hsame hur ht ht' (hrun.symm.trans hur) (applyWord_engineFrame hu).cmdq
    · obtain rfl := Host.Outcome.next.inj ht
      obtain rfl := Host.Outcome.next.inj ht'
      exact hsame

theorem engineStep_flagBlind : FlagBlind engineStep := by
  intro s s' t t' hs ht ht'
  have hrun : s'.run = s.run := (run_eq_of_withoutErrors hs).symm
  have hcmdq : s'.cmdq = s.cmdq := (cmdq_eq_of_withoutErrors hs).symm
  cases hr : s.run with
  | true =>
    rw [engineStep_running hr] at ht
    rw [engineStep_running (hrun.trans hr)] at ht'
    exact engineBuffer_flagBlind hs hr ht ht'
  | false =>
    cases hq : s.cmdq with
    | nil =>
      obtain rfl := Host.Outcome.next.inj ((engineStep_stopped_nil hr hq).symm.trans ht)
      obtain rfl := Host.Outcome.next.inj ((engineStep_stopped_nil (hrun.trans hr) (hcmdq.trans hq)).symm.trans ht')
      exact hs
    | cons w q =>
      rw [engineStep_stopped_cons hr hq] at ht
      rw [engineStep_stopped_cons (hrun.trans hr) (hcmdq.trans hq)] at ht'
      exact applyWord_flagBlind w _ _ t t' (withoutErrors_withQueue hs q) ht ht'

theorem engineMoves_withoutErrors {s s₀ : State} (h : EngineMoves s s₀) : EngineMoves (withoutErrors s) (withoutErrors s₀) := by
  obtain ⟨hs, rfl⟩ | ⟨rest, hs, rfl⟩ | ⟨w, rest, hs, hfull, rfl⟩ := h
  · exact .inl ⟨hs, rfl⟩
  · exact .inr (.inl ⟨rest, hs, rfl⟩)
  · exact .inr (.inr ⟨w, rest, hs, hfull, rfl⟩)

theorem step_resetTurn {s : State} {rest : List Turn} (hs : s.schedule = .reset :: rest) :
    step s = .next (hostReset { s with schedule := rest }) := by
  simp only [step, takeTurn, hs]

/-- Blanking keeps the schedule, the queue and the parameters, so both states take the same kind of step. -/
theorem step_flagBlind : FlagBlind step := by
  refine .of_blanked step_next fun s t u ht hu => ?_
  obtain ⟨s₀, hmoves, h⟩ | ⟨w, rest, hs, room, h⟩ | ⟨a, rest, hs, h⟩ | ⟨rest, hs, h⟩ := step_cases s
  · rw [h] at ht
    rw [step_of_engineMoves (engineMoves_withoutErrors hmoves)] at hu
    exact engineStep_flagBlind s₀ (withoutErrors s₀) t u rfl ht hu
  · obtain rfl := Host.Outcome.next.inj (h.symm.trans ht)
    obtain rfl := Host.Outcome.next.inj ((step_hostPush (s := withoutErrors s) hs room).symm.trans hu)
    rfl
  · obtain rfl := Host.Outcome.next.inj (h.symm.trans ht)
    obtain rfl := Host.Outcome.next.inj ((step_hostRead (s := withoutErrors s) hs).symm.trans hu)
    rfl
  · obtain rfl := Host.Outcome.next.inj (h.symm.trans ht)
    obtain rfl := Host.Outcome.next.inj ((step_resetTurn (s := withoutErrors s) hs).symm.trans hu)
    rfl

/-- Settles O15: each command takes the same branch on the blanked state, so the drain and the emission agree, and with them every kind
of step. -/
theorem flagsGateNothing : Obligations.FlagsGateNothing := step_flagBlind

/-! ## The range error (60 R261) -/

theorem inGrid_of_outside {p : Params} {r c : Coord} (h : Outside p r c) : inGrid p r c = false := by
  rw [← Bool.not_eq_true, inGrid_iff]
  obtain h | h := h
  · exact fun hin => absurd hin.1 h.not_gt
  · exact fun hin => absurd hin.2 h.not_gt

theorem checkRange_outside {i : Instr} {ok : Bool} {f : State → State} {s : State} (h : ok = false) :
    Host.Outcome.next (checkRange i ok f s) = (.next { s with errRange := true, errcmd := encode i } : Result) :=
  congrArg _ (checkRange_neg h)

theorem exec_namesOutside {i : Instr} {s : State} (hi : i.wellFormed = true) (hout : NamesOutside s.params i) :
    exec i s = .next { s with errRange := true, errcmd := encode i } := by
  cases i
  case activate | deactivate | unlink | opFreq | opShape | opModIdx => exact checkRange_outside (inGrid_of_outside hout)
  case opVol r c v =>
    have hv : v.toNat ≤ 0x8000 := of_decide_eq_true hi
    exact (congrArg _ (checkVolume_pos hv)).trans (checkRange_outside (inGrid_of_outside hout))
  case link r c mr mc =>
    obtain hout | hout := hout
    · exact checkRange_outside (by rw [inGrid_of_outside hout, Bool.false_and])
    · exact checkRange_outside (by rw [inGrid_of_outside hout, Bool.and_false])
  all_goals exact hout.elim

/-- A coordinate is a byte, so the largest grid has them all. -/
theorem not_outside_largest {p : Params} (hrows : p.rows = 256) (hcols : p.cols = 256) (r c : Coord) : ¬Outside p r c := by
  rintro (h | h)
  · exact absurd r.isLt (by omega)
  · exact absurd c.isLt (by omega)

theorem not_namesOutside_largest {p : Params} (hrows : p.rows = 256) (hcols : p.cols = 256) (i : Instr) : ¬NamesOutside p i := by
  have hno := not_outside_largest hrows hcols
  cases i
  case link r c mr mc => exact not_or_intro (hno r c) (hno mr mc)
  case activate | deactivate | unlink | opFreq | opVol | opShape | opModIdx => exact hno _ _
  all_goals exact id

/-- `ERR_RANGE` is the digit of weight 32 of the packed `STATUS` word (20 R70). -/
theorem statusWord_errRange (s : State) : (statusWord s).getLsbD 5 = s.errRange := by
  have hrun := s.run.toNat_lt
  have hmode := s.modeAdd.toNat_lt
  have hillegal := s.errIllegal.toNat_lt
  have hrange := s.errRange.toNat_lt
  have hdigit : (statusWord s).toNat / 2 ^ 5 % 2 = s.errRange.toNat := by
    rw [toNat_statusWord]; omega
  rw [← BitVec.testBit_toNat, Nat.testBit_eq_decide_div_mod_eq, hdigit]
  cases s.errRange <;> rfl

/-- Settles O13: the range check fails where a coordinate is outside; the place of the flag is read off `STATUS` and `CLRERR`. -/
theorem coordinatesOutsideTheGridAreFlagged : Obligations.CoordinatesOutsideTheGridAreFlagged :=
  ⟨fun _ _ => exec_namesOutside, fun i _ hrows hcols => not_namesOutside_largest hrows hcols i, statusWord_errRange,
    fun m s => ⟨clearFlags m s, rfl, clearFlags_errRange m s⟩⟩

/-! ## A flagged command does nothing else (60 R262, R264) -/

/-- What a command with word `w` can do to the error state: it is flagged and does nothing else, or it leaves `ERRCMD` alone and sets no
flag. -/
inductive ErrorEffect (w : CommandWord) (s : State) : State → Prop where
  | flagged (e : ErrKind) : ErrorEffect w s (flagError e w s)
  | none {t : State} (errcmd : t.errcmd = s.errcmd) (flags : ∀ e, t.flag e = true → s.flag e = true) : ErrorEffect w s t

namespace ErrorEffect
variable {w : CommandWord} {s : State}

theorem of_flag_eq {t : State} (errcmd : t.errcmd = s.errcmd) (h : ∀ e, t.flag e = s.flag e) : ErrorEffect w s t :=
  .none errcmd fun e => (h e).symm.trans

theorem refl : ErrorEffect w s s := .of_flag_eq rfl fun _ => rfl

theorem grid (g : Grid) : ErrorEffect w s { s with grid := g } := .of_flag_eq rfl (flag_withGrid s g)

theorem range {i : Instr} {ok : Bool} {f : State → State} (h : ErrorEffect (encode i) s (f s)) :
    ErrorEffect (encode i) s (checkRange i ok f s) :=
  checkRange_induct (.flagged _) fun _ => h

theorem volume {i : Instr} {v : VolumeWord} {f : State → State} (h : ErrorEffect (encode i) s (f s)) :
    ErrorEffect (encode i) s (checkVolume i v f s) :=
  checkVolume_induct (.flagged _) fun _ => h

theorem active (r c : Coord) (f : Cell → Cell) : ErrorEffect w s (onActive r c f s) :=
  onActive_induct .refl fun _ => .grid _

theorem activate (r c : Coord) : ErrorEffect w s (activateCell r c s) := by
  rw [activateCell_eq]; exact .grid _

theorem deactivate (r c : Coord) : ErrorEffect w s (deactivateFrom r c s) :=
  deactivateFrom_induct .refl fun _ => .grid _

theorem link (r c mr mc : Coord) : ErrorEffect w s (linkCells w r c mr mc s) := by
  obtain ⟨h, -⟩ | ⟨-, -, -, ⟨-, h⟩ | ⟨-, h⟩⟩ := linkCells_cases w r c mr mc s <;> rw [h]
  · exact .refl
  · exact .flagged .cycle
  · exact .grid _

theorem unlink (r c : Coord) : ErrorEffect w s (unlinkCell r c s) := by
  obtain ⟨h, -⟩ | ⟨-, -, h⟩ := unlinkCell_cases r c s <;> rw [h]
  · exact .refl
  · exact .grid _

theorem clear (m : BitVec 3) : ErrorEffect w s (clearFlags m s) := by
  refine .none (clearFlags_errcmd m s) fun e he => ?_
  cases e <;> exact (Bool.and_eq_true_iff.mp he).1

end ErrorEffect

theorem exec_errorEffect {i : Instr} {s t : State} (h : exec i s = .next t) : ErrorEffect (encode i) s t := by
  cases i <;> obtain rfl := Host.Outcome.next.inj h
  case setVol | setMaster => exact .volume (.of_flag_eq rfl fun e => by cases e <;> rfl)
  case activate r c => exact .range (.activate r c)
  case deactivate r c => exact .range (.deactivate r c)
  case link r c mr mc => exact .range (.link r c mr mc)
  case unlink r c => exact .range (.unlink r c)
  case opFreq r c x | opShape r c x | opModIdx r c x => exact .range (.active r c _)
  case opVol r c x => exact .volume (.range (.active r c _))
  case clrErr m => exact .clear m
  all_goals exact .of_flag_eq rfl fun e => by cases e <;> rfl

/-- The word applied is the decoded command's own (30 R99), so it is the one captured. -/
theorem applyWord_errorEffect {w : CommandWord} {s t : State} (h : applyWord w s = .next t) : ErrorEffect w s t := by
  cases hd : decode w with
  | ok i =>
    rw [applyWord_ok hd] at h
    obtain ⟨row, -, hrow⟩ := decodesAt_of_decode hd
    exact hrow.encode ▸ exec_errorEffect h
  | illegal why =>
    obtain rfl := Host.Outcome.next.inj ((applyWord_illegal hd s).symm.trans h)
    exact .flagged .illegal

theorem flagged_eq_flagError (e : ErrKind) (w : CommandWord) (s : State) : flagged e w s = flagError e w s := by
  cases e <;> rfl

/-- Flagging sets no flag but its own. -/
theorem eq_of_newly_flagged {e e' : ErrKind} {w : CommandWord} {s : State} (hclear : s.flag e = false)
    (hset : (flagError e' w s).flag e = true) : e = e' := by
  cases e <;> cases e' <;> simp_all [State.flag]

/-- Settles O14: a word that sets a clear flag or changes `ERRCMD` is not one that leaves the error state alone. -/
theorem aFlaggedCommandDoesNothingElse : Obligations.AFlaggedCommandDoesNothingElse := by
  intro w s t h
  simp only [flagged_eq_flagError]
  cases applyWord_errorEffect h with
  | flagged e' => exact ⟨fun e hclear hset => by rw [eq_of_newly_flagged hclear hset], fun _ => ⟨e', rfl⟩⟩
  | none errcmd flags =>
    refine ⟨fun e hclear hset => ?_, fun hne => absurd errcmd hne⟩
    exact absurd (flags e hset) (by simp [hclear])

/-! ## Silent failures (60 R265) -/

theorem exec_start_running {s : State} (hr : s.run = true) : exec .start s = .next s := by
  cases s; cases hr; rfl

theorem exec_stop_stopped {s : State} (hr : s.run = false) : exec .stop s = .next s := by
  cases s; cases hr; rfl

section SilentCommands
variable {s : State} {r c mr mc : Coord} (hin : Within s.params r c)
include hin

theorem exec_activate_no_predecessor (hc : c ≠ 0#8) (hpred : ¬ActiveAt s r.toNat (c.toNat - 1)) :
    exec (.activate r c) s = .next s := by
  have hmay : mayActivate s r c = false :=
    Bool.eq_false_of_not_eq_true fun h => ((mayActivate_iff s r c).mp h).elim hc hpred
  rw [exec_activate_within hin, activateCell_refused hmay]

theorem exec_deactivate_inactive (hact : ¬ActiveAt s r.toNat c.toNat) : exec (.deactivate r c) s = .next s := by
  rw [exec_deactivate_within hin, deactivateFrom_neg (Bool.eq_false_of_not_eq_true hact)]

theorem exec_link_noop (hmod : Within s.params mr mc)
    (h : ¬ActiveAt s r.toNat c.toNat ∨ ¬ActiveAt s mr.toNat mc.toNat ∨ RightActive s r c) :
    exec (.link r c mr mc) s = .next s := by
  rw [exec_link_within hin hmod, linkCells_noop h]

theorem exec_unlink_noop (h : ¬ActiveAt s r.toNat c.toNat ∨ RightActive s r c) : exec (.unlink r c) s = .next s := by
  rw [exec_unlink_within hin, unlinkCell_noop h]

theorem exec_unlink_no_modulator (hg : s.grid.Inv s.params) (hmodv : (s.grid.get (r.toNat, c.toNat)).modv = false) :
    exec (.unlink r c) s = .next s := by
  rw [exec_unlink_within hin, unlinkCell_of_no_modulator hg hmodv]

end SilentCommands

/-- Settles O29: each case is its command's refusal or a write of what is already there. -/
theorem silentFailuresChangeNothing : Obligations.SilentFailuresChangeNothing := by
  intro s r c mr mc hs hin hmod
  refine ⟨exec_activate_no_predecessor hin, fun hact => ?inactive, fun hact => exec_link_noop hin hmod (.inr (.inl hact)),
    fun hright => ⟨exec_link_noop hin hmod (.inr (.inr hright)), exec_unlink_noop hin (.inr hright)⟩,
    exec_unlink_no_modulator hin hs.grid, exec_start_running, exec_stop_stopped, congrArg _ (clearFlags_none s)⟩
  case inactive =>
    exact ⟨exec_deactivate_inactive hin hact, exec_link_noop hin hmod (.inl hact), exec_unlink_noop hin (.inl hact),
      fun x => exec_live_inactive (exec_opFreq_within hin x) hact,
      fun x hx => exec_live_inactive (exec_opVol_within hin hx) hact,
      fun x => exec_live_inactive (exec_opShape_within hin x) hact,
      fun x => exec_live_inactive (exec_opModIdx_within hin x) hact⟩

end Sys2Proof.Machine
end

section
/-! PROOFS. Reset (spec 70): the words an all-zero block reads, and the reset turn. -/

namespace Sys2Proof.Machine

open Sys2Proof.Claims

/-! ## The read space of an all-zero block (20 R70 to R72) -/

theorem readCellWord_zero (k : BitVec 3) : readCellWord Cell.zero k = 0#32 := by
  revert k; decide

theorem statusWord_allZero {s : State} (h : AllZero s) : statusWord s = 0#32 := by
  obtain ⟨-, -, -, -, -, -, hmode, hrun, hillegal, hrange, hcycle, -⟩ := h
  simp [statusWord, hmode, hrun, hillegal, hrange, hcycle]

/-- Past the four constants of the build every global word is a piece of state. -/
theorem readGlobal_allZero {s : State} (h : AllZero s) {a : ReadAddr} (ha : 4 ≤ a.toNat) : readGlobal a s = 0#32 := by
  have hstatus := statusWord_allZero h
  obtain ⟨-, hfreq, hvol, hshape, hmodidx, hmaster, hmode, -, -, -, -, herrcmd, hbufcnt, hcmdq, -⟩ := h
  unfold readGlobal
  split
  case h_1 | h_2 | h_3 | h_4 => omega
  all_goals simp [hstatus, hfreq, hvol, hshape, hmodidx, hmaster, hmode, herrcmd, hbufcnt, hcmdq]

theorem regRead_allZero {s : State} (h : AllZero s) {a : ReadAddr} (ha : 4 ≤ a.toNat) : regRead a s = 0#32 := by
  have hcells : ∀ l, s.grid.get l = Cell.zero := h.left
  by_cases hglobal : a.toNat < 0x80000
  · rw [regRead_global hglobal, readGlobal_allZero h ha]
  · rw [regRead_cell (Nat.le_of_not_lt hglobal), State.target, State.cell, hcells, readCellWord_zero, ite_self]

/-- The first four words are functions of the parameters. -/
theorem regRead_constant {a : ReadAddr} (ha : a.toNat < 4) {s t : State} (hparams : t.params = s.params) :
    regRead a t = regRead a s := by
  have haddr : a = 0#20 ∨ a = 1#20 ∨ a = 2#20 ∨ a = 3#20 := by bv_omega
  obtain rfl | rfl | rfl | rfl := haddr
  · rfl
  · exact congrArg geomWord hparams
  · exact congrArg (fun p => BitVec.ofNat 32 p.bufLen) hparams
  · exact congrArg (fun p => BitVec.ofNat 32 p.qdepth) hparams

/-! ## The reset turn (70 R290, R291) -/

theorem hostReset_allZero (s : State) : AllZero (hostReset s) := resetWith_allZero s.params

theorem cmdReady_of_empty {s : State} (hdepth : 0 < s.params.qdepth) (hq : s.cmdq = []) : cmdReady s = true := by
  simpa [cmdReady, hq] using hdepth

/-- Settles O11: a reset leaves the all-zero state; its reads follow from that, and it is stopped with an empty queue. -/
theorem resetTurnRestoresTheResetState : Obligations.ResetTurnRestoresTheResetState := by
  intro s rest hp hs
  obtain ⟨-, -, -, -, -, hdepth⟩ := hp
  have hzero : AllZero (hostReset { s with schedule := rest }) := hostReset_allZero _
  exact ⟨_, step_resetTurn hs, hzero, rfl, rfl, rfl, fun _ => regRead_allZero hzero, fun _ ha => regRead_constant ha rfl,
    cmdReady_of_empty hdepth rfl, rfl, engineStep_stopped_nil rfl rfl⟩

end Sys2Proof.Machine
end
